-- ==== Sys2Proof/Word.lean ====
section
/-! DEFINITION. The word type of the block and the one shape in which sparse tables are held. -/

namespace Sys2Proof

/-- A register and a bus word: 32 bits (00_scope.md R14). -/
abbrev Word := BitVec 32

/-- A table of values by index, as the pairs (index, value) of its listed entries. Its canonical form is
indexes strictly rising; its operations are in Machine/Ops.lean. -/
abbrev Cells (α : Type) := List (Nat × α)

end Sys2Proof
end

