-- ==== Sys2Proof/Config.lean ====
section
/-! DEFINITION. What an implementation of the block fixes (00_scope.md R6 to R12) and the free values of the spec. -/

namespace Sys2Proof

/-- The implementation parameters (00_scope.md R6, R8, R10, R11, R12). A machine's parameters stand in its
State and no step changes them, so a statement over every state covers every legal choice (log entry 1). -/
structure Params where
  /-- S: bits of a symbol code (R6). -/
  symW : Nat
  /-- F: bits of a frequency (R8). -/
  freqW : Nat
  /-- L: entries of the symbol buffer (R10). -/
  symDepth : Nat
  /-- B: bits of the bit buffer (R11). -/
  bitDepth : Nat
  /-- BASE_ADDR: the host address of offset 0 (R12). -/
  baseAddr : Nat
  deriving DecidableEq, Repr

/-- FREE VALUE. Which 64 KiB aperture the block stands in: BASE_ADDR is OPEN (00_scope.md R12; log entry 2). -/
opaque Config.baseSelect : Nat

/-- FREE VALUE. What SYMBUF entry `i` holds after reset number `epoch` until it is written, before it is cut to S
bits (20_memory.md R70; log entry 6). -/
opaque Config.symbufDraw (epoch i : Nat) : Nat

/-- FREE VALUE. What BITBUF bit `k` holds after reset number `epoch` until it is written (20_memory.md R70; log
entry 6). -/
opaque Config.bitbufDraw (epoch k : Nat) : Bool

/-- FREE VALUE. The word the n-th read of an in-flight value returns (20_memory.md R60; log entry 7). -/
opaque Config.busyReadDraw (n : Nat) : Word

/-- The spec's defaults (92_eei_decisions.md section 1): S = 8, F = 32, L = 4096, B = 65536. BASE_ADDR has no default;
it is a multiple of 0x10000 that nothing constrains further (log entry 2). -/
def Params.default : Params where
  symW := 8
  freqW := 32
  symDepth := 4096
  bitDepth := 65536
  baseAddr := 0x10000 * Config.baseSelect

end Sys2Proof
end

