-- ==== Sys2Proof/Syntax.lean ====
section
/-! DEFINITION. The commands of the block: one constructor per row of spec/opcode_table.json. -/

namespace Sys2Proof

/-- The 15 commands (30_encoding.md R73). No command has an operand field: operands come from ARG0, ARG1 and ARG2
as they stood at issue (R71, R72). -/
inductive Instr where
  | nop            -- 0x00, R99
  | clear          -- 0x01, R100
  | freqClear      -- 0x02, R85
  | freqSet        -- 0x03, R86
  | freqUnset      -- 0x04, R87
  | freqGet        -- 0x05, R88
  | pqClear        -- 0x08, R81
  | pqInsert       -- 0x09, R82
  | pqExtractMin   -- 0x0A, R83
  | buildTree      -- 0x10, R89
  | nodeRead       -- 0x11, R91
  | buildCodeTable -- 0x18, R92
  | codeRead       -- 0x19, R94
  | encode         -- 0x20, R95
  | decode         -- 0x28, R97
  deriving DecidableEq, Repr

end Sys2Proof
end

