-- ==== Sys2Proof/WellFormed.lean ====
section
/-! DEFINITION. Which command words and which parameters are legal. A command carries no operand field, so every `Instr` is
well formed; what can be ill formed is the 32-bit word written to CMD and the parameters of the machine. -/

namespace Sys2Proof

/-- The opcodes 30_encoding.md R73 assigns. -/
def assignedOpcodes : List (BitVec 8) :=
  [0x00, 0x01, 0x02, 0x03, 0x04, 0x05, 0x08, 0x09, 0x0A, 0x10, 0x11, 0x18, 0x19, 0x20, 0x28]

/-- A command word is legal exactly when RSV = 0 and OPC is assigned (30_encoding.md R71). -/
def legalWord (w : Word) : Bool :=
  w.extractLsb' 8 24 == 0#24 && assignedOpcodes.contains (w.extractLsb' 0 8)

/-- The legal ranges of the parameters (00_scope.md R6, R8, R10, R11, R12). -/
def Params.legal (p : Params) : Bool :=
  decide (1 ≤ p.symW) && decide (p.symW ≤ 15)
  && decide (1 ≤ p.freqW) && decide (p.freqW ≤ 32)
  && decide (1 ≤ p.symDepth) && decide (p.symDepth ≤ 4096)
  && p.bitDepth % 32 == 0 && decide (32 ≤ p.bitDepth) && decide (p.bitDepth ≤ 262144)
  && p.baseAddr % 0x10000 == 0

end Sys2Proof
end

