-- ==== Sys2Proof/Decode.lean ====
section
/-! DEFINITION. The decoder, total on every 32-bit word (30_encoding.md R79), and the encoder after it. -/

namespace Sys2Proof

/-- The OPC field, bits [7:0] (30_encoding.md R71). -/
def opcOf (w : Word) : BitVec 8 := w.extractLsb' 0 8

/-- The RSV field, bits [31:8] (30_encoding.md R71). -/
def rsvOf (w : Word) : BitVec 24 := w.extractLsb' 8 24

/-- The opcode map of 30_encoding.md R73, read from opcode to command. -/
def opcodeMap : List (Nat × Instr) :=
  [(0x00, .nop), (0x01, .clear), (0x02, .freqClear), (0x03, .freqSet), (0x04, .freqUnset), (0x05, .freqGet),
   (0x08, .pqClear), (0x09, .pqInsert), (0x0A, .pqExtractMin), (0x10, .buildTree), (0x11, .nodeRead),
   (0x18, .buildCodeTable), (0x19, .codeRead), (0x20, .encode), (0x28, .decode)]

/-- The first row of an opcode map whose opcode is `opc`. -/
def lookupOpcode (opc : Nat) : List (Nat × Instr) → Option Instr
  | [] => none
  | (k, i) :: rest => if opc = k then some i else lookupOpcode opc rest

/-- 30_encoding.md R79: the command of a word, `none` standing for ILLEGAL. A word with RSV ≠ 0 is illegal, and so
is one whose OPC is unassigned (R74). -/
def decode (w : Word) : Option Instr :=
  if rsvOf w = 0#24 then lookupOpcode (opcOf w).toNat opcodeMap else none

/-- The opcode of a command (30_encoding.md R73). -/
def opcodeOf : Instr → BitVec 8
  | .nop => 0x00
  | .clear => 0x01
  | .freqClear => 0x02
  | .freqSet => 0x03
  | .freqUnset => 0x04
  | .freqGet => 0x05
  | .pqClear => 0x08
  | .pqInsert => 0x09
  | .pqExtractMin => 0x0A
  | .buildTree => 0x10
  | .nodeRead => 0x11
  | .buildCodeTable => 0x18
  | .codeRead => 0x19
  | .encode => 0x20
  | .decode => 0x28

/-- The command word of a command: RSV = 0 above its opcode (30_encoding.md R71). -/
def encode (i : Instr) : Word := 0#24 ++ opcodeOf i

/-- The host's reading of a row of spec/opcode_table.json: the command the decoder gives for the bits `w` of an instruction
`nbits` long, every bit above them 0. A command is one CMD word, so no word order is involved. -/
def decodeTableWord (nbits w : Nat) : Option Instr := decode (BitVec.ofNat 32 (w % 2 ^ nbits))

end Sys2Proof
end

