-- ==== Sys2Proof/Machine/State.lean ====
section
/-! DEFINITION. The state of the block, row by row of 10_state.md R45, its faults and refusals, and its reset. -/

namespace Sys2Proof.Machine

/-- STATUS.ERR: the ten codes of 60_exceptions.md R103. Codes 10 to 15 are reserved and never produced, so the
type has no constructor for them (log entry 16). -/
inductive ErrCode where
  | ok | emptyAlphabet | emptyQueue | unknownSymbol | truncatedStream
  | queueFull | bufferOverflow | noTree | badArg | illegalCmd
  deriving DecidableEq, Repr

/-- What `Busy(c)` holds: the command word and the operands captured at issue (00_scope.md R16). -/
structure Issued where
  word : Word
  arg0 : Word
  arg1 : Word
  arg2 : Word
  deriving DecidableEq, Repr

/-- The control state (00_scope.md R16; 10_state.md R40). -/
inductive Ctl where
  | idle
  | busy (c : Issued)
  deriving DecidableEq, Repr

/-- One entry of the priority queue: weight W bits, payload 16 bits (10_state.md R32). -/
structure QEntry where
  weight : Nat
  payload : Nat
  deriving DecidableEq, Repr

/-- One slot of the node arena (10_state.md R33). -/
structure Node where
  isLeaf : Bool
  sym : Nat
  weight : Nat
  left : Nat
  right : Nat
  deriving DecidableEq, Repr

/-- One present entry of the code table: codeword bit j, counted from the root, is bit j of `bits` (10_state.md R35). -/
structure Codeword where
  len : Nat
  bits : Nat
  deriving DecidableEq, Repr

/-- A host access on the slave port: a read, or a write of a word (20_memory.md R47). -/
inductive AccessKind where
  | read
  | write (v : Word)
  deriving DecidableEq, Repr

/-- A host access: its kind, its size in bytes and the host address it goes to (20_memory.md R47 to R49). -/
structure Access where
  kind : AccessKind
  bytes : Nat
  addr : Nat
  deriving DecidableEq, Repr

/-- What happens next at the block's edge. The list of these in State is the one total order of host accesses and
`Complete` steps (20_memory.md R64), with the reset input's edges (70_reset_and_hazards.md R118; log entry 3). -/
inductive Event where
  /-- The block's turn: `Complete` if it is Busy (00_scope.md R16). -/
  | block
  /-- A host access. -/
  | access (a : Access)
  /-- The reset input is asserted. -/
  | resetAssert
  /-- The reset input is released. -/
  | resetRelease
  deriving DecidableEq, Repr

/-- The state: the rows of 10_state.md R45 under the machine's parameters, and the model's own fields. -/
structure State where
  /-- The parameters; no step changes them (log entry 1). -/
  cfg : Params
  /-- Idle or Busy(c) (R40). -/
  ctl : Ctl
  /-- ARG0 (R26). -/
  arg0 : Word
  /-- ARG1 (R26). -/
  arg1 : Word
  /-- ARG2 (R26). -/
  arg2 : Word
  /-- RES0 (R27). -/
  res0 : Word
  /-- RES1 (R27). -/
  res1 : Word
  /-- RES2 (R27). -/
  res2 : Word
  /-- STATUS.TREE_VALID (R28, R34). -/
  treeValid : Bool
  /-- STATUS.TABLE_VALID (R28, R36). -/
  tableValid : Bool
  /-- STATUS.OVERRUN (R28, R41). -/
  overrun : Bool
  /-- STATUS.ERR (R28). -/
  err : ErrCode
  /-- ERR_INFO (R29). -/
  errInfo : Word
  /-- The frequency mapping: (s, FREQ[s]) for each s with PRESENT[s] = 1; an absent symbol has FREQ 0 (R30; log
  entry 9). -/
  freq : Cells Nat
  /-- Q in extraction order (R32, R44). -/
  queue : List QEntry
  /-- NODE[0], NODE[1], ...; every slot past the list is all zero (R33; log entry 9). -/
  nodes : List Node
  /-- ROOT (R34). -/
  root : Nat
  /-- NODE_USED (R34). -/
  nodeUsed : Nat
  /-- The code table: (s, CODE[s]) for each present s; an absent entry has len 0 and bits 0 (R35; log entry 9). -/
  code : Cells Codeword
  /-- The SYMBUF entries written since reset; the others hold their draw (R37; 20_memory.md R70; log entry 8). -/
  symbuf : Cells Nat
  /-- The BITBUF bits written since reset; the others hold their draw (R38; 20_memory.md R70; log entry 8). -/
  bitbuf : Cells Bool
  /-- MODEL's own: what happens next, in order (log entry 3). -/
  events : List Event
  /-- MODEL's own: the word the last host read returned (log entry 5). -/
  rdata : Option Word
  /-- MODEL's own: the level of the reset input (log entry 14). -/
  resetHeld : Bool
  /-- MODEL's own: the number of the reset whose draws the buffers hold (log entry 6). -/
  epoch : Nat
  /-- MODEL's own: how many in-flight reads have been drawn (log entry 7). -/
  draws : Nat
  deriving DecidableEq, Repr

/-- The faults: each is an access the port does not support (20_memory.md R50; 60_exceptions.md R117). Every one is safe:
the run stops, and no claim about what follows can be proved. -/
inductive Fault where
  /-- Raised by a host access that is not 4 bytes wide (20_memory.md R48, R50). Safe. -/
  | unsupportedWidth
  /-- Raised by a host access whose offset is not a multiple of 4 (20_memory.md R49, R50). Safe. -/
  | misaligned
  /-- Raised by a host access outside the block's 64 KiB aperture (20_memory.md R47; log entry 13). Safe. -/
  | outsideAperture
  /-- Raised by a host access while reset is asserted (70_reset_and_hazards.md R118). Safe. -/
  | accessInReset
  deriving DecidableEq, Repr

/-- The refusals. -/
inductive Refusal where
  /-- For an arm of `exec` with no meaning. No arm is left without one, so nothing raises it. Safe. -/
  | notModelled (mnemonic : String)
  deriving DecidableEq, Repr

/-- The machine right after reset: 10_state.md R45, with the spec's default parameters and nothing to come. -/
def State.reset : State where
  cfg := Params.default
  ctl := .idle
  arg0 := 0
  arg1 := 0
  arg2 := 0
  res0 := 0
  res1 := 0
  res2 := 0
  treeValid := false
  tableValid := false
  overrun := false
  err := .ok
  errInfo := 0
  freq := []
  queue := []
  nodes := []
  root := 0
  nodeUsed := 0
  code := []
  symbuf := []
  bitbuf := []
  events := []
  rdata := none
  resetHeld := false
  epoch := 0
  draws := 0

end Sys2Proof.Machine
end

