-- ==== Sys2Proof/Machine/Ops.lean ====
section
/-! DEFINITION. The named operations every command is written from: sparse tables, the parameters' derived sizes, the buffers'
primitives, the queue's placement and removal, and the common prologue, `done`, `fail` and epilogue of a command. -/

namespace Sys2Proof

/-! ### Sparse tables -/

/-- The value listed at index `i`, if any. -/
def cellGet {α : Type} (i : Nat) : Cells α → Option α
  | [] => none
  | (k, v) :: rest => if i = k then some v else cellGet i rest

/-- List the value `v` at index `i`, keeping the indexes rising. -/
def cellPut {α : Type} (i : Nat) (v : α) : Cells α → Cells α
  | [] => [(i, v)]
  | (k, w) :: rest =>
    if i < k then (i, v) :: (k, w) :: rest
    else if i = k then (i, v) :: rest
    else (k, w) :: cellPut i v rest

/-- Unlist index `i`. -/
def cellDrop {α : Type} (i : Nat) (m : Cells α) : Cells α := m.filter fun e => e.1 != i

/-- The canonical form: indexes strictly rising, so that no index is listed twice. -/
def cellsRising {α : Type} : Cells α → Bool
  | [] => true
  | e :: rest => rest.all (fun e' => decide (e.1 < e'.1)) && cellsRising rest

/-- Every listed index is below `n`. -/
def cellsBelow {α : Type} (n : Nat) (m : Cells α) : Bool := m.all fun e => decide (e.1 < n)

/-! ### Derived sizes (00_scope.md R7, R9, R13) -/

/-- N = 2^S, the number of symbols (R7). -/
def Params.alphabet (p : Params) : Nat := 2 ^ p.symW

/-- W = F + S, the width of a weight (R9). -/
def Params.weightW (p : Params) : Nat := p.freqW + p.symW

/-- NODES = 2N - 1, the slots of the node arena (R13). -/
def Params.nodeSlots (p : Params) : Nat := 2 * p.alphabet - 1

/-- CODE_MAX = N - 1, the longest codeword the table holds (R13). -/
def Params.codeMax (p : Params) : Nat := p.alphabet - 1

/-- CODE_WORDS = ceil(CODE_MAX / 32) (R13). -/
def Params.codeWords (p : Params) : Nat := (p.codeMax + 31) / 32

/-- PQ_CAP = N, the capacity of the queue (R13). -/
def Params.queueCap (p : Params) : Nat := p.alphabet

namespace Machine

/-! ### The frequency mapping (10_state.md R30, R31) -/

/-- PRESENT[s] (R30). -/
def State.present (s : State) (x : Nat) : Bool := (cellGet x s.freq).isSome

/-- FREQ[s], 0 when s is absent (R30). -/
def State.freqOf (s : State) (x : Nat) : Nat := (cellGet x s.freq).getD 0

/-- popcount(PRESENT) (R31). -/
def State.freqCount (s : State) : Nat := s.freq.length

/-! ### The node arena and the code table (10_state.md R33, R35) -/

/-- An unused slot: every field 0 (R33). -/
def zeroNode : Node := { isLeaf := false, sym := 0, weight := 0, left := 0, right := 0 }

/-- NODE[i]; a slot not in use is all zero (R33). -/
def State.node (s : State) (i : Nat) : Node := s.nodes.getD i zeroNode

/-- CODE[s].present, len and bits in one: `none` for an absent entry (R35). -/
def State.codeOf (s : State) (x : Nat) : Option Codeword := cellGet x s.code

/-! ### The data buffers (20_memory.md R55, R56, R70) -/

/-- SymRead(i): the entry written last, or this reset's draw cut to S bits (R54, R55, R70). -/
def State.symRead (s : State) (i : Nat) : Nat :=
  (cellGet i s.symbuf).getD (Config.symbufDraw s.epoch i % s.cfg.alphabet)

/-- BitRead(k): the bit written last, or this reset's draw (R56, R70). -/
def State.bitRead (s : State) (k : Nat) : Bool :=
  (cellGet k s.bitbuf).getD (Config.bitbufDraw s.epoch k)

/-- SymWrite(i, x) (R55). -/
def State.symWrite (s : State) (i x : Nat) : State := { s with symbuf := cellPut i x s.symbuf }

/-- Write the bits f 0 .. f (n-1) at pos .. pos + n - 1, in that order, one BitWrite each (R56). -/
def putBits (pos : Nat) (f : Nat → Bool) : Nat → Cells Bool → Cells Bool
  | 0, m => m
  | n + 1, m => cellPut (pos + n) (f n) (putBits pos f n m)

/-- The sum over j < n of BITBUF[pos + j] * 2^j (R56). -/
def State.bitsValue (s : State) (pos : Nat) : Nat → Nat
  | 0 => 0
  | n + 1 => s.bitsValue pos n + (if s.bitRead (pos + n) then 2 ^ n else 0)

/-- The canonical form of the two buffers, the block's only memories: indexes strictly rising and inside the buffer, every
symbol S bits (10_state.md R37, R38; log entry 8). -/
def Memory.wf (s : State) : Bool :=
  cellsRising s.symbuf && cellsBelow s.cfg.symDepth s.symbuf
  && s.symbuf.all (fun e => decide (e.2 < s.cfg.alphabet))
  && cellsRising s.bitbuf && cellsBelow s.cfg.bitDepth s.bitbuf

/-! ### The priority queue (40_priority_queue.md R80, R82, R83) -/

/-- R82's placement: after every entry of weight at most `w`, before the others. -/
def queuePlace (w p : Nat) (q : List QEntry) : List QEntry :=
  let j := q.countP fun e => decide (e.weight ≤ w)
  q.take j ++ { weight := w, payload := p } :: q.drop j

/-! ### The life of a command (00_scope.md R16, R19, R20) -/

/-- Where a command's pseudocode ends: the state it has reached, its error code and its locator (00_scope.md R17). -/
structure CmdEnd where
  st : State
  err : ErrCode
  info : Word
  deriving DecidableEq, Repr

/-- `done`: the command succeeds (00_scope.md R19). -/
def done (s : State) : CmdEnd := { st := s, err := .ok, info := 0 }

/-- `fail(E, info)`: the block's only exception primitive. The command stops, and what it has done so far stays
(00_scope.md R19; 60_exceptions.md R104). -/
def fail (e : ErrCode) (info : Word) (s : State) : CmdEnd := { st := s, err := e, info := info }

/-- What `Complete` does before the command's own pseudocode (00_scope.md R20). -/
def prologue (s : State) : State := { s with res0 := 0, res1 := 0, res2 := 0, errInfo := 0 }

/-- What `Complete` does last: ERR and ERR_INFO take the command's outcome and the block returns to Idle, for an error
as for a success: this block's return (00_scope.md R20; 60_exceptions.md R104, R108). -/
def epilogue (r : CmdEnd) : State := { r.st with err := r.err, errInfo := r.info, ctl := .idle }

/-- `Complete` of a command whose pseudocode is `body`: one atomic step that never stops (00_scope.md R16, R20;
60_exceptions.md R117). -/
def complete (body : State → CmdEnd) (s : State) : Host.Outcome State Fault Refusal :=
  .next (epilogue (body (prologue s)))

/-- A command's results, written to RES0, RES1 and RES2 (30_encoding.md R72). -/
def State.setRes (s : State) (r0 r1 r2 : Word) : State := { s with res0 := r0, res1 := r1, res2 := r2 }

/-- Accepting a command: the word and ARG0 to ARG2 are captured, ERR becomes 0 and BUSY 1 (00_scope.md R16, R20). -/
def issue (w : Word) (s : State) : State :=
  { s with ctl := .busy { word := w, arg0 := s.arg0, arg1 := s.arg1, arg2 := s.arg2 }, err := .ok }

/-- What an illegal command word does when it completes (30_encoding.md R74). -/
def illegalBody (w : Word) (s : State) : CmdEnd := fail .illegalCmd w s

/-- A hardware reset: every row of 10_state.md R45 takes its reset value, a command in flight is abandoned, and the buffers
are drawn afresh (70_reset_and_hazards.md R118). The parameters, the events to come, the host's last word and the
draw counter are not the block's state and stay. -/
def hardwareReset (s : State) : State :=
  { State.reset with
    cfg := s.cfg, events := s.events, rdata := s.rdata, draws := s.draws,
    epoch := s.epoch + 1, resetHeld := true }

end Machine

end Sys2Proof
end

