-- ==== Sys2Proof/Machine/Operands.lean ====
section
/-! DEFINITION. The operands of a command (30_encoding.md R72): ARG0, ARG1 and ARG2 as captured at issue, and the 64-bit weight. -/

namespace Sys2Proof.Machine

/-- ARG0 as the command sees it: as captured at issue (00_scope.md R16; 10_state.md R26). In an Idle state, where no
command is in flight, the register itself (log entry 11). -/
def State.op0 (s : State) : Word :=
  match s.ctl with
  | .idle => s.arg0
  | .busy c => c.arg0

/-- ARG1 as the command sees it. -/
def State.op1 (s : State) : Word :=
  match s.ctl with
  | .idle => s.arg1
  | .busy c => c.arg1

/-- ARG2 as the command sees it. -/
def State.op2 (s : State) : Word :=
  match s.ctl with
  | .idle => s.arg2
  | .busy c => c.arg2

/-- The 64-bit weight operand of PQ_INSERT, ARG1 above ARG0 (40_priority_queue.md R82). -/
def State.opWeight (s : State) : Nat := (s.op1 ++ s.op0 : BitVec 64).toNat

/-- `v[hi:lo]` of an unsigned value; a range above the value's width reads 0 (00_scope.md R18). -/
def bitRange (v hi lo : Nat) : Nat := (v >>> lo) % 2 ^ (hi + 1 - lo)

/-- A value zero-extended to a word, or the low 32 bits of a wider one (00_scope.md R18). -/
def zext32 (v : Nat) : Word := BitVec.ofNat 32 v

end Sys2Proof.Machine
end

