-- ==== Sys2Proof/Machine/Flags.lean ====
section
/-! DEFINITION. STATUS and its fields (10_state.md R28), and the packed result words of the readback commands. -/

namespace Sys2Proof.Machine

/-- The 4-bit code of an error (60_exceptions.md R103). -/
def ErrCode.code : ErrCode → BitVec 4
  | .ok => 0
  | .emptyAlphabet => 1
  | .emptyQueue => 2
  | .unknownSymbol => 3
  | .truncatedStream => 4
  | .queueFull => 5
  | .bufferOverflow => 6
  | .noTree => 7
  | .badArg => 8
  | .illegalCmd => 9

/-- STATUS.BUSY: 1 while the block is Busy(c) (10_state.md R28). -/
def State.busy (s : State) : Bool :=
  match s.ctl with
  | .idle => false
  | .busy _ => true

/-- The word STATUS reads as: ERR in [11:8], OVERRUN, TABLE_VALID, TREE_VALID and BUSY in [3:0], every other bit 0
(10_state.md R28). -/
def statusWord (s : State) : Word :=
  0#20 ++ s.err.code ++ 0#4 ++ BitVec.ofBool s.overrun ++ BitVec.ofBool s.tableValid ++ BitVec.ofBool s.treeValid
    ++ BitVec.ofBool s.busy

/-- A host write to STATUS: bit 3 set clears OVERRUN, every other bit is ignored (10_state.md R28). -/
def writeStatus (v : Word) (s : State) : State :=
  if v.getLsbD 3 then { s with overrun := false } else s

/-- CFG0 = {0, W, F, S} (10_state.md R23). -/
def cfg0Word (p : Params) : Word :=
  0#8 ++ BitVec.ofNat 8 p.weightW ++ BitVec.ofNat 8 p.freqW ++ BitVec.ofNat 8 p.symW

/-- TREE_INFO = {NODE_USED, ROOT} (10_state.md R34). -/
def treeInfoWord (s : State) : Word := BitVec.ofNat 16 s.nodeUsed ++ BitVec.ofNat 16 s.root

/-- RES1 of NODE_READ: {IS_LEAF, in_use, 14'b0, zext_16(WEIGHT[W-1:32])} (41_tree_builder.md R91). -/
def nodeInfoWord (w : Nat) (isLeaf inUse : Bool) (weight : Nat) : Word :=
  BitVec.ofBool isLeaf ++ BitVec.ofBool inUse ++ 0#14 ++ BitVec.ofNat 16 (bitRange weight (w - 1) 32)

/-- RES2 of NODE_READ for an internal node: {RIGHT, LEFT} (41_tree_builder.md R91). -/
def childrenWord (nd : Node) : Word := BitVec.ofNat 16 nd.right ++ BitVec.ofNat 16 nd.left

/-- RES1 of CODE_READ: {present, 15'b0, len} (42_code_table.md R94). -/
def codeInfoWord (present : Bool) (len : Nat) : Word := BitVec.ofBool present ++ 0#15 ++ BitVec.ofNat 16 len

end Sys2Proof.Machine
end

