-- ==== Sys2Proof/Machine/CodeTable.lean ====
section
/-! DEFINITION. code_table_generator: BUILD_CODE_TABLE and CODE_READ (42_code_table.md R92, R94). -/

namespace Sys2Proof.Machine

/-- NODE[i] of an arena. -/
def arenaNode (arena : List Node) (i : Nat) : Node := arena.getD i zeroNode

/-- R92's visit of node `i` at depth `d` with the edges so far in `path`, listing the leaves below it in `tab`. `fuel` bounds the
depth: a child's index is below its parent's in every tree BUILD_TREE makes (41_tree_builder.md R90), so i + 1 is
enough (log entry 12). -/
def visit (arena : List Node) : Nat → Nat → Nat → Nat → Cells Codeword → Cells Codeword
  | 0, _, _, _, tab => tab
  | fuel + 1, i, d, path, tab =>
    let nd := arenaNode arena i
    if nd.isLeaf then cellPut nd.sym { len := d, bits := path } tab
    else visit arena fuel nd.right (d + 1) (path ||| 2 ^ d) (visit arena fuel nd.left (d + 1) path tab)

/-- The table of the tree at `root`: the codeword "0" for a one-leaf tree, otherwise the paths from the root (R92). -/
def codeTableOf (arena : List Node) (root : Nat) : Cells Codeword :=
  if (arenaNode arena root).isLeaf then cellPut (arenaNode arena root).sym { len := 1, bits := 0 } []
  else visit arena (root + 1) root 0 0 []

/-- BUILD_CODE_TABLE's pseudocode (R92). -/
def buildCodeTableBody (s : State) : CmdEnd :=
  if s.treeValid = false then fail .noTree 0 s
  else
    let tab := codeTableOf s.nodes s.root
    done ({ s with code := tab, tableValid := true }.setRes (zext32 tab.length) 0 0)

/-- BUILD_CODE_TABLE (R92). -/
def execBuildCodeTable (s : State) : Host.Outcome State Fault Refusal := complete buildCodeTableBody s

/-- CODE_READ's pseudocode; an absent entry has len 0 and bits 0 (R94; 10_state.md R35). -/
def codeReadBody (s : State) : CmdEnd :=
  if s.cfg.alphabet ≤ s.op0.toNat then fail .badArg 0 s
  else if s.cfg.codeWords ≤ s.op1.toNat then fail .badArg 1 s
  else
    let e := (s.codeOf s.op0.toNat).getD { len := 0, bits := 0 }
    done (s.setRes (zext32 (bitRange e.bits (32 * s.op1.toNat + 31) (32 * s.op1.toNat)))
      (codeInfoWord (s.codeOf s.op0.toNat).isSome e.len) 0)

/-- CODE_READ (R94). -/
def execCodeRead (s : State) : Host.Outcome State Fault Refusal := complete codeReadBody s

end Sys2Proof.Machine
end

