-- ==== Sys2Proof/Machine/Control.lean ====
section
/-! DEFINITION. The control commands NOP and CLEAR (45_control.md). -/

namespace Sys2Proof.Machine

/-- NOP does nothing beyond the common prologue and epilogue (45_control.md R99). -/
def execNop (s : State) : Host.Outcome State Fault Refusal := complete done s

/-- CLEAR's effect: the mapping, the queue, the tree and the code table are emptied. ARG0 to ARG2, SYMBUF, BITBUF and OVERRUN stay
(45_control.md R100). -/
def clearBody (s : State) : CmdEnd :=
  done { s with freq := [], queue := [], nodes := [], root := 0, nodeUsed := 0, treeValid := false,
                code := [], tableValid := false }

/-- CLEAR (45_control.md R100). -/
def execClear (s : State) : Host.Outcome State Fault Refusal := complete clearBody s

end Sys2Proof.Machine
end

