-- ==== Sys2Proof/Machine/Encoder.lean ====
section
/-! DEFINITION. huffman_encoder: ENCODE (43_encoder.md R95). -/

namespace Sys2Proof.Machine

/-- How a loop over a buffer ends: what it has written, how much, and the error that ended it early, if one did. -/
structure LoopEnd (α : Type) where
  out : Cells α
  count : Nat
  stop : Option (ErrCode × Nat)
  deriving DecidableEq, Repr

/-- R95's loop over the symbols i, i + 1, ... of which `rem` are left: `pos` bits have been written so far, into `out`. Both checks of a
symbol come before any bit of it is written. -/
def encodeLoop (s : State) : Nat → Nat → Nat → Cells Bool → LoopEnd Bool
  | 0, _, pos, out => { out := out, count := pos, stop := none }
  | rem + 1, i, pos, out =>
    match s.codeOf (s.symRead i) with
    | none => { out := out, count := pos, stop := some (.unknownSymbol, i) }
    | some e =>
      if s.cfg.bitDepth < pos + e.len then { out := out, count := pos, stop := some (.bufferOverflow, i) }
      else encodeLoop s rem (i + 1) (pos + e.len) (putBits pos (fun j => e.bits.testBit j) e.len out)

/-- ENCODE's pseudocode: RES0 is the number of bits written, on an error as on success (R95). -/
def encodeBody (s : State) : CmdEnd :=
  if s.cfg.symDepth < s.op0.toNat then fail .badArg 0 s
  else
    let r := encodeLoop s s.op0.toNat 0 0 s.bitbuf
    let s' := { s with bitbuf := r.out }.setRes (zext32 r.count) 0 0
    match r.stop with
    | none => done s'
    | some (e, i) => fail e (zext32 i) s'

/-- ENCODE (R95). -/
def execEncode (s : State) : Host.Outcome State Fault Refusal := complete encodeBody s

end Sys2Proof.Machine
end

