-- ==== Sys2Proof/Machine/Decoder.lean ====
section
/-! DEFINITION. huffman_decoder: DECODE (44_decoder.md R97). -/

namespace Sys2Proof.Machine

/-- R97's loop for a one-leaf tree, over the bits k, k + 1, ... of which `rem` are left: each emits the sole symbol, and no bit is
examined. -/
def decodeLeafLoop (depth x : Nat) : Nat → Nat → Nat → Cells Nat → LoopEnd Nat
  | 0, _, cnt, out => { out := out, count := cnt, stop := none }
  | rem + 1, k, cnt, out =>
    if cnt = depth then { out := out, count := cnt, stop := some (.bufferOverflow, k) }
    else decodeLeafLoop depth x rem (k + 1) (cnt + 1) (cellPut cnt x out)

/-- R97's walk over the bits k, k + 1, ... of which `rem` are left: the walk stands at node `cur`, the codeword it is in began
at bit `start`, and `cnt` symbols have been written to `out`. At the end it is truncated exactly when it does not stand at the root
(90_conflicts.md C1). -/
def decodeLoop (s : State) : Nat → Nat → Nat → Nat → Nat → Cells Nat → LoopEnd Nat
  | 0, _, cur, start, cnt, out =>
    { out := out, count := cnt, stop := if cur = s.root then none else some (.truncatedStream, start) }
  | rem + 1, k, cur, start, cnt, out =>
    let start' := if cur = s.root then k else start
    let next := if s.bitRead k then (s.node cur).right else (s.node cur).left
    if (s.node next).isLeaf then
      if cnt = s.cfg.symDepth then { out := out, count := cnt, stop := some (.bufferOverflow, k) }
      else decodeLoop s rem (k + 1) s.root start' (cnt + 1) (cellPut cnt (s.node next).sym out)
    else decodeLoop s rem (k + 1) next start' cnt out

/-- DECODE's pseudocode: RES0 is the number of symbols written, on an error as on success (R97). -/
def decodeBody (s : State) : CmdEnd :=
  if s.cfg.bitDepth < s.op0.toNat then fail .badArg 0 s
  else if s.treeValid = false then fail .noTree 0 s
  else
    let r :=
      if (s.node s.root).isLeaf then decodeLeafLoop s.cfg.symDepth (s.node s.root).sym s.op0.toNat 0 0 s.symbuf
      else decodeLoop s s.op0.toNat 0 s.root 0 0 s.symbuf
    let s' := { s with symbuf := r.out }.setRes (zext32 r.count) 0 0
    match r.stop with
    | none => done s'
    | some (e, k) => fail e (zext32 k) s'

/-- DECODE (R97). -/
def execDecode (s : State) : Host.Outcome State Fault Refusal := complete decodeBody s

end Sys2Proof.Machine
end

