-- ==== Sys2Proof/Machine/Frequency.lean ====
section
/-! DEFINITION. The frequency-table commands FREQ_CLEAR, FREQ_SET, FREQ_UNSET and FREQ_GET (41_tree_builder.md R85 to R88). -/

namespace Sys2Proof.Machine

/-- FREQ_CLEAR's effect: no symbol is present (R85). -/
def freqClearBody (s : State) : CmdEnd := done { s with freq := [] }

/-- FREQ_CLEAR (R85). -/
def execFreqClear (s : State) : Host.Outcome State Fault Refusal := complete freqClearBody s

/-- FREQ_SET's pseudocode (R86). -/
def freqSetBody (s : State) : CmdEnd :=
  if s.cfg.alphabet ≤ s.op0.toNat then fail .badArg 0 s
  else if 2 ^ s.cfg.freqW ≤ s.op1.toNat then fail .badArg 1 s
  else done { s with freq := cellPut s.op0.toNat s.op1.toNat s.freq }

/-- FREQ_SET (R86). -/
def execFreqSet (s : State) : Host.Outcome State Fault Refusal := complete freqSetBody s

/-- FREQ_UNSET's pseudocode (R87). -/
def freqUnsetBody (s : State) : CmdEnd :=
  if s.cfg.alphabet ≤ s.op0.toNat then fail .badArg 0 s
  else done { s with freq := cellDrop s.op0.toNat s.freq }

/-- FREQ_UNSET (R87). -/
def execFreqUnset (s : State) : Host.Outcome State Fault Refusal := complete freqUnsetBody s

/-- FREQ_GET's pseudocode (R88). -/
def freqGetBody (s : State) : CmdEnd :=
  if s.cfg.alphabet ≤ s.op0.toNat then fail .badArg 0 s
  else done (s.setRes (zext32 (s.freqOf s.op0.toNat)) (zext32 (s.present s.op0.toNat).toNat) 0)

/-- FREQ_GET (R88). -/
def execFreqGet (s : State) : Host.Outcome State Fault Refusal := complete freqGetBody s

end Sys2Proof.Machine
end

