-- ==== Sys2Proof/Machine/Queue.lean ====
section
/-! DEFINITION. The priority_queue_min commands PQ_CLEAR, PQ_INSERT and PQ_EXTRACT_MIN (40_priority_queue.md R81 to R83). -/

namespace Sys2Proof.Machine

/-- PQ_CLEAR's effect (R81). -/
def pqClearBody (s : State) : CmdEnd := done { s with queue := [] }

/-- PQ_CLEAR (R81). -/
def execPqClear (s : State) : Host.Outcome State Fault Refusal := complete pqClearBody s

/-- PQ_INSERT's pseudocode (R82). -/
def pqInsertBody (s : State) : CmdEnd :=
  if 2 ^ s.cfg.weightW ≤ s.opWeight then fail .badArg 1 s
  else if 2 ^ 16 ≤ s.op2.toNat then fail .badArg 2 s
  else if s.queue.length = s.cfg.queueCap then fail .queueFull 0 s
  else done { s with queue := queuePlace s.opWeight s.op2.toNat s.queue }

/-- PQ_INSERT (R82). -/
def execPqInsert (s : State) : Host.Outcome State Fault Refusal := complete pqInsertBody s

/-- PQ_EXTRACT_MIN's pseudocode (R83). -/
def pqExtractMinBody (s : State) : CmdEnd :=
  match s.queue with
  | [] => fail .emptyQueue 0 s
  | e :: rest =>
    done ({ s with queue := rest }.setRes (zext32 (bitRange e.weight 31 0))
      (zext32 (bitRange e.weight (s.cfg.weightW - 1) 32)) (zext32 e.payload))

/-- PQ_EXTRACT_MIN (R83). -/
def execPqExtractMin (s : State) : Host.Outcome State Fault Refusal := complete pqExtractMinBody s

end Sys2Proof.Machine
end

