-- ==== Sys2Proof/Machine/TreeBuilder.lean ====
section
/-! DEFINITION. The tree builder: BUILD_TREE and NODE_READ (41_tree_builder.md R89, R91). -/

namespace Sys2Proof.Machine

/-- A leaf of the tree (R89). -/
def leafNode (x f : Nat) : Node := { isLeaf := true, sym := x, weight := f, left := 0, right := 0 }

/-- An internal node over children `a` and `b` of total weight `w` (R89). -/
def internalNode (w a b : Nat) : Node := { isLeaf := false, sym := 0, weight := w, left := a, right := b }

/-- NODE[0 .. n-1]: one leaf per present symbol, in increasing symbol order (R89). -/
def leavesOf (freq : Cells Nat) : List Node := freq.map fun e => leafNode e.1 e.2

/-- Insert the leaves of the mapping, the first as node `i`, the next as i + 1, and so on (R89). -/
def enqueueLeaves : Cells Nat → Nat → List QEntry → List QEntry
  | [], _, q => q
  | e :: rest, i, q => enqueueLeaves rest (i + 1) (queuePlace e.2 i q)

/-- The merge loop, at most `fuel` times: while two or more entries remain, the two least are merged into the next free slot, which
is the arena's length (R89). Each turn leaves one entry less, so `fuel` = the queue's length is enough. -/
def mergeNodes : Nat → List QEntry → List Node → List QEntry × List Node
  | 0, q, arena => (q, arena)
  | fuel + 1, q, arena =>
    match q with
    | a :: b :: rest =>
      mergeNodes fuel (queuePlace (a.weight + b.weight) arena.length rest)
        (arena ++ [internalNode (a.weight + b.weight) a.payload b.payload])
    | _ => (q, arena)

/-- The node of the one entry that remains (R89). -/
def lastNode (q : List QEntry) : Nat :=
  match q with
  | [] => 0
  | e :: _ => e.payload

/-- The queue and arena the build leaves for a mapping: leaves in, then the merge loop (R89). -/
def buildArena (freq : Cells Nat) : List QEntry × List Node :=
  mergeNodes freq.length (enqueueLeaves freq 0 []) (leavesOf freq)

/-- BUILD_TREE's pseudocode (R89). -/
def buildTreeBody (s : State) : CmdEnd :=
  if s.freqCount = 0 then fail .emptyAlphabet 0 s
  else
    let b := buildArena s.freq
    let r := lastNode b.1
    done ({ s with nodes := b.2, root := r, nodeUsed := b.2.length, treeValid := true,
                   code := [], tableValid := false, queue := [] }.setRes
      (zext32 r) (zext32 b.2.length) (zext32 s.freqCount))

/-- BUILD_TREE (R89). -/
def execBuildTree (s : State) : Host.Outcome State Fault Refusal := complete buildTreeBody s

/-- NODE_READ's pseudocode (R91). -/
def nodeReadBody (s : State) : CmdEnd :=
  if s.cfg.nodeSlots ≤ s.op0.toNat then fail .badArg 0 s
  else
    let nd := s.node s.op0.toNat
    let inUse := s.treeValid && decide (s.op0.toNat < s.nodeUsed)
    done (s.setRes (zext32 (bitRange nd.weight 31 0))
      (nodeInfoWord s.cfg.weightW nd.isLeaf inUse nd.weight)
      (if nd.isLeaf then zext32 nd.sym else childrenWord nd))

/-- NODE_READ (R91). -/
def execNodeRead (s : State) : Host.Outcome State Fault Refusal := complete nodeReadBody s

end Sys2Proof.Machine
end

