-- ==== Sys2Proof/Machine/Dispatch.lean ====
section
/-! DEFINITION. One arm per command: the `Complete` step of that command (00_scope.md R16). -/

namespace Sys2Proof.Machine

def exec (i : Instr) (s : State) : Host.Outcome State Fault Refusal :=
  match i with
  | .nop => Sys2Proof.Machine.execNop s
  | .clear => Sys2Proof.Machine.execClear s
  | .freqClear => Sys2Proof.Machine.execFreqClear s
  | .freqSet => Sys2Proof.Machine.execFreqSet s
  | .freqUnset => Sys2Proof.Machine.execFreqUnset s
  | .freqGet => Sys2Proof.Machine.execFreqGet s
  | .pqClear => Sys2Proof.Machine.execPqClear s
  | .pqInsert => Sys2Proof.Machine.execPqInsert s
  | .pqExtractMin => Sys2Proof.Machine.execPqExtractMin s
  | .buildTree => Sys2Proof.Machine.execBuildTree s
  | .nodeRead => Sys2Proof.Machine.execNodeRead s
  | .buildCodeTable => Sys2Proof.Machine.execBuildCodeTable s
  | .codeRead => Sys2Proof.Machine.execCodeRead s
  | .encode => Sys2Proof.Machine.execEncode s
  | .decode => Sys2Proof.Machine.execDecode s

end Sys2Proof.Machine
end

