-- ==== Sys2Proof/Machine/Port.lean ====
section
/-! DEFINITION. The slave port: the register map and the data windows (20_memory.md R51 to R60), and the block's turn. -/

namespace Sys2Proof.Machine

/-- The named registers of 20_memory.md R51. -/
inductive Reg where
  | id | cfg0 | cfg1 | cfg2 | cmd | arg0 | arg1 | arg2 | status | errInfo | res0 | res1 | res2
  | pqCount | treeInfo | freqCount
  deriving DecidableEq, Repr

/-- What an aligned offset of the aperture names (20_memory.md R51). -/
inductive Loc where
  | reg (r : Reg)
  | symbuf (i : Nat)
  | bitbuf (w : Nat)
  | reserved
  deriving DecidableEq, Repr

/-- The registers by offset (20_memory.md R51). -/
def regMap : Cells Reg :=
  [(0x000, .id), (0x004, .cfg0), (0x008, .cfg1), (0x00C, .cfg2), (0x010, .cmd), (0x014, .arg0), (0x018, .arg1),
   (0x01C, .arg2), (0x020, .status), (0x024, .errInfo), (0x028, .res0), (0x02C, .res1), (0x030, .res2),
   (0x034, .pqCount), (0x038, .treeInfo), (0x03C, .freqCount)]

/-- The register map: SYMBUF[i] at 0x4000 + 4i for i < L, BITBUF word w at 0x8000 + 4w for w < B/32, the registers at their
offsets, and everything else reserved (20_memory.md R51). -/
def locate (p : Params) (off : Nat) : Loc :=
  if 0x4000 ≤ off ∧ off < 0x4000 + 4 * p.symDepth then .symbuf ((off - 0x4000) / 4)
  else if 0x8000 ≤ off ∧ off < 0x8000 + p.bitDepth / 8 then .bitbuf ((off - 0x8000) / 4)
  else
    match cellGet off regMap with
    | some r => .reg r
    | none => .reserved

/-- The word a register reads as (10_state.md R22 to R34, R39). -/
def readReg (s : State) : Reg → Word
  | .id => 0x48554601#32
  | .cfg0 => cfg0Word s.cfg
  | .cfg1 => zext32 s.cfg.symDepth
  | .cfg2 => zext32 s.cfg.bitDepth
  | .cmd => 0
  | .arg0 => s.arg0
  | .arg1 => s.arg1
  | .arg2 => s.arg2
  | .status => statusWord s
  | .errInfo => s.errInfo
  | .res0 => s.res0
  | .res1 => s.res1
  | .res2 => s.res2
  | .pqCount => zext32 s.queue.length
  | .treeInfo => treeInfoWord s
  | .freqCount => zext32 s.freqCount

/-- The word an offset reads as while the block is Idle (20_memory.md R51, R52, R54, R56). -/
def readLoc (s : State) : Loc → Word
  | .reg r => readReg s r
  | .symbuf i => zext32 (s.symRead i)
  | .bitbuf w => zext32 (s.bitsValue (32 * w) 32)
  | .reserved => 0

/-- The offsets whose value is in flight while the block is Busy (20_memory.md R60). -/
def inFlight : Loc → Bool
  | .reg .errInfo => true
  | .reg .res0 => true
  | .reg .res1 => true
  | .reg .res2 => true
  | .reg .pqCount => true
  | .reg .treeInfo => true
  | .reg .freqCount => true
  | .reg _ => false
  | .symbuf _ => true
  | .bitbuf _ => true
  | .reserved => false

/-- What a read of an in-flight value returns: any word, and for SYMBUF any S-bit symbol (20_memory.md R60;
93_implementation_defined.md I-10; log entry 7). -/
def inFlightWord (s : State) : Loc → Word
  | .symbuf _ => zext32 ((Config.busyReadDraw s.draws).toNat % s.cfg.alphabet)
  | _ => Config.busyReadDraw s.draws

/-- HostRead: the word goes to the host, and no register changes (20_memory.md R53, R58, R60). -/
def hostRead (loc : Loc) (s : State) : State :=
  if s.busy && inFlight loc then { s with rdata := some (inFlightWord s loc), draws := s.draws + 1 }
  else { s with rdata := some (readLoc s loc) }

/-- HostWrite while Idle: ARG0 to ARG2, the two windows, STATUS and CMD; every other write is ignored (20_memory.md
R51 to R56). -/
def writeLoc (v : Word) (s : State) : Loc → State
  | .reg .arg0 => { s with arg0 := v }
  | .reg .arg1 => { s with arg1 := v }
  | .reg .arg2 => { s with arg2 := v }
  | .reg .cmd => issue v s
  | .reg .status => writeStatus v s
  | .reg _ => s
  | .symbuf i => s.symWrite i (v.toNat % s.cfg.alphabet)
  | .bitbuf w => { s with bitbuf := putBits (32 * w) (fun j => v.getLsbD j) 32 s.bitbuf }
  | .reserved => s

/-- A host write while the block is Busy: dropped, but for STATUS (20_memory.md R60; 10_state.md R28, R41). -/
def writeBusy (v : Word) (s : State) : Loc → State
  | .reg .status => writeStatus v s
  | _ => { s with overrun := true }

/-- HostWrite (20_memory.md R47, R60). -/
def hostWrite (loc : Loc) (v : Word) (s : State) : State :=
  match s.ctl with
  | .idle => writeLoc v s loc
  | .busy _ => writeBusy v s loc

/-- A host access. One that the port does not support changes nothing and faults: in reset, outside the aperture, not a word, not
aligned (20_memory.md R48 to R50; 70_reset_and_hazards.md R118; log entry 13). -/
def hostAccess (a : Access) (s : State) : Host.Outcome State Fault Refusal :=
  if s.resetHeld then .fault .accessInReset
  else if a.addr < s.cfg.baseAddr ∨ s.cfg.baseAddr + 0x10000 ≤ a.addr then .fault .outsideAperture
  else if a.bytes ≠ 4 then .fault .unsupportedWidth
  else if (a.addr - s.cfg.baseAddr) % 4 ≠ 0 then .fault .misaligned
  else
    let loc := locate s.cfg (a.addr - s.cfg.baseAddr)
    match a.kind with
    | .read => .next (hostRead loc s)
    | .write v => .next (hostWrite loc v s)

/-- `Complete` of the command in flight: the decoded command, or ILLEGAL_CMD for an illegal word (00_scope.md R16;
30_encoding.md R74, R79). -/
def completeIssued (c : Issued) (s : State) : Host.Outcome State Fault Refusal :=
  match decode c.word with
  | some i => exec i s
  | none => complete (illegalBody c.word) s

/-- The block's turn: `Complete` while Busy, nothing while Idle or held in reset (00_scope.md R16; 60_exceptions.md
R116; 70_reset_and_hazards.md R118). -/
def blockTurn (s : State) : Host.Outcome State Fault Refusal :=
  if s.resetHeld then .next s
  else
    match s.ctl with
    | .idle => .next s
    | .busy c => completeIssued c s

/-- One event (log entries 3, 14). -/
def runEvent (e : Event) (s : State) : Host.Outcome State Fault Refusal :=
  match e with
  | .block => blockTurn s
  | .access a => hostAccess a s
  | .resetAssert => .next (hardwareReset s)
  | .resetRelease => .next { s with resetHeld := false }

/-- A command word put in flight as a CMD write puts it, with the block's turn next (log entry 15). -/
def placeWord (nbits w : Nat) (s : State) : State :=
  let t := issue (BitVec.ofNat 32 (w % 2 ^ nbits)) s
  { t with events := .block :: s.events, resetHeld := false }

end Sys2Proof.Machine
end

