-- ==== Sys2Proof/Machine/Step.lean ====
section
/-! DEFINITION. The step: the next event in the one total order (20_memory.md R64), or the block's turn when none is left. -/

namespace Sys2Proof.Machine

/-- One step. With no event left the block takes its turn, since `Complete` is weakly fair (00_scope.md R16; log
entry 4). -/
def step (s : State) : Host.Outcome State Fault Refusal :=
  match s.events with
  | [] => blockTurn s
  | e :: rest => runEvent e { s with events := rest }

/-- The host's placing of one command word so that the very next step runs it: `Busy` with that word and the block's turn next
(log entry 15). -/
def State.withFetchWord (s : State) (nbits w : Nat) : State := placeWord nbits w s

end Sys2Proof.Machine
end

