-- ==== Sys2Proof/Safety.lean ====
section
/-! DEFINITION. The terms claims are stated in: the invariant of the block's state, what a command leaves unchanged, what a host
reads and writes, and the paths and streams a Huffman tree gives. -/

namespace Sys2Proof.Machine

/-! ### The invariant -/

/-- The mapping is canonical, its symbols are below N and its frequencies F bits (10_state.md R30). -/
def State.freqOk (s : State) : Bool :=
  cellsRising s.freq && cellsBelow s.cfg.alphabet s.freq && s.freq.all fun e => decide (e.2 < 2 ^ s.cfg.freqW)

/-- Weights non-decreasing along the queue (10_state.md R32). -/
def weightsSorted : List QEntry → Bool
  | [] => true
  | e :: rest => rest.all (fun e' => decide (e.weight ≤ e'.weight)) && weightsSorted rest

/-- The queue is in extraction order, holds at most N entries, and every entry fits its widths (10_state.md R32). -/
def State.queueOk (s : State) : Bool :=
  weightsSorted s.queue && decide (s.queue.length ≤ s.cfg.queueCap)
  && s.queue.all fun e => decide (e.weight < 2 ^ s.cfg.weightW) && decide (e.payload < 2 ^ 16)

/-- How many leaves the arena holds. -/
def State.leafCount (s : State) : Nat := s.nodes.countP fun nd => nd.isLeaf

/-- The children named by the internal nodes n, n + 1, ..., m - 1. -/
def State.childrenFrom (s : State) (n m : Nat) : List Nat :=
  (List.range m).flatMap fun k => if n ≤ k then [(s.node k).left, (s.node k).right] else []

/-- The laws of a built tree (41_tree_builder.md R90): n leaves first, in increasing symbol order, then the n - 1 internal nodes, each over
two earlier nodes whose weights it adds; every node but the root is a child of exactly one; every weight fits W bits. -/
def State.arenaOk (s : State) : Bool :=
  let n := s.leafCount
  decide (1 ≤ n) && decide (n ≤ s.cfg.alphabet)
  && s.nodes.length == 2 * n - 1 && s.nodeUsed == 2 * n - 1 && s.root == 2 * n - 2
  && (List.range n).all (fun i =>
      (s.node i).isLeaf && decide ((s.node i).sym < s.cfg.alphabet)
      && decide ((s.node i).weight < 2 ^ s.cfg.freqW) && (s.node i).left == 0 && (s.node i).right == 0)
  && (List.range (n - 1)).all (fun i => decide ((s.node i).sym < (s.node (i + 1)).sym))
  && (List.range (2 * n - 1)).all (fun k => decide (k < n) ||
      (!(s.node k).isLeaf && (s.node k).sym == 0
       && decide ((s.node k).left < k) && decide ((s.node k).right < k)
       && (s.node k).weight == (s.node (s.node k).left).weight + (s.node (s.node k).right).weight))
  && (List.range (2 * n - 2)).all (fun j => (s.childrenFrom n (2 * n - 1)).count j == 1)
  && s.nodes.all (fun nd => decide (nd.weight < 2 ^ s.cfg.weightW))

/-- With TREE_VALID the arena holds a tree; without it the arena, ROOT and NODE_USED are 0 (10_state.md R34). -/
def State.treeOk (s : State) : Bool :=
  if s.treeValid then s.arenaOk else s.nodes == [] && s.root == 0 && s.nodeUsed == 0

/-- TABLE_VALID is 1 exactly when the code table is the one of the tree now in the arena; otherwise it is empty
(10_state.md R36). -/
def State.tableOk (s : State) : Bool :=
  if s.tableValid then s.treeValid && s.code == codeTableOf s.nodes s.root else s.code == []

/-- While Busy, ERR is 0, the captured operands are those of ARG0 to ARG2, which nothing can change meanwhile, and reset is not
held (10_state.md R28; 20_memory.md R60; 70_reset_and_hazards.md R118). -/
def State.ctlOk (s : State) : Bool :=
  match s.ctl with
  | .idle => true
  | .busy c => s.err == .ok && !s.resetHeld && c.arg0 == s.arg0 && c.arg1 == s.arg1 && c.arg2 == s.arg2

/-- The invariant: what holds of every state the block can be in, whatever the host does. -/
def State.inv (s : State) : Bool :=
  s.cfg.legal && s.freqOk && s.queueOk && s.treeOk && s.tableOk && Memory.wf s && s.ctlOk

/-! ### What a command reports and what it leaves unchanged -/

/-- The block is Idle and shows this outcome: ERR, ERR_INFO and RES0 to RES2 (60_exceptions.md R104). -/
def Reports (t : State) (e : ErrCode) (info r0 r1 r2 : Word) : Prop :=
  t.ctl = .idle ∧ t.err = e ∧ t.errInfo = info ∧ t.res0 = r0 ∧ t.res1 = r1 ∧ t.res2 = r2

/-- What no command touches: the parameters, ARG0 to ARG2, OVERRUN and the model's own fields (10_state.md R26, R41). -/
def SamePort (s t : State) : Prop :=
  t.cfg = s.cfg ∧ t.arg0 = s.arg0 ∧ t.arg1 = s.arg1 ∧ t.arg2 = s.arg2 ∧ t.overrun = s.overrun
  ∧ t.events = s.events ∧ t.rdata = s.rdata ∧ t.resetHeld = s.resetHeld ∧ t.epoch = s.epoch ∧ t.draws = s.draws

/-- The frequency mapping is unchanged. -/
def SameFreq (s t : State) : Prop := t.freq = s.freq

/-- The queue is unchanged. -/
def SameQueue (s t : State) : Prop := t.queue = s.queue

/-- The tree is unchanged: arena, ROOT, NODE_USED and TREE_VALID. -/
def SameTree (s t : State) : Prop :=
  t.nodes = s.nodes ∧ t.root = s.root ∧ t.nodeUsed = s.nodeUsed ∧ t.treeValid = s.treeValid

/-- The code table and TABLE_VALID are unchanged. -/
def SameTable (s t : State) : Prop := t.code = s.code ∧ t.tableValid = s.tableValid

/-- Every SYMBUF entry reads as before. -/
def SameSymbuf (s t : State) : Prop := ∀ i, t.symRead i = s.symRead i

/-- Every BITBUF bit reads as before. -/
def SameBitbuf (s t : State) : Prop := ∀ k, t.bitRead k = s.bitRead k

/-- Everything but the outcome registers is unchanged: what a command that fails before any effect leaves, and a readback command. -/
def SameTables (s t : State) : Prop :=
  SamePort s t ∧ SameFreq s t ∧ SameQueue s t ∧ SameTree s t ∧ SameTable s t ∧ SameSymbuf s t ∧ SameBitbuf s t

/-- The command `i` fails with `e` and `info`, RES0 to RES2 0, and nothing else changed. -/
def FailsCleanly (i : Instr) (s : State) (e : ErrCode) (info : Word) : Prop :=
  ∃ t, exec i s = .next t ∧ Reports t e info 0 0 0 ∧ SameTables s t

/-- The state a step goes on to; the given one if it stops. -/
def nextOr (s : State) : Host.Outcome State Fault Refusal → State
  | .next t => t
  | .fault _ => s
  | .refused _ => s

/-! ### Host accesses as steps -/

/-- `s` with one aligned word read of offset `off` as its next event. -/
def State.reading (s : State) (off : Nat) : State :=
  { s with events := .access { kind := .read, bytes := 4, addr := s.cfg.baseAddr + off } :: s.events }

/-- `s` with one aligned word write of `v` to offset `off` as its next event. -/
def State.writing (s : State) (off : Nat) (v : Word) : State :=
  { s with events := .access { kind := .write v, bytes := 4, addr := s.cfg.baseAddr + off } :: s.events }

/-- A read of `off` returns `w`, and changes nothing else. -/
def ReadsAs (s : State) (off : Nat) (w : Word) : Prop :=
  step (s.reading off) = .next { s with rdata := some w }

/-- A supported offset that 20_memory.md R51 names no register or buffer word at. -/
def ReservedOffset (p : Params) (off : Nat) : Prop :=
  off % 4 = 0 ∧ ((0x40 ≤ off ∧ off < 0x4000) ∨ (0x4000 + 4 * p.symDepth ≤ off ∧ off < 0x8000)
    ∨ (0x8000 + p.bitDepth / 8 ≤ off ∧ off < 0x10000))

/-! ### Trees, codewords and bit streams -/

/-- The node reached from ROOT by the first `d` edges of the path `bits`, edge j being bit j (42_code_table.md R92). -/
def State.nodeAt (s : State) (bits : Nat) : Nat → Nat
  | 0 => s.root
  | d + 1 => if bits.testBit d then (s.node (s.nodeAt bits d)).right else (s.node (s.nodeAt bits d)).left

/-- The codeword of symbol `x` in the tree now in the arena. -/
def State.treeCode (s : State) (x : Nat) : Option Codeword := cellGet x (codeTableOf s.nodes s.root)

/-- Codeword `e` is an initial part of codeword `f`, or equal to it (42_code_table.md R93). -/
def Codeword.startsOf (e f : Codeword) : Prop := e.len ≤ f.len ∧ ∀ j, j < e.len → e.bits.testBit j = f.bits.testBit j

/-- BITBUF holds the codeword `e` at bit `pos`. -/
def State.holdsCode (s : State) (pos : Nat) (e : Codeword) : Prop :=
  ∀ j, j < e.len → s.bitRead (pos + j) = e.bits.testBit j

/-- BITBUF holds, from bit `pos` on, the tree's codewords of the listed symbols one after another. -/
def State.holdsStream (s : State) : Nat → List (Nat × Codeword) → Prop
  | _, [] => True
  | pos, (x, e) :: rest => s.treeCode x = some e ∧ s.holdsCode pos e ∧ s.holdsStream (pos + e.len) rest

/-- The number of bits of a stream. -/
def streamLen (xs : List (Nat × Codeword)) : Nat := (xs.map fun e => e.2.len).sum

/-- The bit at which the codeword of SYMBUF[m] starts when SYMBUF[0], SYMBUF[1], ... are encoded; a symbol without codeword
counts 0 (43_encoder.md R95). -/
def State.codeStart (s : State) : Nat → Nat
  | 0 => 0
  | m + 1 => s.codeStart m + ((s.codeOf (s.symRead m)).map fun e => e.len).getD 0

/-- After ENCODE, `t` holds the codewords of SYMBUF[0 .. m-1] and, past them, the bits `s` held. -/
def EncodedUpTo (s t : State) (m : Nat) : Prop :=
  (∀ i, i < m → ∀ e, s.codeOf (s.symRead i) = some e → t.holdsCode (s.codeStart i) e)
  ∧ ∀ k, s.codeStart m ≤ k → t.bitRead k = s.bitRead k

end Sys2Proof.Machine
end

