-- ==== Sys2Proof/Certificates/Slice0/Obligations.lean ====
section
/-! DEFINITION. The statements for the provers. Each is about every state and every operand that meets its hypotheses. -/

open Sys2Proof Sys2Proof.Machine

/-! ### Reset and invariants -/

/-- 70_reset_and_hazards.md R118: an asserted reset, at any time and also while a command runs, puts every row of 10_state.md R45 to
its reset value, abandons the command in flight and draws the buffers afresh; host accesses while it is held fault. (That a draw is a free
value numbered by the reset is the model's: log entries 6 and 14.) -/
def Obligations.HardwareResetPutsEveryRowToItsResetValue : Prop :=
  ∀ (s : State) (es : List Event), s.events = .resetAssert :: es →
    ∃ t, step s = .next t
      ∧ t.ctl = .idle ∧ t.arg0 = 0 ∧ t.arg1 = 0 ∧ t.arg2 = 0 ∧ t.res0 = 0 ∧ t.res1 = 0 ∧ t.res2 = 0
      ∧ t.treeValid = false ∧ t.tableValid = false ∧ t.overrun = false ∧ t.err = .ok ∧ t.errInfo = 0
      ∧ (∀ x, t.present x = false ∧ t.freqOf x = 0) ∧ t.queue = [] ∧ (∀ i, t.node i = zeroNode)
      ∧ t.root = 0 ∧ t.nodeUsed = 0 ∧ (∀ x, t.codeOf x = none)
      ∧ (∀ i, t.symRead i = Config.symbufDraw (s.epoch + 1) i % s.cfg.alphabet)
      ∧ (∀ k, t.bitRead k = Config.bitbufDraw (s.epoch + 1) k)
      ∧ t.cfg = s.cfg ∧ t.events = es
      ∧ ∀ a rest, step { t with events := .access a :: rest } = .fault .accessInReset

/-- The state after reset meets the invariant. -/
def Obligations.ResetStateMeetsTheInvariant : Prop := State.reset.inv = true

/-- Every step from a state that meets the invariant, whatever the host does, gives a state that meets it. -/
def Obligations.EveryStepKeepsTheInvariant : Prop :=
  ∀ s t : State, s.inv = true → step s = .next t → t.inv = true

/-- 10_state.md R32: every step keeps the queue in extraction order, within its capacity and its widths. -/
def Obligations.EveryStepKeepsTheQueueInExtractionOrder : Prop :=
  ∀ s t : State, s.queueOk = true → step s = .next t → t.queueOk = true

/-- 10_state.md R37, R38: every step keeps the two buffers in canonical form, inside their depths, every symbol S bits. The tree
must be one the block can hold, since DECODE writes its symbols. -/
def Obligations.EveryStepKeepsTheBuffersCanonical : Prop :=
  ∀ s t : State, s.cfg.legal = true → s.treeOk = true → Memory.wf s = true → step s = .next t → Memory.wf t = true

/-! ### Decoding and the step -/

/-- Decode and encode agree over all 32-bit words: the encoder's word decodes to its command, and a word that decodes to a command
is that command's word and no other. -/
def Obligations.DecodeInvertsEncodeOverAllWords : Prop :=
  (∀ i : Instr, decode (encode i) = some i) ∧ ∀ (w : Word) (i : Instr), decode w = some i → w = encode i

/-- 30_encoding.md R74: the illegal words are those with RSV ≠ 0 and those with a listed opcode, and an illegal word written to CMD while
Idle is accepted, and completes with ILLEGAL_CMD and the whole word, changing nothing else beyond the prologue. -/
def Obligations.IllegalWordsCompleteWithIllegalCmd : Prop :=
  (∀ w : Word, decode w = none ↔
    (w.toNat / 256 ≠ 0
     ∨ w.toNat % 256 ∈ [0x06, 0x07] ∨ (0x0B ≤ w.toNat % 256 ∧ w.toNat % 256 ≤ 0x0F)
     ∨ (0x12 ≤ w.toNat % 256 ∧ w.toNat % 256 ≤ 0x17) ∨ (0x1A ≤ w.toNat % 256 ∧ w.toNat % 256 ≤ 0x1F)
     ∨ (0x21 ≤ w.toNat % 256 ∧ w.toNat % 256 ≤ 0x27) ∨ 0x29 ≤ w.toNat % 256))
  ∧ ∀ (s : State) (w : Word), decode w = none → s.ctl = .idle → s.resetHeld = false →
      ∃ b t, step (s.writing 0x010 w) = .next b ∧ b = issue w s
        ∧ step { b with events := .block :: b.events } = .next t
        ∧ Reports t .illegalCmd w 0 0 0 ∧ t.err.code = 9 ∧ SameTables s t

/-- Words written out from 30_encoding.md R73 decode to the commands they stand for, one of each unit and both neighbours of a gap. -/
def Obligations.SampleWordsDecodeAsTheOpcodeMapSays : Prop :=
  decode 0x00000000#32 = some .nop ∧ decode 0x00000003#32 = some .freqSet ∧ decode 0x0000000A#32 = some .pqExtractMin
  ∧ decode 0x0000000B#32 = none ∧ decode 0x00000010#32 = some .buildTree ∧ decode 0x00000019#32 = some .codeRead
  ∧ decode 0x00000020#32 = some .encode ∧ decode 0x00000028#32 = some .decode ∧ decode 0x00000128#32 = none

/-- The step runs the decoded command: with a command in flight and reset released, the block's turn, asked for by the next event or
taken because no event is left, is that command's `exec`; an Idle block's turn changes nothing. (The events and what happens when none
is left are the model's: log entries 3 and 4.) -/
def Obligations.TheBlocksTurnRunsTheDecodedCommand : Prop :=
  (∀ (s : State) (c : Issued) (i : Instr) (es : List Event), s.resetHeld = false → s.ctl = .busy c → decode c.word = some i →
    (s.events = .block :: es → step s = exec i { s with events := es })
    ∧ (s.events = [] → step s = exec i s))
  ∧ ∀ (s : State) (es : List Event), s.ctl = .idle →
    (s.events = .block :: es → step s = .next { s with events := es }) ∧ (s.events = [] → step s = .next s)

/-- 10_state.md R39, 00_scope.md R20: a CMD write while Idle captures the word and ARG0 to ARG2, sets BUSY and clears ERR, and changes
nothing else; while Busy it is dropped and sets OVERRUN; a read of CMD returns 0. -/
def Obligations.AWriteToCmdIssuesTheCommand : Prop :=
  ∀ (s : State) (w : Word), s.resetHeld = false →
    (s.ctl = .idle → ∃ t, step (s.writing 0x010 w) = .next t
      ∧ t = { s with ctl := .busy { word := w, arg0 := s.arg0, arg1 := s.arg1, arg2 := s.arg2 }, err := .ok }
      ∧ t.busy = true)
    ∧ (∀ c, s.ctl = .busy c → step (s.writing 0x010 w) = .next { s with overrun := true })
    ∧ ReadsAs s 0x010 0

/-! ### The port -/

/-- 10_state.md R28: the bits of STATUS, ERR being 0 while BUSY is 1, and what a write to it does, Idle or Busy. -/
def Obligations.StatusReadsItsFieldsAndClearsOverrun : Prop :=
  ∀ s : State, s.resetHeld = false →
    (∃ v, ReadsAs s 0x020 v
      ∧ (v.getLsbD 0 = true ↔ ∃ c, s.ctl = .busy c) ∧ v.getLsbD 1 = s.treeValid ∧ v.getLsbD 2 = s.tableValid
      ∧ v.getLsbD 3 = s.overrun ∧ (∀ j, 4 ≤ j → j ≤ 7 → v.getLsbD j = false)
      ∧ (∀ j, j < 4 → v.getLsbD (8 + j) = s.err.code.getLsbD j) ∧ (∀ j, 12 ≤ j → v.getLsbD j = false)
      ∧ (s.ctlOk = true → s.busy = true → ∀ j, j < 4 → v.getLsbD (8 + j) = false))
    ∧ ∀ v : Word, step (s.writing 0x020 v) = .next { s with overrun := s.overrun && !v.getLsbD 3 }

/-- 10_state.md R22 to R27, R29, R31, R32, R34: what each register reads as while the block is Idle. -/
def Obligations.RegistersReadAsTheMapSays : Prop :=
  ∀ s : State, s.resetHeld = false → s.ctl = .idle → s.cfg.legal = true →
    ReadsAs s 0x000 0x48554601#32
    ∧ (∃ v, ReadsAs s 0x004 v ∧ v.toNat = s.cfg.symW + 2 ^ 8 * s.cfg.freqW + 2 ^ 16 * (s.cfg.freqW + s.cfg.symW))
    ∧ (∃ v, ReadsAs s 0x008 v ∧ v.toNat = s.cfg.symDepth) ∧ (∃ v, ReadsAs s 0x00C v ∧ v.toNat = s.cfg.bitDepth)
    ∧ ReadsAs s 0x014 s.arg0 ∧ ReadsAs s 0x018 s.arg1 ∧ ReadsAs s 0x01C s.arg2
    ∧ ReadsAs s 0x024 s.errInfo ∧ ReadsAs s 0x028 s.res0 ∧ ReadsAs s 0x02C s.res1 ∧ ReadsAs s 0x030 s.res2
    ∧ (s.queueOk = true → ∃ v, ReadsAs s 0x034 v ∧ v.toNat = s.queue.length)
    ∧ (s.root < 2 ^ 16 → s.nodeUsed < 2 ^ 16 → ∃ v, ReadsAs s 0x038 v ∧ v.toNat = s.root + 2 ^ 16 * s.nodeUsed)
    ∧ (s.freqOk = true → ∃ v, ReadsAs s 0x03C v ∧ v.toNat = ((List.range s.cfg.alphabet).countP s.present))

/-- 10_state.md R26: a host write of ARG0, ARG1 or ARG2 while Idle stores all 32 bits in that register and changes nothing else. -/
def Obligations.ArgumentWritesStoreTheWord : Prop :=
  ∀ (s : State) (v : Word), s.resetHeld = false → s.ctl = .idle →
    step (s.writing 0x014 v) = .next { s with arg0 := v } ∧ step (s.writing 0x018 v) = .next { s with arg1 := v }
    ∧ step (s.writing 0x01C v) = .next { s with arg2 := v }

/-- 20_memory.md R52: a reserved offset reads 0 at any time; a write to it is ignored while Idle and dropped, with OVERRUN, while
Busy. -/
def Obligations.ReservedOffsetsReadZeroAndIgnoreWrites : Prop :=
  ∀ (s : State) (off : Nat) (v : Word), s.resetHeld = false → s.cfg.legal = true → ReservedOffset s.cfg off →
    ReadsAs s off 0
    ∧ (s.ctl = .idle → step (s.writing off v) = .next s)
    ∧ (∀ c, s.ctl = .busy c → step (s.writing off v) = .next { s with overrun := true })

/-- 20_memory.md R53: a write to a read-only register is ignored while Idle, a read of CMD returns 0, and no read changes a
register or a stored value: a read that the port supports changes only the host's word and the draw counter. -/
def Obligations.ReadOnlyWritesAreIgnoredAndReadsHaveNoSideEffect : Prop :=
  (∀ (s : State) (off : Nat) (v : Word), s.resetHeld = false → s.ctl = .idle →
    off ∈ [0x000, 0x004, 0x008, 0x00C, 0x024, 0x028, 0x02C, 0x030, 0x034, 0x038, 0x03C] →
    step (s.writing off v) = .next s)
  ∧ (∀ s : State, s.resetHeld = false → ReadsAs s 0x010 0)
  ∧ ∀ (s t : State) (bytes addr : Nat) (es : List Event),
    s.events = .access { kind := .read, bytes := bytes, addr := addr } :: es → step s = .next t →
    t = { s with events := es, rdata := t.rdata, draws := t.draws } ∧ t.rdata.isSome = true

/-- 20_memory.md R54: SYMBUF[i] while Idle: a write keeps the low S bits and changes no other entry, and a read returns the
symbol zero-extended. -/
def Obligations.SymbolWindowStoresTheLowBits : Prop :=
  ∀ (s : State) (i : Nat) (v : Word), s.resetHeld = false → s.ctl = .idle → s.cfg.legal = true → i < s.cfg.symDepth →
    ReadsAs s (0x4000 + 4 * i) (zext32 (s.symRead i))
    ∧ ∃ t, step (s.writing (0x4000 + 4 * i) v) = .next t
      ∧ t.symRead i = v.toNat % 2 ^ s.cfg.symW ∧ (∀ j, j ≠ i → t.symRead j = s.symRead j)
      ∧ t = { s with symbuf := t.symbuf }

/-- 20_memory.md R56: BITBUF word w while Idle: bit j of the word is bit 32w + j of the buffer, for a write, which changes no
other bit, and for a read. -/
def Obligations.BitWindowPacksLowBitFirst : Prop :=
  ∀ (s : State) (w : Nat) (v : Word), s.resetHeld = false → s.ctl = .idle → s.cfg.legal = true → w < s.cfg.bitDepth / 32 →
    (∃ r, ReadsAs s (0x8000 + 4 * w) r ∧ ∀ j, j < 32 → r.getLsbD j = s.bitRead (32 * w + j))
    ∧ ∃ t, step (s.writing (0x8000 + 4 * w) v) = .next t
      ∧ (∀ j, j < 32 → t.bitRead (32 * w + j) = v.getLsbD j)
      ∧ (∀ k, k < 32 * w ∨ 32 * w + 32 ≤ k → t.bitRead k = s.bitRead k)
      ∧ t = { s with bitbuf := t.bitbuf }

/-- 20_memory.md R60: host accesses while a command is in flight. Every write but one to STATUS is dropped and sets OVERRUN; a write
to STATUS acts as always; the constants, CMD, ARG0 to ARG2, STATUS and reserved offsets read their defined values; every other
offset reads a fresh free value, cut to S bits for SYMBUF (how it is drawn is the model's: log entry 7). -/
def Obligations.AccessesInFlightAreDroppedOrUnspecified : Prop :=
  ∀ (s : State) (c : Issued), s.resetHeld = false → s.cfg.legal = true → s.ctl = .busy c → s.err = .ok →
    (∀ off v, off % 4 = 0 → off < 0x10000 → off ≠ 0x020 → step (s.writing off v) = .next { s with overrun := true })
    ∧ (∀ v : Word, step (s.writing 0x020 v) = .next { s with overrun := s.overrun && !v.getLsbD 3 })
    ∧ ReadsAs s 0x000 0x48554601#32 ∧ ReadsAs s 0x004 (cfg0Word s.cfg) ∧ ReadsAs s 0x008 (zext32 s.cfg.symDepth)
    ∧ ReadsAs s 0x00C (zext32 s.cfg.bitDepth) ∧ ReadsAs s 0x010 0
    ∧ ReadsAs s 0x014 s.arg0 ∧ ReadsAs s 0x018 s.arg1 ∧ ReadsAs s 0x01C s.arg2
    ∧ (∃ v, ReadsAs s 0x020 v ∧ v.getLsbD 0 = true ∧ ∀ j, 8 ≤ j → j ≤ 11 → v.getLsbD j = false)
    ∧ (∀ off, ReservedOffset s.cfg off → ReadsAs s off 0)
    ∧ (∀ off, off ∈ [0x024, 0x028, 0x02C, 0x030, 0x034, 0x038, 0x03C]
          ∨ (∃ w, w < s.cfg.bitDepth / 32 ∧ off = 0x8000 + 4 * w) →
        step (s.reading off) = .next { s with rdata := some (Config.busyReadDraw s.draws), draws := s.draws + 1 })
    ∧ ∀ i, i < s.cfg.symDepth →
        ∃ v : Word, step (s.reading (0x4000 + 4 * i)) = .next { s with rdata := some v, draws := s.draws + 1 }
          ∧ v.toNat = (Config.busyReadDraw s.draws).toNat % 2 ^ s.cfg.symW

/-- 20_memory.md R48, R49, R50: outside reset, an access inside the aperture is supported exactly when it moves 4 bytes at an aligned
offset; any other faults. The model's choice (log entry 13, DEDUCED): the fault's name where an access breaks both rules, the width being
checked before the alignment; and that one outside the aperture, which this statement leaves aside, faults too. -/
def Obligations.OnlyAlignedWordAccessesAreSupported : Prop :=
  ∀ (s : State) (a : Access) (es : List Event), s.resetHeld = false → s.events = .access a :: es →
    s.cfg.baseAddr ≤ a.addr → a.addr < s.cfg.baseAddr + 0x10000 →
    ((a.bytes = 4 ∧ (a.addr - s.cfg.baseAddr) % 4 = 0) ↔ ∃ t, step s = .next t)
    ∧ (a.bytes ≠ 4 → step s = .fault .unsupportedWidth)
    ∧ (a.bytes = 4 → (a.addr - s.cfg.baseAddr) % 4 ≠ 0 → step s = .fault .misaligned)

/-- A host access reaches the tables only through commands: it changes no result register, no table, no queue and no tree, and
of STATUS only OVERRUN and, at issue, BUSY and ERR (10_state.md R27, R29, R30, R32, R33, R35). -/
def Obligations.HostAccessesReachTheTablesOnlyThroughCommands : Prop :=
  ∀ (s t : State) (a : Access) (es : List Event), s.events = .access a :: es → step s = .next t →
    SameFreq s t ∧ SameQueue s t ∧ SameTree s t ∧ SameTable s t
    ∧ t.res0 = s.res0 ∧ t.res1 = s.res1 ∧ t.res2 = s.res2 ∧ t.errInfo = s.errInfo ∧ t.cfg = s.cfg
    ∧ (t.err = s.err ∨ (t.err = .ok ∧ s.ctl = .idle ∧ t.busy = true))

/-! ### Rules of the whole machine -/

/-- Every command completes: from any state, Idle afterwards, with one of the error codes 60_exceptions.md R103 lets it raise, and
ERR_INFO 0 with every code that R103 gives no locator. -/
def Obligations.EveryCommandCompletesWithOneOfItsCodes : Prop :=
  ∀ (i : Instr) (s : State), ∃ t, exec i s = .next t ∧ t.ctl = .idle
    ∧ t.err ∈ (match i with
        | .nop | .clear | .freqClear | .pqClear => [ErrCode.ok]
        | .freqSet | .freqUnset | .freqGet | .nodeRead | .codeRead => [.ok, .badArg]
        | .pqInsert => [.ok, .queueFull, .badArg]
        | .pqExtractMin => [.ok, .emptyQueue]
        | .buildTree => [.ok, .emptyAlphabet]
        | .buildCodeTable => [.ok, .noTree]
        | .encode => [.ok, .unknownSymbol, .bufferOverflow, .badArg]
        | .decode => [.ok, .truncatedStream, .bufferOverflow, .noTree, .badArg])
    ∧ (t.err ∈ [ErrCode.ok, .emptyAlphabet, .emptyQueue, .queueFull, .noTree] → t.errInfo = 0)

/-- 60_exceptions.md R105: an error leaves every table and buffer unchanged, but for the three with partial effects, where RES0 bounds
what was written; every error leaves the block Idle. -/
def Obligations.ErrorsAreDetectedBeforeAnyOtherChange : Prop :=
  ∀ (i : Instr) (s t : State), s.cfg.legal = true → exec i s = .next t → t.err ≠ .ok →
    t.ctl = .idle ∧ SamePort s t ∧ SameFreq s t ∧ SameQueue s t ∧ SameTree s t ∧ SameTable s t
    ∧ (¬ (i = .encode ∧ t.err ∈ [ErrCode.unknownSymbol, .bufferOverflow]) → SameBitbuf s t)
    ∧ (¬ (i = .decode ∧ t.err ∈ [ErrCode.bufferOverflow, .truncatedStream]) → SameSymbuf s t)
    ∧ (∀ k, t.res0.toNat ≤ k → t.bitRead k = s.bitRead k)
    ∧ (∀ k, t.res0.toNat ≤ k → t.symRead k = s.symRead k)

/-- Each table, the queue and each buffer is written only by the commands the spec names for it: the mapping by 10_state.md R30, the
arena by R33, the code table by R35, the queue by 40_priority_queue.md R84 (the commands that change PQ_COUNT), BITBUF by
43_encoder.md R95 and SYMBUF by 44_decoder.md R97. No command writes ARG0 to ARG2 (R26) or OVERRUN (R41). -/
def Obligations.EachTableIsWrittenOnlyByItsOwnCommands : Prop :=
  ∀ (i : Instr) (s t : State), exec i s = .next t →
    SamePort s t
    ∧ (i ∉ [Instr.freqClear, .freqSet, .freqUnset, .clear] → SameFreq s t)
    ∧ (i ∉ [Instr.pqClear, .pqInsert, .pqExtractMin, .buildTree, .clear] → SameQueue s t)
    ∧ (i ∉ [Instr.buildTree, .clear] → SameTree s t)
    ∧ (i ∉ [Instr.buildCodeTable, .buildTree, .clear] → SameTable s t)
    ∧ (i ≠ .decode → SameSymbuf s t)
    ∧ (i ≠ .encode → SameBitbuf s t)

/-- 10_state.md R41: OVERRUN is set only by a write dropped while Busy, and cleared only by a STATUS write with bit 3 set or by
reset. -/
def Obligations.OverrunChangesOnlyByDroppedWritesStatusAndReset : Prop :=
  ∀ s t : State, step s = .next t → t.overrun ≠ s.overrun →
    ∃ e es, s.events = e :: es ∧
      ((t.overrun = true ∧ ∃ (v : Word) (addr : Nat), e = .access { kind := .write v, bytes := 4, addr := addr }
          ∧ addr ≠ s.cfg.baseAddr + 0x020 ∧ s.busy = true)
       ∨ (t.overrun = false ∧ (e = .resetAssert
          ∨ ∃ v : Word, e = .access { kind := .write v, bytes := 4, addr := s.cfg.baseAddr + 0x020 }
              ∧ v.getLsbD 3 = true)))

/-- 20_memory.md R62: a command sees no host write made after the CMD write that issued it. Whatever supported accesses the host makes while
the command is in flight, its completion leaves the same state but for OVERRUN, the host's last word and the draw
counter. -/
def Obligations.ACommandSeesNoHostAccessMadeInFlight : Prop :=
  ∀ (accesses : List Access) (es : List Event) (s t u : State) (c : Issued), s.ctl = .busy c →
    s.events = accesses.map Event.access ++ Event.block :: es →
    Host.Core.run Sys2Proof.core (accesses.length + 1) s = .next t →
    step { s with events := .block :: es } = .next u →
    t = { u with overrun := t.overrun, rdata := t.rdata, draws := t.draws }

/-! ### Control commands -/

/-- 45_control.md R99: NOP reports success, zeroes ERR_INFO and RES0 to RES2, and changes nothing else. -/
def Obligations.NopOnlyClearsTheReport : Prop :=
  decode 0x00000000#32 = some .nop ∧ ∀ s : State, ∃ t, exec .nop s = .next t ∧ Reports t .ok 0 0 0 0 ∧ SameTables s t

/-- 45_control.md R100: CLEAR gives every row of 10_state.md R45 its reset value but ARG0 to ARG2, SYMBUF, BITBUF and OVERRUN,
which it leaves, and after it BUILD_TREE fails with EMPTY_ALPHABET and BUILD_CODE_TABLE and DECODE with NO_TREE. -/
def Obligations.ClearEmptiesTheUnitsAndKeepsTheBuffers : Prop :=
  decode 0x00000001#32 = some .clear ∧ ∀ s : State, ∃ t, exec .clear s = .next t ∧ Reports t .ok 0 0 0 0
    ∧ (∀ x, t.present x = false ∧ t.freqOf x = 0) ∧ t.freqCount = 0 ∧ t.queue = [] ∧ (∀ i, t.node i = zeroNode)
    ∧ t.root = 0 ∧ t.nodeUsed = 0 ∧ t.treeValid = false ∧ (∀ x, t.codeOf x = none) ∧ t.tableValid = false
    ∧ SamePort s t ∧ SameSymbuf s t ∧ SameBitbuf s t
    ∧ FailsCleanly .buildTree t .emptyAlphabet 0 ∧ FailsCleanly .buildCodeTable t .noTree 0
    ∧ (t.op0.toNat ≤ t.cfg.bitDepth → FailsCleanly .decode t .noTree 0)

/-! ### Frequency-table commands -/

/-- 41_tree_builder.md R85: FREQ_CLEAR empties the mapping and changes nothing else. -/
def Obligations.FreqClearEmptiesTheMapping : Prop :=
  decode 0x00000002#32 = some .freqClear ∧ ∀ s : State, ∃ t, exec .freqClear s = .next t ∧ Reports t .ok 0 0 0 0
    ∧ (∀ x, t.present x = false ∧ t.freqOf x = 0) ∧ t.freqCount = 0
    ∧ SamePort s t ∧ SameQueue s t ∧ SameTree s t ∧ SameTable s t ∧ SameSymbuf s t ∧ SameBitbuf s t

/-- 41_tree_builder.md R86: FREQ_SET, its two operand checks, and the one entry it writes. -/
def Obligations.FreqSetWritesOneEntry : Prop :=
  decode 0x00000003#32 = some .freqSet ∧ ∀ s : State,
    (2 ^ s.cfg.symW ≤ s.op0.toNat → FailsCleanly .freqSet s .badArg 0)
    ∧ (s.op0.toNat < 2 ^ s.cfg.symW → 2 ^ s.cfg.freqW ≤ s.op1.toNat → FailsCleanly .freqSet s .badArg 1)
    ∧ (s.op0.toNat < 2 ^ s.cfg.symW → s.op1.toNat < 2 ^ s.cfg.freqW →
        ∃ t, exec .freqSet s = .next t ∧ Reports t .ok 0 0 0 0
          ∧ t.present s.op0.toNat = true ∧ t.freqOf s.op0.toNat = s.op1.toNat
          ∧ (∀ x, x ≠ s.op0.toNat → t.present x = s.present x ∧ t.freqOf x = s.freqOf x)
          ∧ (s.freqOk = true → t.freqCount = s.freqCount + (if s.present s.op0.toNat then 0 else 1))
          ∧ SamePort s t ∧ SameQueue s t ∧ SameTree s t ∧ SameTable s t ∧ SameSymbuf s t ∧ SameBitbuf s t)

/-- 41_tree_builder.md R87: FREQ_UNSET, its operand check, and the one entry it removes. -/
def Obligations.FreqUnsetRemovesOneEntry : Prop :=
  decode 0x00000004#32 = some .freqUnset ∧ ∀ s : State,
    (2 ^ s.cfg.symW ≤ s.op0.toNat → FailsCleanly .freqUnset s .badArg 0)
    ∧ (s.op0.toNat < 2 ^ s.cfg.symW →
        ∃ t, exec .freqUnset s = .next t ∧ Reports t .ok 0 0 0 0
          ∧ t.present s.op0.toNat = false ∧ t.freqOf s.op0.toNat = 0
          ∧ (∀ x, x ≠ s.op0.toNat → t.present x = s.present x ∧ t.freqOf x = s.freqOf x)
          ∧ SamePort s t ∧ SameQueue s t ∧ SameTree s t ∧ SameTable s t ∧ SameSymbuf s t ∧ SameBitbuf s t)

/-- 41_tree_builder.md R88: FREQ_GET reads one entry and changes only the report. -/
def Obligations.FreqGetReadsOneEntry : Prop :=
  decode 0x00000005#32 = some .freqGet ∧ ∀ s : State,
    (2 ^ s.cfg.symW ≤ s.op0.toNat → FailsCleanly .freqGet s .badArg 0)
    ∧ (s.op0.toNat < 2 ^ s.cfg.symW →
        ∃ t, exec .freqGet s = .next t
          ∧ Reports t .ok 0 (zext32 (s.freqOf s.op0.toNat)) (if s.present s.op0.toNat then 1 else 0) 0
          ∧ (s.cfg.legal = true → s.freqOk = true → t.res0.toNat = s.freqOf s.op0.toNat)
          ∧ SameTables s t)

/-- 41_tree_builder.md R90: the order of two FREQ_SET commands for different symbols does not matter to the tree BUILD_TREE then
builds: the same arena, ROOT, NODE_USED and results. -/
def Obligations.TheOrderOfFreqSetsDoesNotChangeTheTree : Prop :=
  ∀ (s : State) (x y f g : Word), s.freqOk = true → x ≠ y →
    let set (a b : Word) (u : State) : State := nextOr u (exec .freqSet { u with ctl := .idle, arg0 := a, arg1 := b })
    let t := nextOr s (exec .buildTree (set y g (set x f s)))
    let u := nextOr s (exec .buildTree (set x f (set y g s)))
    t.nodes = u.nodes ∧ t.root = u.root ∧ t.nodeUsed = u.nodeUsed ∧ t.treeValid = u.treeValid
    ∧ t.res0 = u.res0 ∧ t.res1 = u.res1 ∧ t.res2 = u.res2 ∧ t.err = u.err

/-! ### Queue commands -/

/-- 40_priority_queue.md R81: PQ_CLEAR empties the queue and changes nothing else. -/
def Obligations.PqClearEmptiesTheQueue : Prop :=
  decode 0x00000008#32 = some .pqClear ∧ ∀ s : State, ∃ t, exec .pqClear s = .next t ∧ Reports t .ok 0 0 0 0 ∧ t.queue = []
    ∧ SamePort s t ∧ SameFreq s t ∧ SameTree s t ∧ SameTable s t ∧ SameSymbuf s t ∧ SameBitbuf s t

/-- 40_priority_queue.md R82: PQ_INSERT, its checks in order, and where the new entry goes: after every entry of weight at most its
own and before the others. -/
def Obligations.PqInsertPlacesTheEntryInOrder : Prop :=
  decode 0x00000009#32 = some .pqInsert ∧ ∀ s : State, s.cfg.legal = true → s.queueOk = true →
    let w := s.op0.toNat + 2 ^ 32 * s.op1.toNat
    (2 ^ s.cfg.weightW ≤ w → FailsCleanly .pqInsert s .badArg 1)
    ∧ (w < 2 ^ s.cfg.weightW → 2 ^ 16 ≤ s.op2.toNat → FailsCleanly .pqInsert s .badArg 2)
    ∧ (w < 2 ^ s.cfg.weightW → s.op2.toNat < 2 ^ 16 → s.queue.length = 2 ^ s.cfg.symW →
        FailsCleanly .pqInsert s .queueFull 0)
    ∧ (w < 2 ^ s.cfg.weightW → s.op2.toNat < 2 ^ 16 → s.queue.length < 2 ^ s.cfg.symW →
        ∃ t before after, exec .pqInsert s = .next t ∧ Reports t .ok 0 0 0 0
          ∧ s.queue = before ++ after ∧ t.queue = before ++ { weight := w, payload := s.op2.toNat } :: after
          ∧ (∀ e ∈ before, e.weight ≤ w) ∧ (∀ e ∈ after, w < e.weight)
          ∧ SamePort s t ∧ SameFreq s t ∧ SameTree s t ∧ SameTable s t ∧ SameSymbuf s t ∧ SameBitbuf s t)

/-- 40_priority_queue.md R83: PQ_EXTRACT_MIN returns the first entry in full and removes it, an entry of least weight; on an empty queue it
fails. -/
def Obligations.PqExtractMinReturnsTheFirstEntry : Prop :=
  decode 0x0000000A#32 = some .pqExtractMin ∧ ∀ s : State, s.cfg.legal = true → s.queueOk = true →
    (s.queue = [] → FailsCleanly .pqExtractMin s .emptyQueue 0)
    ∧ (∀ e rest, s.queue = e :: rest →
        ∃ t, exec .pqExtractMin s = .next t ∧ t.ctl = .idle ∧ t.err = .ok ∧ t.errInfo = 0
          ∧ t.res0.toNat + 2 ^ 32 * t.res1.toNat = e.weight ∧ t.res2.toNat = e.payload
          ∧ t.queue = rest ∧ (∀ e' ∈ s.queue, e.weight ≤ e'.weight)
          ∧ SamePort s t ∧ SameFreq s t ∧ SameTree s t ∧ SameTable s t ∧ SameSymbuf s t ∧ SameBitbuf s t)

/-- `s` after the host issues PQ_INSERT for each listed entry in turn and each completes. -/
def Sys2Proof.Machine.afterInserts (s : State) (xs : List QEntry) : State :=
  xs.foldl (fun u e => nextOr u (exec .pqInsert
    { u with ctl := .idle, arg0 := BitVec.ofNat 32 e.weight, arg1 := BitVec.ofNat 32 (e.weight / 2 ^ 32),
             arg2 := BitVec.ofNat 32 e.payload })) s

/-- What the host reads in RES0 to RES2 after each of `n` PQ_EXTRACT_MIN commands. -/
def Sys2Proof.Machine.extracted : Nat → State → List QEntry
  | 0, _ => []
  | n + 1, s =>
    let t := nextOr s (exec .pqExtractMin s)
    { weight := t.res0.toNat + 2 ^ 32 * t.res1.toNat, payload := t.res2.toNat } :: extracted n t

/-- 40_priority_queue.md R84: k PQ_INSERT commands into an empty queue, then k PQ_EXTRACT_MIN commands, return the inserted pairs sorted by
weight, with equal weights in insertion order. -/
def Obligations.InsertsThenExtractsAreAStableSort : Prop :=
  ∀ (s : State) (xs : List QEntry), s.cfg.legal = true → s.queue = [] → xs.length ≤ 2 ^ s.cfg.symW →
    (∀ e ∈ xs, e.weight < 2 ^ s.cfg.weightW ∧ e.payload < 2 ^ 16) →
    let out := extracted xs.length (afterInserts s xs)
    out.Perm xs ∧ out.Pairwise (fun a b => a.weight ≤ b.weight)
    ∧ ∀ w, (out.filter fun e => e.weight == w) = xs.filter fun e => e.weight == w

/-! ### The tree builder -/

/-- 41_tree_builder.md R89, R90: BUILD_TREE. With no symbol present it fails and changes nothing. Otherwise it builds a strict binary
tree of 2n - 1 nodes: the leaves first, in increasing symbol order, then the merged nodes, each over two earlier nodes whose weights it
adds, every node but the root being a child of exactly one; the root weighs the sum of all frequencies and no weight
wraps; the old tree, code table and queue are gone; the mapping and the buffers stay. -/
def Obligations.BuildTreeBuildsAStrictBinaryTree : Prop :=
  ∀ s : State, s.cfg.legal = true → s.freqOk = true →
    (s.freqCount = 0 → FailsCleanly .buildTree s .emptyAlphabet 0)
    ∧ (1 ≤ s.freqCount →
        let n := s.freqCount
        ∃ t, exec .buildTree s = .next t ∧ t.ctl = .idle ∧ t.err = .ok ∧ t.errInfo = 0
          ∧ t.res0.toNat = 2 * n - 2 ∧ t.res1.toNat = 2 * n - 1 ∧ t.res2.toNat = n
          ∧ t.root = 2 * n - 2 ∧ t.nodeUsed = 2 * n - 1 ∧ t.treeValid = true
          ∧ t.tableValid = false ∧ (∀ x, t.codeOf x = none) ∧ t.queue = []
          ∧ (∀ i, i < n → (t.node i).isLeaf = true ∧ s.freq[i]? = some ((t.node i).sym, (t.node i).weight)
              ∧ (t.node i).left = 0 ∧ (t.node i).right = 0)
          ∧ (∀ k, n ≤ k → k < 2 * n - 1 → (t.node k).isLeaf = false ∧ (t.node k).sym = 0
              ∧ (t.node k).left < k ∧ (t.node k).right < k ∧ (t.node k).left ≠ (t.node k).right
              ∧ (t.node k).weight = (t.node (t.node k).left).weight + (t.node (t.node k).right).weight)
          ∧ (∀ j, j < 2 * n - 2 → ∃ k, (n ≤ k ∧ k < 2 * n - 1 ∧ ((t.node k).left = j ∨ (t.node k).right = j))
              ∧ ∀ k', n ≤ k' → k' < 2 * n - 1 → ((t.node k').left = j ∨ (t.node k').right = j) → k' = k)
          ∧ (∀ k, 2 * n - 1 ≤ k → t.node k = zeroNode)
          ∧ (t.node t.root).weight = (s.freq.map fun e => e.2).sum
          ∧ (∀ k, (t.node k).weight < 2 ^ s.cfg.weightW)
          ∧ SamePort s t ∧ SameFreq s t ∧ SameSymbuf s t ∧ SameBitbuf s t)

/-- `j` is a node that is in the queue when node `k` is made: made before it, and a child of no node made before it. -/
def Sys2Proof.Machine.waitsAt (t : State) (n k j : Nat) : Prop :=
  j < k ∧ ∀ m, n ≤ m → m < k → (t.node m).left ≠ j ∧ (t.node m).right ≠ j

/-- Node `i` leaves the queue before node `j`: it weighs less, or the same and was inserted earlier (40_priority_queue.md R80). -/
def Sys2Proof.Machine.leavesBefore (t : State) (i j : Nat) : Prop :=
  (t.node i).weight < (t.node j).weight ∨ ((t.node i).weight = (t.node j).weight ∧ i < j)

/-- 41_tree_builder.md R89 with 40_priority_queue.md R80: every merge takes the two nodes that leave the queue first, the first of
them as the left child. With the leaves' order this fixes the whole tree. -/
def Obligations.EveryMergeTakesTheTwoNodesThatLeaveFirst : Prop :=
  ∀ s t : State, s.freqOk = true → 1 ≤ s.freqCount → exec .buildTree s = .next t →
    ∀ k, s.freqCount ≤ k → k < 2 * s.freqCount - 1 →
      waitsAt t s.freqCount k (t.node k).left ∧ waitsAt t s.freqCount k (t.node k).right
      ∧ (t.node k).left ≠ (t.node k).right
      ∧ (∀ j, waitsAt t s.freqCount k j → j ≠ (t.node k).left → leavesBefore t (t.node k).left j)
      ∧ (∀ j, waitsAt t s.freqCount k j → j ≠ (t.node k).left → j ≠ (t.node k).right →
          leavesBefore t (t.node k).right j)

/-- 41_tree_builder.md R91: NODE_READ shows one slot of the arena and changes only the report. -/
def Obligations.NodeReadShowsOneSlot : Prop :=
  decode 0x00000011#32 = some .nodeRead ∧ ∀ s : State, s.inv = true →
    (2 * 2 ^ s.cfg.symW - 1 ≤ s.op0.toNat → FailsCleanly .nodeRead s .badArg 0)
    ∧ (s.op0.toNat < 2 * 2 ^ s.cfg.symW - 1 →
        ∃ t, exec .nodeRead s = .next t ∧ t.ctl = .idle ∧ t.err = .ok ∧ t.errInfo = 0
          ∧ t.res0.toNat + 2 ^ 32 * (t.res1.toNat % 2 ^ 16) = (s.node s.op0.toNat).weight
          ∧ t.res1.getLsbD 31 = (s.node s.op0.toNat).isLeaf
          ∧ (t.res1.getLsbD 30 = true ↔ s.treeValid = true ∧ s.op0.toNat < s.nodeUsed)
          ∧ (∀ j, 16 ≤ j → j < 30 → t.res1.getLsbD j = false)
          ∧ ((s.node s.op0.toNat).isLeaf = true → t.res2.toNat = (s.node s.op0.toNat).sym)
          ∧ ((s.node s.op0.toNat).isLeaf = false →
              t.res2.toNat = (s.node s.op0.toNat).left + 2 ^ 16 * (s.node s.op0.toNat).right)
          ∧ (s.nodeUsed ≤ s.op0.toNat → t.res0 = 0 ∧ t.res1 = 0 ∧ t.res2 = 0)
          ∧ SameTables s t)

/-! ### The code table -/

/-- 42_code_table.md R92: BUILD_CODE_TABLE. Without a tree it fails. Otherwise it gives each leaf's symbol, and no other, a codeword: "0" in
a one-leaf tree, the path from the root to that leaf in any other. -/
def Obligations.BuildCodeTableGivesEachLeafItsPath : Prop :=
  decode 0x00000018#32 = some .buildCodeTable ∧ ∀ s : State, s.inv = true →
    (s.treeValid = false → FailsCleanly .buildCodeTable s .noTree 0)
    ∧ (s.treeValid = true →
        ∃ t, exec .buildCodeTable s = .next t ∧ t.ctl = .idle ∧ t.err = .ok ∧ t.errInfo = 0
          ∧ t.res0.toNat = s.leafCount ∧ t.res1 = 0 ∧ t.res2 = 0 ∧ t.tableValid = true
          ∧ (∀ x, (t.codeOf x).isSome = true ↔ ∃ i, i < s.leafCount ∧ (s.node i).sym = x)
          ∧ (s.leafCount = 1 → t.codeOf (s.node 0).sym = some { len := 1, bits := 0 })
          ∧ (2 ≤ s.leafCount → ∀ i, i < s.leafCount →
              ∃ e, t.codeOf (s.node i).sym = some e ∧ 1 ≤ e.len ∧ e.bits < 2 ^ e.len
                ∧ s.nodeAt e.bits e.len = i ∧ ∀ d, d < e.len → (s.node (s.nodeAt e.bits d)).isLeaf = false)
          ∧ SamePort s t ∧ SameFreq s t ∧ SameQueue s t ∧ SameTree s t ∧ SameSymbuf s t ∧ SameBitbuf s t)

/-- 42_code_table.md R93: the codewords are non-empty, prefix-free and at most n - 1 bits long, fit their entries, and fill the code space
exactly: the sum of 2^(-len) is 1, and 1/2 for a one-leaf tree. -/
def Obligations.TheCodeIsPrefixFreeAndComplete : Prop :=
  ∀ s : State, s.inv = true → s.tableValid = true →
    (∀ x y e f, s.codeOf x = some e → s.codeOf y = some f → x ≠ y → ¬ e.startsOf f)
    ∧ (∀ x e, s.codeOf x = some e → 1 ≤ e.len ∧ e.len ≤ s.cfg.codeMax ∧ (2 ≤ s.leafCount → e.len ≤ s.leafCount - 1))
    ∧ (2 ≤ s.leafCount → (s.code.map fun e => 2 ^ (s.cfg.codeMax - e.2.len)).sum = 2 ^ s.cfg.codeMax)
    ∧ (s.leafCount = 1 → 2 * (s.code.map fun e => 2 ^ (s.cfg.codeMax - e.2.len)).sum = 2 ^ s.cfg.codeMax)

/-- 42_code_table.md R93, the source's weighted-length property: of two symbols, the one of strictly lower frequency never gets the strictly
shorter codeword. -/
def Obligations.RarerSymbolsNeverGetShorterCodewords : Prop :=
  ∀ s t u : State, s.cfg.legal = true → s.freqOk = true → 1 ≤ s.freqCount →
    exec .buildTree s = .next t → exec .buildCodeTable t = .next u →
    ∀ x y e f, u.codeOf x = some e → u.codeOf y = some f → s.freqOf x < s.freqOf y → f.len ≤ e.len

/-- 42_code_table.md R94: CODE_READ shows one word of one codeword and changes only the report. -/
def Obligations.CodeReadShowsOneWordOfACodeword : Prop :=
  decode 0x00000019#32 = some .codeRead ∧ ∀ s : State,
    (2 ^ s.cfg.symW ≤ s.op0.toNat → FailsCleanly .codeRead s .badArg 0)
    ∧ (s.op0.toNat < 2 ^ s.cfg.symW → s.cfg.codeWords ≤ s.op1.toNat → FailsCleanly .codeRead s .badArg 1)
    ∧ (s.op0.toNat < 2 ^ s.cfg.symW → s.op1.toNat < s.cfg.codeWords →
        ∃ t, exec .codeRead s = .next t ∧ t.ctl = .idle ∧ t.err = .ok ∧ t.errInfo = 0 ∧ t.res2 = 0
          ∧ (s.codeOf s.op0.toNat = none → t.res0 = 0 ∧ t.res1 = 0)
          ∧ (∀ e, s.codeOf s.op0.toNat = some e →
              (∀ j, j < 32 → t.res0.getLsbD j = e.bits.testBit (32 * s.op1.toNat + j))
              ∧ t.res1.getLsbD 31 = true ∧ (∀ j, 16 ≤ j → j < 31 → t.res1.getLsbD j = false)
              ∧ ∀ j, j < 16 → t.res1.getLsbD j = e.len.testBit j)
          ∧ SameTables s t)

/-- 70_reset_and_hazards.md R123: a BUILD_TREE that succeeds leaves no code table, so an ENCODE of one or more symbols then fails at the
first until BUILD_CODE_TABLE has run, whatever the mapping says. -/
def Obligations.ARebuiltTreeHasNoCodeTable : Prop :=
  ∀ s : State, 1 ≤ s.freqCount →
    ∃ t, exec .buildTree s = .next t ∧ t.err = .ok ∧ t.tableValid = false
      ∧ ∀ m : Word, 1 ≤ m.toNat → m.toNat ≤ t.cfg.symDepth →
          FailsCleanly .encode { t with arg0 := m } .unknownSymbol 0

/-! ### Encode and decode -/

/-- 43_encoder.md R95: ENCODE. It writes the codewords of SYMBUF[0 .. m-1] one after another from bit 0 and nothing else; it stops before
the first symbol without a codeword, or whose codeword would pass bit B, and reports that symbol and the bits written. -/
def Obligations.EncodeConcatenatesTheCodewords : Prop :=
  decode 0x00000020#32 = some .encode ∧ ∀ s : State, s.cfg.legal = true →
    (s.cfg.symDepth < s.op0.toNat → FailsCleanly .encode s .badArg 0)
    ∧ (s.op0.toNat ≤ s.cfg.symDepth → (∀ i, i < s.op0.toNat → (s.codeOf (s.symRead i)).isSome = true) →
        s.codeStart s.op0.toNat ≤ s.cfg.bitDepth →
        ∃ t, exec .encode s = .next t ∧ t.ctl = .idle ∧ t.err = .ok ∧ t.errInfo = 0
          ∧ t.res0.toNat = s.codeStart s.op0.toNat ∧ t.res1 = 0 ∧ t.res2 = 0 ∧ EncodedUpTo s t s.op0.toNat
          ∧ SamePort s t ∧ SameFreq s t ∧ SameQueue s t ∧ SameTree s t ∧ SameTable s t ∧ SameSymbuf s t)
    ∧ (∀ i, s.op0.toNat ≤ s.cfg.symDepth → i < s.op0.toNat →
        (∀ j, j < i → (s.codeOf (s.symRead j)).isSome = true) → s.codeStart i ≤ s.cfg.bitDepth →
        (s.codeOf (s.symRead i) = none →
          ∃ t, exec .encode s = .next t ∧ Reports t .unknownSymbol (zext32 i) (zext32 (s.codeStart i)) 0 0
            ∧ EncodedUpTo s t i
            ∧ SamePort s t ∧ SameFreq s t ∧ SameQueue s t ∧ SameTree s t ∧ SameTable s t ∧ SameSymbuf s t)
        ∧ (∀ e, s.codeOf (s.symRead i) = some e → s.cfg.bitDepth < s.codeStart i + e.len →
          ∃ t, exec .encode s = .next t ∧ Reports t .bufferOverflow (zext32 i) (zext32 (s.codeStart i)) 0 0
            ∧ EncodedUpTo s t i
            ∧ SamePort s t ∧ SameFreq s t ∧ SameQueue s t ∧ SameTree s t ∧ SameTable s t ∧ SameSymbuf s t))

/-- 43_encoder.md R96: two ENCODE commands of one length over equal symbols and equal code tables write equal bits and report alike,
whatever else the two states hold. -/
def Obligations.EncodeDependsOnlyOnItsSymbolsAndTable : Prop :=
  ∀ s s' t t' : State, s.cfg = s'.cfg → s.cfg.legal = true → s.op0 = s'.op0 → s.code = s'.code →
    (∀ i, i < s.op0.toNat → s.symRead i = s'.symRead i) →
    exec .encode s = .next t → exec .encode s' = .next t' →
    t.err = t'.err ∧ t.errInfo = t'.errInfo ∧ t.res0 = t'.res0 ∧ ∀ k, k < t.res0.toNat → t.bitRead k = t'.bitRead k

/-- 44_decoder.md R97, 60_exceptions.md R106: DECODE with a bit length over B fails with BAD_ARG, tree or no tree, and with no tree
with NO_TREE; neither writes anything. -/
def Obligations.DecodeChecksItsLengthThenTheTree : Prop :=
  ∀ s : State,
    (s.cfg.bitDepth < s.op0.toNat → FailsCleanly .decode s .badArg 0)
    ∧ (s.op0.toNat ≤ s.cfg.bitDepth → s.treeValid = false → FailsCleanly .decode s .noTree 0)

/-- 44_decoder.md R97: with a one-leaf tree each bit, 0 or 1, emits the sole symbol, until SYMBUF is full. -/
def Obligations.DecodeOfAOneLeafTreeEmitsOneSymbolPerBit : Prop :=
  ∀ s : State, s.cfg.legal = true → s.treeValid = true → (s.node s.root).isLeaf = true → s.op0.toNat ≤ s.cfg.bitDepth →
    (s.op0.toNat ≤ s.cfg.symDepth →
      ∃ t, exec .decode s = .next t ∧ Reports t .ok 0 s.op0 0 0
        ∧ (∀ i, i < s.op0.toNat → t.symRead i = (s.node s.root).sym)
        ∧ (∀ i, s.op0.toNat ≤ i → t.symRead i = s.symRead i)
        ∧ SamePort s t ∧ SameFreq s t ∧ SameQueue s t ∧ SameTree s t ∧ SameTable s t ∧ SameBitbuf s t)
    ∧ (s.cfg.symDepth < s.op0.toNat →
      ∃ t, exec .decode s = .next t ∧ Reports t .bufferOverflow (zext32 s.cfg.symDepth) (zext32 s.cfg.symDepth) 0 0
        ∧ (∀ i, i < s.cfg.symDepth → t.symRead i = (s.node s.root).sym)
        ∧ (∀ i, s.cfg.symDepth ≤ i → t.symRead i = s.symRead i)
        ∧ SamePort s t ∧ SameFreq s t ∧ SameQueue s t ∧ SameTree s t ∧ SameTable s t ∧ SameBitbuf s t)

/-- 44_decoder.md R97, R98: with a tree of two leaves or more, DECODE reads each codeword as its symbol. A stream that ends with a codeword
succeeds; one that ends inside a codeword is truncated, reported at that codeword's first bit; one with more than L codewords stops at
the bit that completes the codeword that does not fit. -/
def Obligations.DecodeReadsEachCodewordAsItsSymbol : Prop :=
  ∀ (s : State) (xs : List (Nat × Codeword)), s.inv = true → s.treeValid = true → 2 ≤ s.leafCount →
    s.holdsStream 0 xs → s.op0.toNat ≤ s.cfg.bitDepth →
    (xs.length ≤ s.cfg.symDepth → s.op0.toNat = streamLen xs →
      ∃ t, exec .decode s = .next t ∧ Reports t .ok 0 (zext32 xs.length) 0 0
        ∧ (∀ i, i < xs.length → (xs.map Prod.fst)[i]? = some (t.symRead i))
        ∧ (∀ i, xs.length ≤ i → t.symRead i = s.symRead i)
        ∧ SamePort s t ∧ SameFreq s t ∧ SameQueue s t ∧ SameTree s t ∧ SameTable s t ∧ SameBitbuf s t)
    ∧ (∀ path r, xs.length ≤ s.cfg.symDepth → 1 ≤ r → s.op0.toNat = streamLen xs + r →
      (∀ j, j < r → s.bitRead (streamLen xs + j) = path.testBit j) →
      (∀ d, d ≤ r → (s.node (s.nodeAt path d)).isLeaf = false) →
      ∃ t, exec .decode s = .next t ∧ Reports t .truncatedStream (zext32 (streamLen xs)) (zext32 xs.length) 0 0
        ∧ (∀ i, i < xs.length → (xs.map Prod.fst)[i]? = some (t.symRead i))
        ∧ (∀ i, xs.length ≤ i → t.symRead i = s.symRead i)
        ∧ SamePort s t ∧ SameFreq s t ∧ SameQueue s t ∧ SameTree s t ∧ SameTable s t ∧ SameBitbuf s t)
    ∧ (xs.length = s.cfg.symDepth + 1 → streamLen xs ≤ s.op0.toNat →
      ∃ t, exec .decode s = .next t
        ∧ Reports t .bufferOverflow (zext32 (streamLen xs - 1)) (zext32 s.cfg.symDepth) 0 0
        ∧ (∀ i, i < s.cfg.symDepth → (xs.map Prod.fst)[i]? = some (t.symRead i))
        ∧ (∀ i, s.cfg.symDepth ≤ i → t.symRead i = s.symRead i)
        ∧ SamePort s t ∧ SameFreq s t ∧ SameQueue s t ∧ SameTree s t ∧ SameTable s t ∧ SameBitbuf s t)

/-- 44_decoder.md R97: whatever the tree and the bits, DECODE writes SYMBUF entries below RES0 and nothing else. -/
def Obligations.DecodeWritesOnlyTheSymbolsItCounts : Prop :=
  ∀ s : State, s.cfg.legal = true →
    ∃ t, exec .decode s = .next t ∧ t.res0.toNat ≤ s.cfg.symDepth ∧ t.res1 = 0 ∧ t.res2 = 0
      ∧ (∀ i, t.res0.toNat ≤ i → t.symRead i = s.symRead i)
      ∧ SamePort s t ∧ SameFreq s t ∧ SameQueue s t ∧ SameTree s t ∧ SameTable s t ∧ SameBitbuf s t

/-- 44_decoder.md R98, the source's round trip: with a tree and its code table, DECODE of what an ENCODE that succeeded wrote, over exactly
the bits it reported, succeeds, counts the symbols encoded and gives every one of them back. -/
def Obligations.DecodeOfEncodeGivesTheSymbolsBack : Prop :=
  ∀ s t : State, s.inv = true → s.tableValid = true → exec .encode s = .next t → t.err = .ok →
    ∃ u, exec .decode { t with arg0 := t.res0 } = .next u ∧ Reports u .ok 0 s.op0 0 0
      ∧ ∀ i, u.symRead i = s.symRead i
end

