-- ==== Sys2Proof/Laws/State.lean ====
section
/-! SUPPORT. What each named update of State leaves in each field, one lemma per field and update, so that no proof unfolds a record
update. -/

namespace Sys2Proof.Machine

/-! ### prologue -/

@[simp] theorem prologue_cfg (s : State) : (prologue s).cfg = s.cfg := rfl
@[simp] theorem prologue_ctl (s : State) : (prologue s).ctl = s.ctl := rfl
@[simp] theorem prologue_arg0 (s : State) : (prologue s).arg0 = s.arg0 := rfl
@[simp] theorem prologue_arg1 (s : State) : (prologue s).arg1 = s.arg1 := rfl
@[simp] theorem prologue_arg2 (s : State) : (prologue s).arg2 = s.arg2 := rfl
@[simp] theorem prologue_res0 (s : State) : (prologue s).res0 = 0 := rfl
@[simp] theorem prologue_res1 (s : State) : (prologue s).res1 = 0 := rfl
@[simp] theorem prologue_res2 (s : State) : (prologue s).res2 = 0 := rfl
@[simp] theorem prologue_treeValid (s : State) : (prologue s).treeValid = s.treeValid := rfl
@[simp] theorem prologue_tableValid (s : State) : (prologue s).tableValid = s.tableValid := rfl
@[simp] theorem prologue_overrun (s : State) : (prologue s).overrun = s.overrun := rfl
@[simp] theorem prologue_err (s : State) : (prologue s).err = s.err := rfl
@[simp] theorem prologue_errInfo (s : State) : (prologue s).errInfo = 0 := rfl
@[simp] theorem prologue_freq (s : State) : (prologue s).freq = s.freq := rfl
@[simp] theorem prologue_queue (s : State) : (prologue s).queue = s.queue := rfl
@[simp] theorem prologue_nodes (s : State) : (prologue s).nodes = s.nodes := rfl
@[simp] theorem prologue_root (s : State) : (prologue s).root = s.root := rfl
@[simp] theorem prologue_nodeUsed (s : State) : (prologue s).nodeUsed = s.nodeUsed := rfl
@[simp] theorem prologue_code (s : State) : (prologue s).code = s.code := rfl
@[simp] theorem prologue_symbuf (s : State) : (prologue s).symbuf = s.symbuf := rfl
@[simp] theorem prologue_bitbuf (s : State) : (prologue s).bitbuf = s.bitbuf := rfl
@[simp] theorem prologue_events (s : State) : (prologue s).events = s.events := rfl
@[simp] theorem prologue_rdata (s : State) : (prologue s).rdata = s.rdata := rfl
@[simp] theorem prologue_resetHeld (s : State) : (prologue s).resetHeld = s.resetHeld := rfl
@[simp] theorem prologue_epoch (s : State) : (prologue s).epoch = s.epoch := rfl
@[simp] theorem prologue_draws (s : State) : (prologue s).draws = s.draws := rfl

/-! ### epilogue -/

@[simp] theorem epilogue_cfg (r : CmdEnd) : (epilogue r).cfg = r.st.cfg := rfl
@[simp] theorem epilogue_ctl (r : CmdEnd) : (epilogue r).ctl = .idle := rfl
@[simp] theorem epilogue_arg0 (r : CmdEnd) : (epilogue r).arg0 = r.st.arg0 := rfl
@[simp] theorem epilogue_arg1 (r : CmdEnd) : (epilogue r).arg1 = r.st.arg1 := rfl
@[simp] theorem epilogue_arg2 (r : CmdEnd) : (epilogue r).arg2 = r.st.arg2 := rfl
@[simp] theorem epilogue_res0 (r : CmdEnd) : (epilogue r).res0 = r.st.res0 := rfl
@[simp] theorem epilogue_res1 (r : CmdEnd) : (epilogue r).res1 = r.st.res1 := rfl
@[simp] theorem epilogue_res2 (r : CmdEnd) : (epilogue r).res2 = r.st.res2 := rfl
@[simp] theorem epilogue_treeValid (r : CmdEnd) : (epilogue r).treeValid = r.st.treeValid := rfl
@[simp] theorem epilogue_tableValid (r : CmdEnd) : (epilogue r).tableValid = r.st.tableValid := rfl
@[simp] theorem epilogue_overrun (r : CmdEnd) : (epilogue r).overrun = r.st.overrun := rfl
@[simp] theorem epilogue_err (r : CmdEnd) : (epilogue r).err = r.err := rfl
@[simp] theorem epilogue_errInfo (r : CmdEnd) : (epilogue r).errInfo = r.info := rfl
@[simp] theorem epilogue_freq (r : CmdEnd) : (epilogue r).freq = r.st.freq := rfl
@[simp] theorem epilogue_queue (r : CmdEnd) : (epilogue r).queue = r.st.queue := rfl
@[simp] theorem epilogue_nodes (r : CmdEnd) : (epilogue r).nodes = r.st.nodes := rfl
@[simp] theorem epilogue_root (r : CmdEnd) : (epilogue r).root = r.st.root := rfl
@[simp] theorem epilogue_nodeUsed (r : CmdEnd) : (epilogue r).nodeUsed = r.st.nodeUsed := rfl
@[simp] theorem epilogue_code (r : CmdEnd) : (epilogue r).code = r.st.code := rfl
@[simp] theorem epilogue_symbuf (r : CmdEnd) : (epilogue r).symbuf = r.st.symbuf := rfl
@[simp] theorem epilogue_bitbuf (r : CmdEnd) : (epilogue r).bitbuf = r.st.bitbuf := rfl
@[simp] theorem epilogue_events (r : CmdEnd) : (epilogue r).events = r.st.events := rfl
@[simp] theorem epilogue_rdata (r : CmdEnd) : (epilogue r).rdata = r.st.rdata := rfl
@[simp] theorem epilogue_resetHeld (r : CmdEnd) : (epilogue r).resetHeld = r.st.resetHeld := rfl
@[simp] theorem epilogue_epoch (r : CmdEnd) : (epilogue r).epoch = r.st.epoch := rfl
@[simp] theorem epilogue_draws (r : CmdEnd) : (epilogue r).draws = r.st.draws := rfl

/-! ### setRes -/

@[simp] theorem setRes_cfg (s : State) (a b c : Word) : (s.setRes a b c).cfg = s.cfg := rfl
@[simp] theorem setRes_ctl (s : State) (a b c : Word) : (s.setRes a b c).ctl = s.ctl := rfl
@[simp] theorem setRes_arg0 (s : State) (a b c : Word) : (s.setRes a b c).arg0 = s.arg0 := rfl
@[simp] theorem setRes_arg1 (s : State) (a b c : Word) : (s.setRes a b c).arg1 = s.arg1 := rfl
@[simp] theorem setRes_arg2 (s : State) (a b c : Word) : (s.setRes a b c).arg2 = s.arg2 := rfl
@[simp] theorem setRes_res0 (s : State) (a b c : Word) : (s.setRes a b c).res0 = a := rfl
@[simp] theorem setRes_res1 (s : State) (a b c : Word) : (s.setRes a b c).res1 = b := rfl
@[simp] theorem setRes_res2 (s : State) (a b c : Word) : (s.setRes a b c).res2 = c := rfl
@[simp] theorem setRes_treeValid (s : State) (a b c : Word) : (s.setRes a b c).treeValid = s.treeValid := rfl
@[simp] theorem setRes_tableValid (s : State) (a b c : Word) : (s.setRes a b c).tableValid = s.tableValid := rfl
@[simp] theorem setRes_overrun (s : State) (a b c : Word) : (s.setRes a b c).overrun = s.overrun := rfl
@[simp] theorem setRes_err (s : State) (a b c : Word) : (s.setRes a b c).err = s.err := rfl
@[simp] theorem setRes_errInfo (s : State) (a b c : Word) : (s.setRes a b c).errInfo = s.errInfo := rfl
@[simp] theorem setRes_freq (s : State) (a b c : Word) : (s.setRes a b c).freq = s.freq := rfl
@[simp] theorem setRes_queue (s : State) (a b c : Word) : (s.setRes a b c).queue = s.queue := rfl
@[simp] theorem setRes_nodes (s : State) (a b c : Word) : (s.setRes a b c).nodes = s.nodes := rfl
@[simp] theorem setRes_root (s : State) (a b c : Word) : (s.setRes a b c).root = s.root := rfl
@[simp] theorem setRes_nodeUsed (s : State) (a b c : Word) : (s.setRes a b c).nodeUsed = s.nodeUsed := rfl
@[simp] theorem setRes_code (s : State) (a b c : Word) : (s.setRes a b c).code = s.code := rfl
@[simp] theorem setRes_symbuf (s : State) (a b c : Word) : (s.setRes a b c).symbuf = s.symbuf := rfl
@[simp] theorem setRes_bitbuf (s : State) (a b c : Word) : (s.setRes a b c).bitbuf = s.bitbuf := rfl
@[simp] theorem setRes_events (s : State) (a b c : Word) : (s.setRes a b c).events = s.events := rfl
@[simp] theorem setRes_rdata (s : State) (a b c : Word) : (s.setRes a b c).rdata = s.rdata := rfl
@[simp] theorem setRes_resetHeld (s : State) (a b c : Word) : (s.setRes a b c).resetHeld = s.resetHeld := rfl
@[simp] theorem setRes_epoch (s : State) (a b c : Word) : (s.setRes a b c).epoch = s.epoch := rfl
@[simp] theorem setRes_draws (s : State) (a b c : Word) : (s.setRes a b c).draws = s.draws := rfl

/-! ### issue -/

@[simp] theorem issue_cfg (w : Word) (s : State) : (issue w s).cfg = s.cfg := rfl
@[simp] theorem issue_ctl (w : Word) (s : State) : (issue w s).ctl = .busy { word := w, arg0 := s.arg0, arg1 := s.arg1, arg2 := s.arg2 } := rfl
@[simp] theorem issue_arg0 (w : Word) (s : State) : (issue w s).arg0 = s.arg0 := rfl
@[simp] theorem issue_arg1 (w : Word) (s : State) : (issue w s).arg1 = s.arg1 := rfl
@[simp] theorem issue_arg2 (w : Word) (s : State) : (issue w s).arg2 = s.arg2 := rfl
@[simp] theorem issue_res0 (w : Word) (s : State) : (issue w s).res0 = s.res0 := rfl
@[simp] theorem issue_res1 (w : Word) (s : State) : (issue w s).res1 = s.res1 := rfl
@[simp] theorem issue_res2 (w : Word) (s : State) : (issue w s).res2 = s.res2 := rfl
@[simp] theorem issue_treeValid (w : Word) (s : State) : (issue w s).treeValid = s.treeValid := rfl
@[simp] theorem issue_tableValid (w : Word) (s : State) : (issue w s).tableValid = s.tableValid := rfl
@[simp] theorem issue_overrun (w : Word) (s : State) : (issue w s).overrun = s.overrun := rfl
@[simp] theorem issue_err (w : Word) (s : State) : (issue w s).err = .ok := rfl
@[simp] theorem issue_errInfo (w : Word) (s : State) : (issue w s).errInfo = s.errInfo := rfl
@[simp] theorem issue_freq (w : Word) (s : State) : (issue w s).freq = s.freq := rfl
@[simp] theorem issue_queue (w : Word) (s : State) : (issue w s).queue = s.queue := rfl
@[simp] theorem issue_nodes (w : Word) (s : State) : (issue w s).nodes = s.nodes := rfl
@[simp] theorem issue_root (w : Word) (s : State) : (issue w s).root = s.root := rfl
@[simp] theorem issue_nodeUsed (w : Word) (s : State) : (issue w s).nodeUsed = s.nodeUsed := rfl
@[simp] theorem issue_code (w : Word) (s : State) : (issue w s).code = s.code := rfl
@[simp] theorem issue_symbuf (w : Word) (s : State) : (issue w s).symbuf = s.symbuf := rfl
@[simp] theorem issue_bitbuf (w : Word) (s : State) : (issue w s).bitbuf = s.bitbuf := rfl
@[simp] theorem issue_events (w : Word) (s : State) : (issue w s).events = s.events := rfl
@[simp] theorem issue_rdata (w : Word) (s : State) : (issue w s).rdata = s.rdata := rfl
@[simp] theorem issue_resetHeld (w : Word) (s : State) : (issue w s).resetHeld = s.resetHeld := rfl
@[simp] theorem issue_epoch (w : Word) (s : State) : (issue w s).epoch = s.epoch := rfl
@[simp] theorem issue_draws (w : Word) (s : State) : (issue w s).draws = s.draws := rfl

/-! ### symWrite -/

@[simp] theorem symWrite_cfg (s : State) (i x : Nat) : (s.symWrite i x).cfg = s.cfg := rfl
@[simp] theorem symWrite_ctl (s : State) (i x : Nat) : (s.symWrite i x).ctl = s.ctl := rfl
@[simp] theorem symWrite_arg0 (s : State) (i x : Nat) : (s.symWrite i x).arg0 = s.arg0 := rfl
@[simp] theorem symWrite_arg1 (s : State) (i x : Nat) : (s.symWrite i x).arg1 = s.arg1 := rfl
@[simp] theorem symWrite_arg2 (s : State) (i x : Nat) : (s.symWrite i x).arg2 = s.arg2 := rfl
@[simp] theorem symWrite_res0 (s : State) (i x : Nat) : (s.symWrite i x).res0 = s.res0 := rfl
@[simp] theorem symWrite_res1 (s : State) (i x : Nat) : (s.symWrite i x).res1 = s.res1 := rfl
@[simp] theorem symWrite_res2 (s : State) (i x : Nat) : (s.symWrite i x).res2 = s.res2 := rfl
@[simp] theorem symWrite_treeValid (s : State) (i x : Nat) : (s.symWrite i x).treeValid = s.treeValid := rfl
@[simp] theorem symWrite_tableValid (s : State) (i x : Nat) : (s.symWrite i x).tableValid = s.tableValid := rfl
@[simp] theorem symWrite_overrun (s : State) (i x : Nat) : (s.symWrite i x).overrun = s.overrun := rfl
@[simp] theorem symWrite_err (s : State) (i x : Nat) : (s.symWrite i x).err = s.err := rfl
@[simp] theorem symWrite_errInfo (s : State) (i x : Nat) : (s.symWrite i x).errInfo = s.errInfo := rfl
@[simp] theorem symWrite_freq (s : State) (i x : Nat) : (s.symWrite i x).freq = s.freq := rfl
@[simp] theorem symWrite_queue (s : State) (i x : Nat) : (s.symWrite i x).queue = s.queue := rfl
@[simp] theorem symWrite_nodes (s : State) (i x : Nat) : (s.symWrite i x).nodes = s.nodes := rfl
@[simp] theorem symWrite_root (s : State) (i x : Nat) : (s.symWrite i x).root = s.root := rfl
@[simp] theorem symWrite_nodeUsed (s : State) (i x : Nat) : (s.symWrite i x).nodeUsed = s.nodeUsed := rfl
@[simp] theorem symWrite_code (s : State) (i x : Nat) : (s.symWrite i x).code = s.code := rfl
@[simp] theorem symWrite_symbuf (s : State) (i x : Nat) : (s.symWrite i x).symbuf = cellPut i x s.symbuf := rfl
@[simp] theorem symWrite_bitbuf (s : State) (i x : Nat) : (s.symWrite i x).bitbuf = s.bitbuf := rfl
@[simp] theorem symWrite_events (s : State) (i x : Nat) : (s.symWrite i x).events = s.events := rfl
@[simp] theorem symWrite_rdata (s : State) (i x : Nat) : (s.symWrite i x).rdata = s.rdata := rfl
@[simp] theorem symWrite_resetHeld (s : State) (i x : Nat) : (s.symWrite i x).resetHeld = s.resetHeld := rfl
@[simp] theorem symWrite_epoch (s : State) (i x : Nat) : (s.symWrite i x).epoch = s.epoch := rfl
@[simp] theorem symWrite_draws (s : State) (i x : Nat) : (s.symWrite i x).draws = s.draws := rfl

/-! ### hardwareReset -/

@[simp] theorem hardwareReset_cfg (s : State) : (hardwareReset s).cfg = s.cfg := rfl
@[simp] theorem hardwareReset_ctl (s : State) : (hardwareReset s).ctl = .idle := rfl
@[simp] theorem hardwareReset_arg0 (s : State) : (hardwareReset s).arg0 = 0 := rfl
@[simp] theorem hardwareReset_arg1 (s : State) : (hardwareReset s).arg1 = 0 := rfl
@[simp] theorem hardwareReset_arg2 (s : State) : (hardwareReset s).arg2 = 0 := rfl
@[simp] theorem hardwareReset_res0 (s : State) : (hardwareReset s).res0 = 0 := rfl
@[simp] theorem hardwareReset_res1 (s : State) : (hardwareReset s).res1 = 0 := rfl
@[simp] theorem hardwareReset_res2 (s : State) : (hardwareReset s).res2 = 0 := rfl
@[simp] theorem hardwareReset_treeValid (s : State) : (hardwareReset s).treeValid = false := rfl
@[simp] theorem hardwareReset_tableValid (s : State) : (hardwareReset s).tableValid = false := rfl
@[simp] theorem hardwareReset_overrun (s : State) : (hardwareReset s).overrun = false := rfl
@[simp] theorem hardwareReset_err (s : State) : (hardwareReset s).err = .ok := rfl
@[simp] theorem hardwareReset_errInfo (s : State) : (hardwareReset s).errInfo = 0 := rfl
@[simp] theorem hardwareReset_freq (s : State) : (hardwareReset s).freq = [] := rfl
@[simp] theorem hardwareReset_queue (s : State) : (hardwareReset s).queue = [] := rfl
@[simp] theorem hardwareReset_nodes (s : State) : (hardwareReset s).nodes = [] := rfl
@[simp] theorem hardwareReset_root (s : State) : (hardwareReset s).root = 0 := rfl
@[simp] theorem hardwareReset_nodeUsed (s : State) : (hardwareReset s).nodeUsed = 0 := rfl
@[simp] theorem hardwareReset_code (s : State) : (hardwareReset s).code = [] := rfl
@[simp] theorem hardwareReset_symbuf (s : State) : (hardwareReset s).symbuf = [] := rfl
@[simp] theorem hardwareReset_bitbuf (s : State) : (hardwareReset s).bitbuf = [] := rfl
@[simp] theorem hardwareReset_events (s : State) : (hardwareReset s).events = s.events := rfl
@[simp] theorem hardwareReset_rdata (s : State) : (hardwareReset s).rdata = s.rdata := rfl
@[simp] theorem hardwareReset_resetHeld (s : State) : (hardwareReset s).resetHeld = true := rfl
@[simp] theorem hardwareReset_epoch (s : State) : (hardwareReset s).epoch = s.epoch + 1 := rfl
@[simp] theorem hardwareReset_draws (s : State) : (hardwareReset s).draws = s.draws := rfl

/-! ### withFetchWord -/

@[simp] theorem withFetchWord_cfg (s : State) (n w : Nat) : (s.withFetchWord n w).cfg = s.cfg := rfl
@[simp] theorem withFetchWord_ctl (s : State) (n w : Nat) : (s.withFetchWord n w).ctl = .busy { word := BitVec.ofNat 32 (w % 2 ^ n), arg0 := s.arg0, arg1 := s.arg1, arg2 := s.arg2 } := rfl
@[simp] theorem withFetchWord_arg0 (s : State) (n w : Nat) : (s.withFetchWord n w).arg0 = s.arg0 := rfl
@[simp] theorem withFetchWord_arg1 (s : State) (n w : Nat) : (s.withFetchWord n w).arg1 = s.arg1 := rfl
@[simp] theorem withFetchWord_arg2 (s : State) (n w : Nat) : (s.withFetchWord n w).arg2 = s.arg2 := rfl
@[simp] theorem withFetchWord_res0 (s : State) (n w : Nat) : (s.withFetchWord n w).res0 = s.res0 := rfl
@[simp] theorem withFetchWord_res1 (s : State) (n w : Nat) : (s.withFetchWord n w).res1 = s.res1 := rfl
@[simp] theorem withFetchWord_res2 (s : State) (n w : Nat) : (s.withFetchWord n w).res2 = s.res2 := rfl
@[simp] theorem withFetchWord_treeValid (s : State) (n w : Nat) : (s.withFetchWord n w).treeValid = s.treeValid := rfl
@[simp] theorem withFetchWord_tableValid (s : State) (n w : Nat) : (s.withFetchWord n w).tableValid = s.tableValid := rfl
@[simp] theorem withFetchWord_overrun (s : State) (n w : Nat) : (s.withFetchWord n w).overrun = s.overrun := rfl
@[simp] theorem withFetchWord_err (s : State) (n w : Nat) : (s.withFetchWord n w).err = .ok := rfl
@[simp] theorem withFetchWord_errInfo (s : State) (n w : Nat) : (s.withFetchWord n w).errInfo = s.errInfo := rfl
@[simp] theorem withFetchWord_freq (s : State) (n w : Nat) : (s.withFetchWord n w).freq = s.freq := rfl
@[simp] theorem withFetchWord_queue (s : State) (n w : Nat) : (s.withFetchWord n w).queue = s.queue := rfl
@[simp] theorem withFetchWord_nodes (s : State) (n w : Nat) : (s.withFetchWord n w).nodes = s.nodes := rfl
@[simp] theorem withFetchWord_root (s : State) (n w : Nat) : (s.withFetchWord n w).root = s.root := rfl
@[simp] theorem withFetchWord_nodeUsed (s : State) (n w : Nat) : (s.withFetchWord n w).nodeUsed = s.nodeUsed := rfl
@[simp] theorem withFetchWord_code (s : State) (n w : Nat) : (s.withFetchWord n w).code = s.code := rfl
@[simp] theorem withFetchWord_symbuf (s : State) (n w : Nat) : (s.withFetchWord n w).symbuf = s.symbuf := rfl
@[simp] theorem withFetchWord_bitbuf (s : State) (n w : Nat) : (s.withFetchWord n w).bitbuf = s.bitbuf := rfl
@[simp] theorem withFetchWord_events (s : State) (n w : Nat) : (s.withFetchWord n w).events = .block :: s.events := rfl
@[simp] theorem withFetchWord_rdata (s : State) (n w : Nat) : (s.withFetchWord n w).rdata = s.rdata := rfl
@[simp] theorem withFetchWord_resetHeld (s : State) (n w : Nat) : (s.withFetchWord n w).resetHeld = false := rfl
@[simp] theorem withFetchWord_epoch (s : State) (n w : Nat) : (s.withFetchWord n w).epoch = s.epoch := rfl
@[simp] theorem withFetchWord_draws (s : State) (n w : Nat) : (s.withFetchWord n w).draws = s.draws := rfl

/-! ### The ends of a command -/

@[simp] theorem done_st (s : State) : (done s).st = s := rfl
@[simp] theorem done_err (s : State) : (done s).err = .ok := rfl
@[simp] theorem done_info (s : State) : (done s).info = 0 := rfl
@[simp] theorem fail_st (e : ErrCode) (w : Word) (s : State) : (fail e w s).st = s := rfl
@[simp] theorem fail_err (e : ErrCode) (w : Word) (s : State) : (fail e w s).err = e := rfl
@[simp] theorem fail_info (e : ErrCode) (w : Word) (s : State) : (fail e w s).info = w := rfl

/-! ### The readings of a state that the prologue does not touch -/

@[simp] theorem prologue_op0 (s : State) : (prologue s).op0 = s.op0 := rfl
@[simp] theorem prologue_op1 (s : State) : (prologue s).op1 = s.op1 := rfl
@[simp] theorem prologue_op2 (s : State) : (prologue s).op2 = s.op2 := rfl
@[simp] theorem prologue_opWeight (s : State) : (prologue s).opWeight = s.opWeight := rfl
@[simp] theorem prologue_freqCount (s : State) : (prologue s).freqCount = s.freqCount := rfl
@[simp] theorem prologue_busy (s : State) : (prologue s).busy = s.busy := rfl
@[simp] theorem prologue_present (s : State) (x : Nat) : (prologue s).present x = s.present x := rfl
@[simp] theorem setRes_present (s : State) (a b c : Word) (x : Nat) : (s.setRes a b c).present x = s.present x := rfl
@[simp] theorem epilogue_present (r : CmdEnd) (x : Nat) : (epilogue r).present x = r.st.present x := rfl
@[simp] theorem prologue_freqOf (s : State) (x : Nat) : (prologue s).freqOf x = s.freqOf x := rfl
@[simp] theorem setRes_freqOf (s : State) (a b c : Word) (x : Nat) : (s.setRes a b c).freqOf x = s.freqOf x := rfl
@[simp] theorem epilogue_freqOf (r : CmdEnd) (x : Nat) : (epilogue r).freqOf x = r.st.freqOf x := rfl
@[simp] theorem prologue_node (s : State) (i : Nat) : (prologue s).node i = s.node i := rfl
@[simp] theorem setRes_node (s : State) (a b c : Word) (i : Nat) : (s.setRes a b c).node i = s.node i := rfl
@[simp] theorem epilogue_node (r : CmdEnd) (i : Nat) : (epilogue r).node i = r.st.node i := rfl
@[simp] theorem prologue_codeOf (s : State) (x : Nat) : (prologue s).codeOf x = s.codeOf x := rfl
@[simp] theorem setRes_codeOf (s : State) (a b c : Word) (x : Nat) : (s.setRes a b c).codeOf x = s.codeOf x := rfl
@[simp] theorem epilogue_codeOf (r : CmdEnd) (x : Nat) : (epilogue r).codeOf x = r.st.codeOf x := rfl
@[simp] theorem prologue_symRead (s : State) (i : Nat) : (prologue s).symRead i = s.symRead i := rfl
@[simp] theorem setRes_symRead (s : State) (a b c : Word) (i : Nat) : (s.setRes a b c).symRead i = s.symRead i := rfl
@[simp] theorem epilogue_symRead (r : CmdEnd) (i : Nat) : (epilogue r).symRead i = r.st.symRead i := rfl
@[simp] theorem prologue_bitRead (s : State) (k : Nat) : (prologue s).bitRead k = s.bitRead k := rfl
@[simp] theorem setRes_bitRead (s : State) (a b c : Word) (k : Nat) : (s.setRes a b c).bitRead k = s.bitRead k := rfl
@[simp] theorem epilogue_bitRead (r : CmdEnd) (k : Nat) : (epilogue r).bitRead k = r.st.bitRead k := rfl

end Sys2Proof.Machine
end

