-- ==== Sys2Proof/Laws/Ops.lean ====
section
/-! SUPPORT. What each shared operation does, said once: the sparse tables, the buffers, the queue's placement, and the completion of a
command. -/

namespace Sys2Proof

/-! ### Sparse tables -/

@[simp] theorem cellGet_nil {α : Type} (i : Nat) : cellGet i ([] : Cells α) = none := rfl

/-- A read after a write at the same index gives the value written. -/
@[simp] theorem cellGet_cellPut_same {α : Type} (i : Nat) (v : α) (m : Cells α) : cellGet i (cellPut i v m) = some v := by
  induction m with
  | nil => simp [cellPut, cellGet]
  | cons e rest ih =>
    obtain ⟨k, w⟩ := e
    simp only [cellPut]
    split
    · simp [cellGet]
    · split
      · simp [cellGet]
      · next hne => simp [cellGet, hne, ih]

/-- A write leaves every other index alone. -/
theorem cellGet_cellPut_other {α : Type} {i j : Nat} (v : α) (m : Cells α) (h : j ≠ i) :
    cellGet j (cellPut i v m) = cellGet j m := by
  induction m with
  | nil => simp [cellPut, cellGet, h]
  | cons e rest ih =>
    obtain ⟨k, w⟩ := e
    simp only [cellPut]
    split
    · simp [cellGet, h]
    · split
      · next heq => subst heq; simp [cellGet, h]
      · simp [cellGet, ih]

theorem cellGet_cellPut {α : Type} (i j : Nat) (v : α) (m : Cells α) :
    cellGet j (cellPut i v m) = if j = i then some v else cellGet j m := by
  split
  · next h => rw [h, cellGet_cellPut_same]
  · next h => exact cellGet_cellPut_other v m h

theorem cellGet_cellDrop {α : Type} (i j : Nat) (m : Cells α) :
    cellGet j (cellDrop i m) = if j = i then none else cellGet j m := by
  induction m with
  | nil => simp [cellDrop]
  | cons e rest ih =>
    obtain ⟨k, w⟩ := e
    simp only [cellDrop] at ih ⊢
    by_cases hk : k = i
    · subst hk
      by_cases hj : j = k
      · simp_all
      · simp_all [cellGet]
    · by_cases hj : j = i
      · subst hj
        simp_all [cellGet, Ne.symm hk]
      · simp [hk, cellGet, ih, hj]

/-- The entries of a table after a write: those of before, or the one written. -/
theorem mem_cellPut {α : Type} {i : Nat} {v : α} {m : Cells α} {e : Nat × α} (h : e ∈ cellPut i v m) :
    e = (i, v) ∨ e ∈ m := by
  induction m with
  | nil => simpa [cellPut] using h
  | cons d rest ih =>
    obtain ⟨k, w⟩ := d
    simp only [cellPut] at h
    split at h
    · simpa using h
    · split at h
      · simp only [List.mem_cons] at h ⊢
        tauto
      · simp only [List.mem_cons] at h ⊢
        rcases h with h | h
        · exact .inr (.inl h)
        · rcases ih h with h | h
          · exact .inl h
          · exact .inr (.inr h)

theorem cellsRising_cons {α : Type} {e : Nat × α} {m : Cells α} :
    cellsRising (e :: m) = true ↔ (∀ d ∈ m, e.1 < d.1) ∧ cellsRising m = true := by
  simp [cellsRising]

/-- A write keeps the canonical form. -/
theorem cellsRising_cellPut {α : Type} (i : Nat) (v : α) (m : Cells α) (h : cellsRising m = true) :
    cellsRising (cellPut i v m) = true := by
  induction m with
  | nil => rfl
  | cons d rest ih =>
    obtain ⟨k, w⟩ := d
    have ⟨h1, h2⟩ := cellsRising_cons.1 h
    simp only [cellPut]
    split
    · next hlt =>
      refine cellsRising_cons.2 ⟨fun e he => ?_, h⟩
      rcases List.mem_cons.1 he with rfl | he
      · exact hlt
      · exact Nat.lt_trans hlt (h1 e he)
    · next hge =>
      split
      · next heq =>
        subst heq
        exact cellsRising_cons.2 ⟨fun e he => h1 e he, h2⟩
      · next hne =>
        refine cellsRising_cons.2 ⟨fun e he => ?_, ih h2⟩
        rcases mem_cellPut he with rfl | he
        · show k < i
          omega
        · exact h1 e he

/-- A removal keeps the canonical form. -/
theorem cellsRising_cellDrop {α : Type} (i : Nat) (m : Cells α) (h : cellsRising m = true) :
    cellsRising (cellDrop i m) = true := by
  induction m with
  | nil => rfl
  | cons d rest ih =>
    have ⟨h1, h2⟩ := cellsRising_cons.1 h
    simp only [cellDrop, List.filter_cons] at ih ⊢
    split
    · exact cellsRising_cons.2 ⟨fun e he => h1 e (List.mem_filter.1 he).1, ih h2⟩
    · exact ih h2

theorem cellsBelow_cellPut {α : Type} {n i : Nat} (v : α) {m : Cells α} (h : cellsBelow n m = true) (hi : i < n) :
    cellsBelow n (cellPut i v m) = true := by
  simp only [cellsBelow, List.all_eq_true, decide_eq_true_eq] at h ⊢
  intro e he
  rcases mem_cellPut he with rfl | he
  · exact hi
  · exact h e he

theorem cellsBelow_cellDrop {α : Type} {n : Nat} (i : Nat) {m : Cells α} (h : cellsBelow n m = true) :
    cellsBelow n (cellDrop i m) = true := by
  simp only [cellsBelow, List.all_eq_true, decide_eq_true_eq] at h ⊢
  exact fun e he => h e (List.mem_filter.1 he).1

/-- An index below every listed one is not listed. -/
theorem cellGet_eq_none_of_lt {α : Type} {i : Nat} {m : Cells α} (h : ∀ e ∈ m, i < e.1) : cellGet i m = none := by
  induction m with
  | nil => rfl
  | cons d rest ih =>
    obtain ⟨k, w⟩ := d
    have hk : i < k := h _ (List.mem_cons_self ..)
    rw [cellGet, if_neg (by omega)]
    exact ih fun e he => h e (List.mem_cons_of_mem _ he)

/-- Tables in canonical form that read alike are equal data. -/
theorem cells_ext {α : Type} {m m' : Cells α} (h : cellsRising m = true) (h' : cellsRising m' = true)
    (hget : ∀ i, cellGet i m = cellGet i m') : m = m' := by
  induction m generalizing m' with
  | nil =>
    cases m' with
    | nil => rfl
    | cons d rest =>
      have := hget d.1
      simp [cellGet] at this
  | cons d rest ih =>
    obtain ⟨k, w⟩ := d
    have ⟨h1, h2⟩ := cellsRising_cons.1 h
    cases m' with
    | nil =>
      have := hget k
      simp [cellGet] at this
    | cons d' rest' =>
      obtain ⟨k', w'⟩ := d'
      have ⟨h1', h2'⟩ := cellsRising_cons.1 h'
      have hkk : k = k' := by
        have a := hget k
        have b := hget k'
        rcases Nat.lt_trichotomy k k' with hlt | heq | hgt
        · rw [cellGet, if_pos rfl, cellGet, if_neg (by omega)] at a
          rw [cellGet_eq_none_of_lt fun e he => Nat.lt_trans hlt (h1' e he)] at a
          simp at a
        · exact heq
        · rw [cellGet, if_neg (by omega), cellGet, if_pos rfl] at b
          rw [cellGet_eq_none_of_lt fun e he => Nat.lt_trans hgt (h1 e he)] at b
          simp at b
      subst hkk
      have hw : w = w' := by
        have a := hget k
        simpa [cellGet] using a
      subst hw
      have : rest = rest' := by
        refine ih h2 h2' fun i => ?_
        have a := hget i
        by_cases hi : i = k
        · subst hi
          rw [cellGet_eq_none_of_lt h1, cellGet_eq_none_of_lt h1']
        · simpa [cellGet, hi] using a
      rw [this]

/-! ### The opcode map -/

/-- The decoder reads only the word's two fields. -/
theorem decode_of_rsv_ne {w : Word} (h : rsvOf w ≠ 0#24) : decode w = none := by simp [decode, h]

namespace Machine

/-! ### The buffers -/

theorem symRead_symWrite (s : State) (i j x : Nat) :
    (s.symWrite i x).symRead j = if j = i then x else s.symRead j := by
  simp only [State.symRead, State.symWrite, cellGet_cellPut]
  split <;> rfl

/-- What a run of bit writes leaves at each bit. -/
theorem cellGet_putBits (pos : Nat) (f : Nat → Bool) (n k : Nat) (m : Cells Bool) :
    cellGet k (putBits pos f n m) = if pos ≤ k ∧ k < pos + n then some (f (k - pos)) else cellGet k m := by
  induction n with
  | zero => simp [putBits]
  | succ n ih =>
    rw [putBits, cellGet_cellPut, ih]
    by_cases hk : k = pos + n
    · subst hk
      simp
    · rw [if_neg hk]
      by_cases hin : pos ≤ k ∧ k < pos + n
      · rw [if_pos hin, if_pos (by omega)]
      · rw [if_neg hin, if_neg (by omega)]

theorem cellsRising_putBits (pos : Nat) (f : Nat → Bool) (n : Nat) (m : Cells Bool) (h : cellsRising m = true) :
    cellsRising (putBits pos f n m) = true := by
  induction n with
  | zero => exact h
  | succ n ih => exact cellsRising_cellPut _ _ _ ih

theorem cellsBelow_putBits {d : Nat} (pos : Nat) (f : Nat → Bool) (n : Nat) {m : Cells Bool}
    (h : cellsBelow d m = true) (hn : pos + n ≤ d) : cellsBelow d (putBits pos f n m) = true := by
  induction n with
  | zero => exact h
  | succ n ih => exact cellsBelow_cellPut _ (ih (by omega)) (by omega)

/-- What a run of bit writes leaves for a later read. -/
theorem bitRead_putBits (s : State) (pos : Nat) (f : Nat → Bool) (n k : Nat) :
    ({ s with bitbuf := putBits pos f n s.bitbuf } : State).bitRead k
      = if pos ≤ k ∧ k < pos + n then f (k - pos) else s.bitRead k := by
  simp only [State.bitRead, cellGet_putBits]
  split <;> rfl

theorem bitsValue_lt (s : State) (pos n : Nat) : s.bitsValue pos n < 2 ^ n := by
  induction n with
  | zero => simp [State.bitsValue]
  | succ n ih =>
    rw [State.bitsValue, Nat.pow_succ]
    split <;> omega

/-- Bit j of the value of n bits is the j-th of them. -/
theorem testBit_bitsValue (s : State) (pos n j : Nat) (h : j < n) :
    (s.bitsValue pos n).testBit j = s.bitRead (pos + j) := by
  induction n with
  | zero => omega
  | succ n ih =>
    have hlt := bitsValue_lt s pos n
    rw [State.bitsValue]
    by_cases hj : j = n
    · subst hj
      split
      · next hb => rw [Nat.add_comm, Nat.testBit_two_pow_add_eq, Nat.testBit_lt_two_pow hlt, hb]; rfl
      · next hb => rw [Nat.add_zero, Nat.testBit_lt_two_pow hlt]; simpa using hb
    · have hjn : j < n := by omega
      split
      · rw [Nat.add_comm, Nat.testBit_two_pow_add_gt hjn, ih hjn]
      · rw [Nat.add_zero, ih hjn]

/-- The canonical form of the buffers, as a proposition. -/
theorem memory_wf_iff (s : State) : Memory.wf s = true ↔
    cellsRising s.symbuf = true ∧ cellsBelow s.cfg.symDepth s.symbuf = true
    ∧ (∀ e ∈ s.symbuf, e.2 < s.cfg.alphabet)
    ∧ cellsRising s.bitbuf = true ∧ cellsBelow s.cfg.bitDepth s.bitbuf = true := by
  simp [Memory.wf, and_assoc]

/-- SymWrite of a symbol inside the buffer keeps the canonical form. -/
theorem memory_wf_symWrite {s : State} {i x : Nat} (h : Memory.wf s = true) (hi : i < s.cfg.symDepth)
    (hx : x < s.cfg.alphabet) : Memory.wf (s.symWrite i x) = true := by
  obtain ⟨h1, h2, h3, h4, h5⟩ := (memory_wf_iff s).1 h
  refine (memory_wf_iff _).2 ⟨cellsRising_cellPut _ _ _ h1, cellsBelow_cellPut _ h2 hi, fun e he => ?_, h4, h5⟩
  rcases mem_cellPut he with rfl | he
  · exact hx
  · exact h3 e he

/-- A run of BitWrites inside the buffer keeps the canonical form. -/
theorem memory_wf_putBits {s : State} {pos n : Nat} (f : Nat → Bool) (h : Memory.wf s = true)
    (hn : pos + n ≤ s.cfg.bitDepth) : Memory.wf { s with bitbuf := putBits pos f n s.bitbuf } = true := by
  obtain ⟨h1, h2, h3, h4, h5⟩ := (memory_wf_iff s).1 h
  exact (memory_wf_iff _).2 ⟨h1, h2, h3, cellsRising_putBits _ _ _ _ h4, cellsBelow_putBits _ _ _ h5 hn⟩

/-- The memory right after reset is canonical. -/
theorem memory_wf_reset : Memory.wf State.reset = true := rfl

/-! ### The queue -/

theorem weightsSorted_cons {e : QEntry} {q : List QEntry} :
    weightsSorted (e :: q) = true ↔ (∀ d ∈ q, e.weight ≤ d.weight) ∧ weightsSorted q = true := by
  simp [weightsSorted]

theorem weightsSorted_iff (q : List QEntry) :
    weightsSorted q = true ↔ q.Pairwise fun a b => a.weight ≤ b.weight := by
  induction q with
  | nil => simp [weightsSorted]
  | cons e q ih => rw [weightsSorted_cons, List.pairwise_cons, ih]

theorem length_queuePlace (w p : Nat) (q : List QEntry) : (queuePlace w p q).length = q.length + 1 := by
  simp only [queuePlace, List.length_append, List.length_cons, List.length_take, List.length_drop]
  have := List.countP_le_length (p := fun e : QEntry => decide (e.weight ≤ w)) (l := q)
  omega

theorem perm_queuePlace (w p : Nat) (q : List QEntry) :
    (queuePlace w p q).Perm ({ weight := w, payload := p } :: q) := by
  simp only [queuePlace]
  refine List.perm_middle.trans ?_
  rw [List.take_append_drop]

theorem mem_queuePlace {w p : Nat} {q : List QEntry} {e : QEntry} :
    e ∈ queuePlace w p q ↔ e = { weight := w, payload := p } ∨ e ∈ q := by
  rw [(perm_queuePlace w p q).mem_iff, List.mem_cons]

/-- In a sorted queue, R82's placement is: past the entries of weight at most `w`, before the others. -/
theorem queuePlace_split (w p : Nat) (q : List QEntry) (h : weightsSorted q = true) :
    ∃ before after, q = before ++ after ∧ queuePlace w p q = before ++ { weight := w, payload := p } :: after
      ∧ (∀ e ∈ before, e.weight ≤ w) ∧ ∀ e ∈ after, w < e.weight := by
  induction q with
  | nil => exact ⟨[], [], by simp [queuePlace]⟩
  | cons d q ih =>
    have ⟨h1, h2⟩ := weightsSorted_cons.1 h
    by_cases hd : d.weight ≤ w
    · obtain ⟨b, a, hq, hp, hb, ha⟩ := ih h2
      refine ⟨d :: b, a, by rw [hq]; rfl, ?_, ?_, ha⟩
      · simp only [queuePlace] at hp ⊢
        rw [List.countP_cons_of_pos (by simpa using hd), List.take_succ_cons, List.drop_succ_cons,
          List.cons_append, List.cons_append, hp]
      · intro e he
        rcases List.mem_cons.1 he with rfl | he
        · exact hd
        · exact hb e he
    · have hall : ∀ e ∈ d :: q, w < e.weight := by
        intro e he
        rcases List.mem_cons.1 he with rfl | he
        · omega
        · have := h1 e he
          omega
      refine ⟨[], d :: q, rfl, ?_, by simp, hall⟩
      have hz : (d :: q).countP (fun e => decide (e.weight ≤ w)) = 0 := by
        rw [List.countP_eq_zero]
        intro e he
        have := hall e he
        simp only [decide_eq_true_eq]
        omega
      simp only [queuePlace, hz]
      rfl

/-- Placement keeps the queue sorted by weight. -/
theorem weightsSorted_queuePlace (w p : Nat) (q : List QEntry) (h : weightsSorted q = true) :
    weightsSorted (queuePlace w p q) = true := by
  obtain ⟨b, a, hq, hp, hb, ha⟩ := queuePlace_split w p q h
  rw [hp, weightsSorted_iff]
  rw [weightsSorted_iff, hq, List.pairwise_append] at h
  obtain ⟨h1, h2, h3⟩ := h
  refine List.pairwise_append.2 ⟨h1, List.pairwise_cons.2 ⟨fun e he => (ha e he).le, h2⟩, fun x hx y hy => ?_⟩
  rcases List.mem_cons.1 hy with rfl | hy
  · exact hb x hx
  · exact h3 x hx y hy

/-! ### Commands -/

/-- A command completes in the state its epilogue leaves, and in no other. -/
theorem complete_eq_next {body : State → CmdEnd} {s t : State} :
    complete body s = .next t ↔ t = epilogue (body (prologue s)) := by
  simp [complete, eq_comm]

end Machine

end Sys2Proof
end

