-- ==== Sys2Proof/Laws/Loops.lean ====
section
/-! SUPPORT. What the loops of ENCODE, DECODE and BUILD_TREE do, said once: where they stop, what they write and what they leave. -/

namespace Sys2Proof.Machine

/-- ENCODE's loop goes only forward, and stays inside the buffer it starts in. -/
theorem encodeLoop_count (s : State) (rem i pos : Nat) (out : Cells Bool) (h : pos ≤ s.cfg.bitDepth) :
    pos ≤ (encodeLoop s rem i pos out).count ∧ (encodeLoop s rem i pos out).count ≤ s.cfg.bitDepth := by
  induction rem generalizing i pos out with
  | zero => exact ⟨Nat.le_refl _, h⟩
  | succ rem ih =>
    simp only [encodeLoop]
    split
    · exact ⟨Nat.le_refl _, h⟩
    · next e _ =>
      split
      · exact ⟨Nat.le_refl _, h⟩
      · next hfit =>
        have := ih (i + 1) (pos + e.len) (putBits pos (fun j => e.bits.testBit j) e.len out) (by omega)
        omega

/-- ENCODE's loop writes only the bits from `pos` up to the count it reports. -/
theorem encodeLoop_frame (s : State) (rem i pos k : Nat) (out : Cells Bool) (h : pos ≤ s.cfg.bitDepth)
    (hk : k < pos ∨ (encodeLoop s rem i pos out).count ≤ k) :
    cellGet k (encodeLoop s rem i pos out).out = cellGet k out := by
  induction rem generalizing i pos out with
  | zero => rfl
  | succ rem ih =>
    simp only [encodeLoop] at hk ⊢
    split
    · rfl
    · next e he =>
      rw [he] at hk
      simp only at hk
      split
      · rfl
      · next hfit =>
        rw [if_neg hfit] at hk
        have hc := (encodeLoop_count s rem (i + 1) (pos + e.len)
          (putBits pos (fun j => e.bits.testBit j) e.len out) (by omega)).1
        rw [ih _ _ _ (by omega) (by omega), cellGet_putBits, if_neg (by omega)]

/-- ENCODE's loop keeps the bit buffer canonical and inside its depth. -/
theorem encodeLoop_canonical (s : State) (rem i pos : Nat) (out : Cells Bool)
    (hr : cellsRising out = true) (hb : cellsBelow s.cfg.bitDepth out = true) :
    cellsRising (encodeLoop s rem i pos out).out = true
    ∧ cellsBelow s.cfg.bitDepth (encodeLoop s rem i pos out).out = true := by
  induction rem generalizing i pos out with
  | zero => exact ⟨hr, hb⟩
  | succ rem ih =>
    simp only [encodeLoop]
    split
    · exact ⟨hr, hb⟩
    · next e _ =>
      split
      · exact ⟨hr, hb⟩
      · exact ih _ _ _ (cellsRising_putBits _ _ _ _ hr) (cellsBelow_putBits _ _ _ hb (by omega))

/-- The one-leaf loop of DECODE counts up to at most L, and writes only the entries it counts. -/
theorem decodeLeafLoop_frame (depth x rem k cnt : Nat) (out : Cells Nat) (h : cnt ≤ depth) :
    cnt ≤ (decodeLeafLoop depth x rem k cnt out).count ∧ (decodeLeafLoop depth x rem k cnt out).count ≤ depth
    ∧ ∀ j, j < cnt ∨ (decodeLeafLoop depth x rem k cnt out).count ≤ j →
        cellGet j (decodeLeafLoop depth x rem k cnt out).out = cellGet j out := by
  induction rem generalizing k cnt out with
  | zero => exact ⟨Nat.le_refl _, h, fun _ _ => rfl⟩
  | succ rem ih =>
    simp only [decodeLeafLoop]
    split
    · exact ⟨Nat.le_refl _, h, fun _ _ => rfl⟩
    · have ⟨h1, h2, h3⟩ := ih (k + 1) (cnt + 1) (cellPut cnt x out) (by omega)
      refine ⟨by omega, h2, fun j hj => ?_⟩
      rw [h3 j (by omega), cellGet_cellPut, if_neg (by omega)]

/-- The walk of DECODE counts up to at most L, and writes only the entries it counts. -/
theorem decodeLoop_frame (s : State) (rem k cur start cnt : Nat) (out : Cells Nat) (h : cnt ≤ s.cfg.symDepth) :
    cnt ≤ (decodeLoop s rem k cur start cnt out).count
    ∧ (decodeLoop s rem k cur start cnt out).count ≤ s.cfg.symDepth
    ∧ ∀ j, j < cnt ∨ (decodeLoop s rem k cur start cnt out).count ≤ j →
        cellGet j (decodeLoop s rem k cur start cnt out).out = cellGet j out := by
  induction rem generalizing k cur start cnt out with
  | zero => exact ⟨Nat.le_refl _, h, fun _ _ => rfl⟩
  | succ rem ih =>
    simp only [decodeLoop]
    generalize (if s.bitRead k = true then (s.node cur).right else (s.node cur).left) = next
    split
    · split
      · exact ⟨Nat.le_refl _, h, fun _ _ => rfl⟩
      · have ⟨h1, h2, h3⟩ := ih (k + 1) s.root (if cur = s.root then k else start) (cnt + 1)
          (cellPut cnt (s.node next).sym out) (by omega)
        refine ⟨by omega, h2, fun j hj => ?_⟩
        rw [h3 j (by omega), cellGet_cellPut, if_neg (by omega)]
    · exact ih _ _ _ _ _ h

/-- The merge loop adds one node a turn and takes one entry off the queue: with enough fuel one entry is left. -/
theorem mergeNodes_lengths (fuel : Nat) (q : List QEntry) (arena : List Node) (hq : 1 ≤ q.length)
    (hf : q.length ≤ fuel + 1) :
    (mergeNodes fuel q arena).1.length = 1
    ∧ (mergeNodes fuel q arena).2.length = arena.length + (q.length - 1) := by
  induction fuel generalizing q arena with
  | zero => simp [mergeNodes]; omega
  | succ fuel ih =>
    match q, hq with
    | [a], _ => simp [mergeNodes]
    | a :: b :: rest, _ =>
      simp only [List.length_cons] at hf
      have h := ih (queuePlace (a.weight + b.weight) arena.length rest)
        (arena ++ [internalNode (a.weight + b.weight) a.payload b.payload])
        (by rw [length_queuePlace]; omega) (by rw [length_queuePlace]; omega)
      simp only [length_queuePlace, List.length_append, List.length_cons, List.length_nil] at h
      simp only [mergeNodes, List.length_cons]
      omega

/-- Every leaf of the mapping goes into the queue. -/
theorem length_enqueueLeaves (freq : Cells Nat) (i : Nat) (q : List QEntry) :
    (enqueueLeaves freq i q).length = q.length + freq.length := by
  induction freq generalizing i q with
  | nil => rfl
  | cons e rest ih =>
    rw [enqueueLeaves, ih, length_queuePlace, List.length_cons]
    omega

/-- A mapping of n ≥ 1 symbols builds an arena of 2n - 1 nodes and leaves one queue entry. -/
theorem buildArena_lengths (freq : Cells Nat) (h : 1 ≤ freq.length) :
    (buildArena freq).1.length = 1 ∧ (buildArena freq).2.length = 2 * freq.length - 1 := by
  have hl : (enqueueLeaves freq 0 []).length = freq.length := by simp [length_enqueueLeaves]
  have hm := mergeNodes_lengths freq.length (enqueueLeaves freq 0 []) (leavesOf freq)
    (by omega) (by omega)
  rw [hl, show (leavesOf freq).length = freq.length by simp [leavesOf]] at hm
  refine ⟨hm.1, ?_⟩
  show (mergeNodes freq.length (enqueueLeaves freq 0 []) (leavesOf freq)).2.length = _
  omega

/-- The entries of the table a visit leaves: those of before, and entries for leaves of the arena. -/
theorem mem_visit {arena : List Node} {fuel i d path : Nat} {tab : Cells Codeword} {e : Nat × Codeword}
    (h : e ∈ visit arena fuel i d path tab) :
    e ∈ tab ∨ ∃ j, (arenaNode arena j).isLeaf = true ∧ e.1 = (arenaNode arena j).sym := by
  induction fuel generalizing i d path tab with
  | zero => exact .inl h
  | succ fuel ih =>
    simp only [visit] at h
    split at h
    · next hl =>
      rcases mem_cellPut h with rfl | h
      · exact .inr ⟨i, hl, rfl⟩
      · exact .inl h
    · rcases ih h with h | h
      · exact ih h
      · exact .inr h

/-- A visit keeps the table canonical. -/
theorem cellsRising_visit (arena : List Node) (fuel i d path : Nat) (tab : Cells Codeword)
    (h : cellsRising tab = true) : cellsRising (visit arena fuel i d path tab) = true := by
  induction fuel generalizing i d path tab with
  | zero => exact h
  | succ fuel ih =>
    simp only [visit]
    split
    · exact cellsRising_cellPut _ _ _ h
    · exact ih _ _ _ _ (ih _ _ _ _ h)

/-- The code table of any arena is canonical. -/
theorem cellsRising_codeTableOf (arena : List Node) (root : Nat) : cellsRising (codeTableOf arena root) = true := by
  unfold codeTableOf
  split
  · rfl
  · exact cellsRising_visit _ _ _ _ _ _ rfl

end Sys2Proof.Machine
end

