-- ==== Sys2Proof/Laws/Step.lean ====
section
/-! SUPPORT. What a step can do, said once: each command as the completion of its pseudocode, and the cases of a step that goes on. -/

namespace Sys2Proof.Machine

/-- The pseudocode of each command. -/
def bodyOf : Instr → State → CmdEnd
  | .nop => done
  | .clear => clearBody
  | .freqClear => freqClearBody
  | .freqSet => freqSetBody
  | .freqUnset => freqUnsetBody
  | .freqGet => freqGetBody
  | .pqClear => pqClearBody
  | .pqInsert => pqInsertBody
  | .pqExtractMin => pqExtractMinBody
  | .buildTree => buildTreeBody
  | .nodeRead => nodeReadBody
  | .buildCodeTable => buildCodeTableBody
  | .codeRead => codeReadBody
  | .encode => encodeBody
  | .decode => decodeBody

/-- Every command is the completion of its pseudocode. -/
theorem exec_eq_complete (i : Instr) (s : State) : exec i s = complete (bodyOf i) s := by cases i <;> rfl

theorem exec_eq_next {i : Instr} {s t : State} : exec i s = .next t ↔ t = epilogue (bodyOf i (prologue s)) := by
  rw [exec_eq_complete, complete_eq_next]

/-- The pseudocode an issued word runs: its command's, or ILLEGAL_CMD's. -/
def bodyOfIssued (c : Issued) : State → CmdEnd :=
  match decode c.word with
  | some i => bodyOf i
  | none => illegalBody c.word

theorem completeIssued_eq (c : Issued) (s : State) : completeIssued c s = complete (bodyOfIssued c) s := by
  unfold completeIssued bodyOfIssued
  cases h : decode c.word with
  | none => rfl
  | some i => exact exec_eq_complete i s

/-- The block's turn either changes nothing, being Idle or held in reset, or completes the command in flight. -/
theorem blockTurn_next {s t : State} (h : blockTurn s = .next t) :
    (t = s ∧ (s.resetHeld = true ∨ s.ctl = .idle))
    ∨ ∃ c, s.resetHeld = false ∧ s.ctl = .busy c ∧ t = epilogue (bodyOfIssued c (prologue s)) := by
  unfold blockTurn at h
  split at h
  · next hh =>
    cases h
    exact .inl ⟨rfl, .inl hh⟩
  · next hh =>
    split at h
    · next hi =>
      cases h
      exact .inl ⟨rfl, .inr hi⟩
    · next c hc =>
      rw [completeIssued_eq, complete_eq_next] at h
      exact .inr ⟨c, by simpa using hh, hc, h⟩

/-- A host access that goes on is an aligned word access inside the aperture with reset released, and is a read or a
write of the location its offset names. -/
theorem hostAccess_next {a : Access} {s t : State} (h : hostAccess a s = .next t) :
    s.resetHeld = false ∧ s.cfg.baseAddr ≤ a.addr ∧ a.addr < s.cfg.baseAddr + 0x10000 ∧ a.bytes = 4
    ∧ (a.addr - s.cfg.baseAddr) % 4 = 0
    ∧ ((a.kind = .read ∧ t = hostRead (locate s.cfg (a.addr - s.cfg.baseAddr)) s)
      ∨ ∃ v, a.kind = .write v ∧ t = hostWrite (locate s.cfg (a.addr - s.cfg.baseAddr)) v s) := by
  unfold hostAccess at h
  split at h
  · cases h
  · next hr =>
    split at h
    · cases h
    · next ha =>
      split at h
      · cases h
      · next hb =>
        split at h
        · cases h
        · next hm =>
          refine ⟨by simpa using hr, by omega, by omega, by omega, by omega, ?_⟩
          cases hk : a.kind with
          | read =>
            rw [hk] at h
            cases h
            exact .inl ⟨rfl, rfl⟩
          | write v =>
            rw [hk] at h
            cases h
            exact .inr ⟨v, rfl, rfl⟩

/-- A host read changes only the host's word and the draw counter. -/
theorem hostRead_eq (loc : Loc) (s : State) :
    hostRead loc s = { s with rdata := (hostRead loc s).rdata, draws := (hostRead loc s).draws }
    ∧ (hostRead loc s).rdata.isSome = true := by
  unfold hostRead
  split <;> exact ⟨rfl, rfl⟩

/-- A write while Busy changes OVERRUN at most. -/
theorem writeBusy_eq (loc : Loc) (v : Word) (s : State) :
    writeBusy v s loc = { s with overrun := (writeBusy v s loc).overrun } := by
  unfold writeBusy
  split
  · unfold writeStatus
    split <;> rfl
  · rfl

/-- A write to STATUS changes nothing, or clears OVERRUN. -/
theorem writeStatus_cases (v : Word) (s : State) : writeStatus v s = s ∨ writeStatus v s = { s with overrun := false } := by
  unfold writeStatus
  split
  · exact .inr rfl
  · exact .inl rfl

/-- The cases of a write while Idle. -/
theorem writeLoc_cases (loc : Loc) (v : Word) (s : State) :
    writeLoc v s loc = s ∨ writeLoc v s loc = { s with arg0 := v } ∨ writeLoc v s loc = { s with arg1 := v }
    ∨ writeLoc v s loc = { s with arg2 := v } ∨ writeLoc v s loc = { s with overrun := false }
    ∨ (loc = .reg .cmd ∧ writeLoc v s loc = issue v s)
    ∨ (∃ i, loc = .symbuf i ∧ writeLoc v s loc = s.symWrite i (v.toNat % s.cfg.alphabet))
    ∨ ∃ w, loc = .bitbuf w
        ∧ writeLoc v s loc = { s with bitbuf := putBits (32 * w) (fun j => v.getLsbD j) 32 s.bitbuf } := by
  cases loc with
  | reg r =>
    cases r with
    | status =>
      rcases writeStatus_cases v s with h | h
      · exact .inl h
      · exact .inr (.inr (.inr (.inr (.inl h))))
    | _ => simp [writeLoc]
  | symbuf i => simp [writeLoc]
  | bitbuf w => simp [writeLoc]
  | reserved => simp [writeLoc]

/-- The offsets a window access can name: inside the buffer, and the last bit of a word below B. -/
theorem locate_symbuf {p : Params} {off i : Nat} (h : locate p off = .symbuf i) : i < p.symDepth := by
  unfold locate at h
  split at h
  · cases h
    omega
  · split at h
    · cases h
    · split at h <;> cases h

theorem locate_bitbuf {p : Params} {off w : Nat} (h : locate p off = .bitbuf w) (ha : off % 4 = 0)
    (hp : p.bitDepth % 32 = 0) : 32 * w + 32 ≤ p.bitDepth := by
  unfold locate at h
  split at h
  · cases h
  · split at h
    · cases h
      omega
    · split at h <;> cases h

/-- A step that goes on is one of these: the block's turn, a host access, or an edge of reset. -/
theorem step_next {s t : State} (h : step s = .next t) :
    (s.events = [] ∧ blockTurn s = .next t)
    ∨ ∃ es, (s.events = .block :: es ∧ blockTurn { s with events := es } = .next t)
      ∨ (∃ a, s.events = .access a :: es ∧ hostAccess a { s with events := es } = .next t)
      ∨ (s.events = .resetAssert :: es ∧ t = hardwareReset { s with events := es })
      ∨ (s.events = .resetRelease :: es ∧ t = { s with events := es, resetHeld := false }) := by
  unfold step at h
  split at h
  · next he => exact .inl ⟨he, h⟩
  · next e es he =>
    refine .inr ⟨es, ?_⟩
    cases e with
    | block => exact .inl ⟨he, h⟩
    | access a => exact .inr (.inl ⟨a, he, h⟩)
    | resetAssert =>
      cases h
      exact .inr (.inr (.inl ⟨he, rfl⟩))
    | resetRelease =>
      cases h
      exact .inr (.inr (.inr ⟨he, rfl⟩))

end Sys2Proof.Machine
end

