-- ==== Sys2Proof/Laws/Port.lean ====
section
/-! SUPPORT. The slave port, said once: a supported read or write as one step, what each offset names, and the values a word carries. -/

namespace Sys2Proof.Machine

/-! ### One access as a step -/

/-- One aligned word read inside the aperture is `hostRead` of the place its offset names. -/
theorem step_reading {s : State} {off : Nat} (hr : s.resetHeld = false) (ho : off < 0x10000) (ha : off % 4 = 0) :
    step (s.reading off) = .next (hostRead (locate s.cfg off) s) := by
  have hin : ¬ (s.cfg.baseAddr + off < s.cfg.baseAddr ∨ s.cfg.baseAddr + 0x10000 ≤ s.cfg.baseAddr + off) := by omega
  have hoff : s.cfg.baseAddr + off - s.cfg.baseAddr = off := by omega
  show hostAccess { kind := .read, bytes := 4, addr := s.cfg.baseAddr + off } s = _
  unfold hostAccess
  rw [if_neg (by simp [hr]), if_neg hin, if_neg (by simp), hoff, if_neg (by omega)]

/-- One aligned word write inside the aperture is `hostWrite` of the place its offset names. -/
theorem step_writing {s : State} {off : Nat} (v : Word) (hr : s.resetHeld = false) (ho : off < 0x10000)
    (ha : off % 4 = 0) : step (s.writing off v) = .next (hostWrite (locate s.cfg off) v s) := by
  have hin : ¬ (s.cfg.baseAddr + off < s.cfg.baseAddr ∨ s.cfg.baseAddr + 0x10000 ≤ s.cfg.baseAddr + off) := by omega
  have hoff : s.cfg.baseAddr + off - s.cfg.baseAddr = off := by omega
  show hostAccess { kind := .write v, bytes := 4, addr := s.cfg.baseAddr + off } s = _
  unfold hostAccess
  rw [if_neg (by simp [hr]), if_neg hin, if_neg (by simp), hoff, if_neg (by omega)]

theorem busy_of_idle {s : State} (h : s.ctl = .idle) : s.busy = false := by simp [State.busy, h]

theorem busy_of_busy {s : State} {c : Issued} (h : s.ctl = .busy c) : s.busy = true := by simp [State.busy, h]

/-- Where nothing is in flight, a supported offset reads as what it names holds. -/
theorem readsAs_readLoc {s : State} {off : Nat} (hr : s.resetHeld = false) (ho : off < 0x10000) (ha : off % 4 = 0)
    (hi : (s.busy && inFlight (locate s.cfg off)) = false) : ReadsAs s off (readLoc s (locate s.cfg off)) := by
  unfold ReadsAs
  rw [step_reading hr ho ha]
  simp [hostRead, hi]

/-! ### The register map -/

/-- The bounds of legal parameters (00_scope.md R6 to R12). -/
theorem legal_bounds {p : Params} (h : p.legal = true) :
    1 ≤ p.symW ∧ p.symW ≤ 15 ∧ 1 ≤ p.freqW ∧ p.freqW ≤ 32 ∧ 1 ≤ p.symDepth ∧ p.symDepth ≤ 4096
    ∧ p.bitDepth % 32 = 0 ∧ 32 ≤ p.bitDepth ∧ p.bitDepth ≤ 262144 ∧ p.baseAddr % 0x10000 = 0 := by
  simpa [Params.legal, and_assoc] using h

/-- N is at most 2^15 and at least 2. -/
theorem alphabet_bounds {p : Params} (h : p.legal = true) : 2 ≤ p.alphabet ∧ p.alphabet ≤ 2 ^ 15 := by
  obtain ⟨h1, h2, _⟩ := legal_bounds h
  exact ⟨Nat.pow_le_pow_right (n := 2) (by omega) h1, Nat.pow_le_pow_right (by omega) h2⟩

theorem locate_low {p : Params} {off : Nat} (h : off < 0x4000) :
    locate p off = (match cellGet off regMap with | some r => .reg r | none => .reserved) := by
  have h1 : ¬ (0x4000 ≤ off ∧ off < 0x4000 + 4 * p.symDepth) := by omega
  have h2 : ¬ (0x8000 ≤ off ∧ off < 0x8000 + p.bitDepth / 8) := by omega
  exact (if_neg h1).trans (if_neg h2)

/-- Each named register stands at its offset. -/
theorem locate_reg {p : Params} {off : Nat} {r : Reg} (h : off < 0x4000) (hr : cellGet off regMap = some r) :
    locate p off = .reg r := by
  rw [locate_low h, hr]

theorem locate_symWindow {p : Params} {i : Nat} (h : i < p.symDepth) : locate p (0x4000 + 4 * i) = .symbuf i := by
  unfold locate
  rw [if_pos (by omega)]
  congr 1
  omega

theorem locate_bitWindow {p : Params} {w : Nat} (hp : p.legal = true) (h : w < p.bitDepth / 32) :
    locate p (0x8000 + 4 * w) = .bitbuf w := by
  have := legal_bounds hp
  unfold locate
  rw [if_neg (by omega), if_pos (by omega)]
  congr 1
  omega

/-- An index that no entry lists. -/
theorem cellGet_eq_none_of_ne {α : Type} {i : Nat} {m : Cells α} (h : ∀ e ∈ m, i ≠ e.1) : cellGet i m = none := by
  induction m with
  | nil => rfl
  | cons d rest ih =>
    obtain ⟨k, w⟩ := d
    rw [cellGet, if_neg (h _ (List.mem_cons_self ..)), ih fun e he => h e (List.mem_cons_of_mem _ he)]

theorem regMap_below : cellsBelow 0x40 regMap = true := rfl

theorem locate_reserved {p : Params} {off : Nat} (hp : p.legal = true) (h : ReservedOffset p off) :
    locate p off = .reserved := by
  have := legal_bounds hp
  obtain ⟨-, h⟩ := h
  have hnone : cellGet off regMap = none := by
    refine cellGet_eq_none_of_ne fun e he => ?_
    have hb := regMap_below
    simp only [cellsBelow, List.all_eq_true, decide_eq_true_eq] at hb
    have := hb e he
    omega
  unfold locate
  rw [if_neg (by omega), if_neg (by omega), hnone]

/-! ### Values in words -/

theorem toNat_zext32 {v : Nat} (h : v < 2 ^ 32) : (zext32 v).toNat = v := by
  simp only [zext32, BitVec.toNat_ofNat, Nat.mod_eq_of_lt h]

theorem opWeight_eq (s : State) : s.opWeight = s.op0.toNat + 2 ^ 32 * s.op1.toNat := by
  have h := s.op0.isLt
  simp only [State.opWeight, BitVec.toNat_append]
  rw [Nat.shiftLeft_eq, Nat.mul_comm, ← Nat.two_pow_add_eq_or_of_lt h, Nat.add_comm]

/-- The low word and the bits above it make the value. -/
theorem split32 {v w : Nat} (h : v < 2 ^ w) : bitRange v 31 0 + 2 ^ 32 * bitRange v (w - 1) 32 = v := by
  simp only [bitRange, Nat.shiftRight_eq_div_pow, Nat.pow_zero, Nat.div_one]
  by_cases hw : w ≤ 32
  · have h32 : v < 2 ^ 32 := Nat.lt_of_lt_of_le h (Nat.pow_le_pow_right (by omega) hw)
    rw [show w - 1 + 1 - 32 = 0 by omega]
    omega
  · rw [show w - 1 + 1 - 32 = w - 32 by omega, Nat.mod_eq_of_lt (a := v / 2 ^ 32)]
    · omega
    · rw [Nat.div_lt_iff_lt_mul (by decide), ← Nat.pow_add]
      rwa [show w - 32 + 32 = w by omega]

end Sys2Proof.Machine
end

