-- ==== Sys2Proof/Laws/Commands.lean ====
section
/-! SUPPORT. How a command ends, said once: a failure before any effect, and what `done` and `fail` leave after the epilogue. -/

namespace Sys2Proof.Machine

/-! ### The prologue leaves what a command reads -/

@[simp] theorem op0_prologue (s : State) : (prologue s).op0 = s.op0 := rfl
@[simp] theorem op1_prologue (s : State) : (prologue s).op1 = s.op1 := rfl
@[simp] theorem op2_prologue (s : State) : (prologue s).op2 = s.op2 := rfl
@[simp] theorem opWeight_prologue (s : State) : (prologue s).opWeight = s.opWeight := rfl
@[simp] theorem symRead_prologue (s : State) (i : Nat) : (prologue s).symRead i = s.symRead i := rfl
@[simp] theorem bitRead_prologue (s : State) (k : Nat) : (prologue s).bitRead k = s.bitRead k := rfl

/-! ### Ends -/

theorem samePort_refl (s : State) : SamePort s s := ⟨rfl, rfl, rfl, rfl, rfl, rfl, rfl, rfl, rfl, rfl⟩

theorem sameTables_refl (s : State) : SameTables s s :=
  ⟨samePort_refl s, rfl, rfl, ⟨rfl, rfl, rfl, rfl⟩, ⟨rfl, rfl⟩, fun _ => rfl, fun _ => rfl⟩

/-- A command whose pseudocode fails at once changes nothing but the report. -/
theorem failsCleanly_of_body {i : Instr} {s : State} {e : ErrCode} {info : Word}
    (h : bodyOf i (prologue s) = fail e info (prologue s)) : FailsCleanly i s e info := by
  refine ⟨_, exec_eq_next.2 rfl, ?_⟩
  rw [h]
  exact ⟨⟨rfl, rfl, rfl, rfl, rfl, rfl⟩, sameTables_refl s⟩

/-! ### Sparse tables under a write -/

/-- A write to a canonical table lists at most one more entry. -/
theorem length_cellPut {α : Type} (i : Nat) (v : α) (m : Cells α) (h : cellsRising m = true) :
    (cellPut i v m).length = m.length + (if (cellGet i m).isSome then 0 else 1) := by
  induction m with
  | nil => rfl
  | cons d rest ih =>
    obtain ⟨k, w⟩ := d
    have ⟨h1, h2⟩ := cellsRising_cons.1 h
    rcases Nat.lt_trichotomy i k with hlt | heq | hgt
    · have hnone : cellGet i ((k, w) :: rest) = none :=
        cellGet_eq_none_of_lt fun e he => by
          rcases List.mem_cons.1 he with rfl | he
          · exact hlt
          · exact Nat.lt_trans hlt (h1 e he)
      simp [hnone, cellPut, hlt]
    · subst heq
      simp [cellPut, cellGet]
    · have hne : i ≠ k := by omega
      have hnl : ¬ i < k := by omega
      simp only [cellPut, cellGet, if_neg hne, if_neg hnl, List.length_cons, ih h2]
      omega

theorem mem_of_cellGet {α : Type} {i : Nat} {v : α} {m : Cells α} (h : cellGet i m = some v) : (i, v) ∈ m := by
  induction m with
  | nil => cases h
  | cons d rest ih =>
    obtain ⟨k, w⟩ := d
    by_cases hk : i = k
    · subst hk
      simp only [cellGet, if_true, Option.some.injEq] at h
      subst h
      exact List.mem_cons_self ..
    · simp only [cellGet, if_neg hk] at h
      exact List.mem_cons_of_mem _ (ih h)

end Sys2Proof.Machine
end

