-- ==== Sys2Proof/Laws/PerInstr.lean ====
section
/-! SUPPORT. The law of the encoding, one lemma per command: its word decodes to it, is legal, and has RSV = 0. -/

namespace Sys2Proof.Laws.Encoding

/-- What 30_encoding.md R71 and R73 ask of a command's word. -/
def Statement (i : Instr) : Prop :=
  decode (encode i) = some i ∧ legalWord (encode i) = true ∧ rsvOf (encode i) = 0#24 ∧ opcOf (encode i) = opcodeOf i

theorem nop : Statement .nop := by unfold Statement; decide
theorem clear : Statement .clear := by unfold Statement; decide
theorem freqClear : Statement .freqClear := by unfold Statement; decide
theorem freqSet : Statement .freqSet := by unfold Statement; decide
theorem freqUnset : Statement .freqUnset := by unfold Statement; decide
theorem freqGet : Statement .freqGet := by unfold Statement; decide
theorem pqClear : Statement .pqClear := by unfold Statement; decide
theorem pqInsert : Statement .pqInsert := by unfold Statement; decide
theorem pqExtractMin : Statement .pqExtractMin := by unfold Statement; decide
theorem buildTree : Statement .buildTree := by unfold Statement; decide
theorem nodeRead : Statement .nodeRead := by unfold Statement; decide
theorem buildCodeTable : Statement .buildCodeTable := by unfold Statement; decide
theorem codeRead : Statement .codeRead := by unfold Statement; decide
theorem encode : Statement .encode := by unfold Statement; decide
theorem decode : Statement .decode := by unfold Statement; decide

end Sys2Proof.Laws.Encoding
end

