-- ==== Sys2Proof/Tests/Slice0.lean ====
section
/-! SUPPORT. The model's own tests, with results taken from spec/95_test_vectors.md or worked out from the rules, and a witness for the
hypotheses of every statement. -/

namespace Sys2Proof.Tests

open Sys2Proof Sys2Proof.Machine

/-! ### Legal words and parameters: each check refuses an ill-formed term (30_encoding.md R71; 00_scope.md R6 to R12) -/

/-- The spec's default parameters, standing at a chosen address. -/
def dflt : Params := { symW := 8, freqW := 32, symDepth := 4096, bitDepth := 65536, baseAddr := 0x10000 }

theorem test_legal_dflt : dflt.legal = true := by decide
theorem test_illegal_symW_low : ({ dflt with symW := 0 } : Params).legal = false := by decide
theorem test_illegal_symW_high : ({ dflt with symW := 16 } : Params).legal = false := by decide
theorem test_illegal_freqW_low : ({ dflt with freqW := 0 } : Params).legal = false := by decide
theorem test_illegal_freqW_high : ({ dflt with freqW := 33 } : Params).legal = false := by decide
theorem test_illegal_symDepth_low : ({ dflt with symDepth := 0 } : Params).legal = false := by decide
theorem test_illegal_symDepth_high : ({ dflt with symDepth := 4097 } : Params).legal = false := by decide
theorem test_illegal_bitDepth_multiple : ({ dflt with bitDepth := 48 } : Params).legal = false := by decide
theorem test_illegal_bitDepth_low : ({ dflt with bitDepth := 0 } : Params).legal = false := by decide
theorem test_illegal_bitDepth_high : ({ dflt with bitDepth := 262176 } : Params).legal = false := by decide
theorem test_illegal_baseAddr : ({ dflt with baseAddr := 0x10004 } : Params).legal = false := by decide
theorem test_illegal_word_rsv : legalWord 0x00000110#32 = false := by decide
theorem test_illegal_word_opc : legalWord 0x00000006#32 = false := by decide

/-! ### Decoding: every command's word, written out from 30_encoding.md R73, and the ends of every gap (R74) -/

theorem test_decode_nop : decode 0b00000000000000000000000000000000#32 = some .nop := by decide
theorem test_decode_clear : decode 0b00000000000000000000000000000001#32 = some .clear := by decide
theorem test_decode_freqClear : decode 0b00000000000000000000000000000010#32 = some .freqClear := by decide
theorem test_decode_freqSet : decode 0b00000000000000000000000000000011#32 = some .freqSet := by decide
theorem test_decode_freqUnset : decode 0b00000000000000000000000000000100#32 = some .freqUnset := by decide
theorem test_decode_freqGet : decode 0b00000000000000000000000000000101#32 = some .freqGet := by decide
theorem test_decode_pqClear : decode 0b00000000000000000000000000001000#32 = some .pqClear := by decide
theorem test_decode_pqInsert : decode 0b00000000000000000000000000001001#32 = some .pqInsert := by decide
theorem test_decode_pqExtractMin : decode 0b00000000000000000000000000001010#32 = some .pqExtractMin := by decide
theorem test_decode_buildTree : decode 0b00000000000000000000000000010000#32 = some .buildTree := by decide
theorem test_decode_nodeRead : decode 0b00000000000000000000000000010001#32 = some .nodeRead := by decide
theorem test_decode_buildCodeTable : decode 0b00000000000000000000000000011000#32 = some .buildCodeTable := by decide
theorem test_decode_codeRead : decode 0b00000000000000000000000000011001#32 = some .codeRead := by decide
theorem test_decode_encode : decode 0b00000000000000000000000000100000#32 = some .encode := by decide
theorem test_decode_decode : decode 0b00000000000000000000000000101000#32 = some .decode := by decide

/-- ILL-1, ILL-2, ILL-3, ILL-4, ILL-5: the ends of each gap of the opcode map, and words with RSV ≠ 0. -/
theorem test_decode_illegal : [0x06#32, 0x07#32, 0x0B#32, 0x0F#32, 0x12#32, 0x17#32, 0x1A#32, 0x1F#32, 0x21#32, 0x27#32,
    0x29#32, 0xFF#32, 0x100#32, 0x110#32, 0xFFFFFFFF#32].all (fun w => decode w == none) = true := by decide +kernel

/-! ### States the tests start from -/

/-- The outcome is a next state. -/
def isNext (o : Host.Outcome State Fault Refusal) : Bool :=
  match o with
  | .next _ => true
  | .fault _ => false
  | .refused _ => false

/-- The fault of an outcome, if it is one. -/
def faultOf (o : Host.Outcome State Fault Refusal) : Option Fault :=
  match o with
  | .next _ => none
  | .fault r => some r
  | .refused _ => none

/-- The state one step on; the state itself where the step stops. -/
def after (s : State) : State := nextOr s (step s)

/-- The state after reset, under parameters `p`. -/
def fresh (p : Params) : State := { State.reset with cfg := p }

/-- What command `i` leaves, with ARG0 to ARG2 as given. -/
def run (i : Instr) (a b c : Word) (s : State) : State :=
  nextOr s (exec i { s with ctl := .idle, arg0 := a, arg1 := b, arg2 := c })

/-- ERR and ERR_INFO of a state. -/
def outcome (s : State) : ErrCode × Word := (s.err, s.errInfo)

/-- RES0 to RES2 of a state. -/
def results (s : State) : Word × Word × Word := (s.res0, s.res1, s.res2)

/-- TB-1: the tree of A 5, B 2, C 1, D 1, R 2, transcribed from the vector. -/
def abraTree (p : Params) : State :=
  { fresh p with
    freq := [(0x41, 5), (0x42, 2), (0x43, 1), (0x44, 1), (0x52, 2)]
    nodes := [leafNode 0x41 5, leafNode 0x42 2, leafNode 0x43 1, leafNode 0x44 1, leafNode 0x52 2,
      internalNode 2 2 3, internalNode 4 1 4, internalNode 6 5 6, internalNode 11 0 7]
    root := 8, nodeUsed := 9, treeValid := true }

/-- CT-1: its code table, A "0", C "100", D "101", B "110", R "111", first bit at bit 0. -/
def abraTable (p : Params) : State :=
  { abraTree p with
    code := [(0x41, ⟨1, 0b0⟩), (0x42, ⟨3, 0b011⟩), (0x43, ⟨3, 0b001⟩), (0x44, ⟨3, 0b101⟩), (0x52, ⟨3, 0b111⟩)]
    tableValid := true }

/-- "ABRACADABRA" as SYMBUF entries from 0. -/
def abraSyms : Cells Nat :=
  [(0, 0x41), (1, 0x42), (2, 0x52), (3, 0x41), (4, 0x43), (5, 0x41), (6, 0x44), (7, 0x41), (8, 0x42), (9, 0x52), (10, 0x41)]

/-- A small machine: S = 2, F = 3, L = 2, B = 32. -/
def tiny : Params := { symW := 2, freqW := 3, symDepth := 2, bitDepth := 32, baseAddr := 0x20000 }

/-- TB-4 on the small machine: symbols 0, 1, 2 of frequency 1, 1, 2. -/
def tinyTree : State :=
  { fresh tiny with
    freq := [(0, 1), (1, 1), (2, 2)]
    nodes := [leafNode 0 1, leafNode 1 1, leafNode 2 2, internalNode 2 0 1, internalNode 4 2 3]
    root := 4, nodeUsed := 5, treeValid := true }

/-- CT-5 on the small machine: 2 "0", 0 "10", 1 "11". -/
def tinyTable : State :=
  { tinyTree with code := [(0, ⟨2, 0b01⟩), (1, ⟨2, 0b11⟩), (2, ⟨1, 0b0⟩)], tableValid := true }

/-- A one-leaf tree on the small machine. -/
def tinyLeaf : State :=
  { fresh tiny with freq := [(1, 5)], nodes := [leafNode 1 5], root := 0, nodeUsed := 1, treeValid := true }

/-- `s` with the command word `w` in flight over its ARG registers. -/
def inFlightOf (w : Word) (s : State) : State := issue w s

/-! ### The commands -/

/-- CTL-1. -/
theorem test_nop_clears_report :
    let t := run .nop 0 0 0 { abraTable dflt with err := .unknownSymbol, errInfo := 1, res0 := 1 }
    (outcome t, results t, t.nodes.length, t.code.length) = ((.ok, 0), (0, 0, 0), 9, 5) := by decide

/-- CTL-2: only OVERRUN is left in STATUS, and ARG0 to ARG2 stay. -/
theorem test_clear :
    let t := run .clear 1 2 3 { abraTable dflt with overrun := true }
    (statusWord t, treeInfoWord t, t.freqCount, t.arg0, t.arg1, t.arg2) = (0x00000008, 0, 0, 1, 2, 3) := by decide

/-- FR-10. -/
theorem test_freqClear_keeps_tree :
    let t := run .freqClear 0 0 0 (abraTable dflt)
    (t.freqCount, statusWord t, treeInfoWord t) = (0, 0x00000006, 0x00090008) := by decide

/-- FR-5: setting a present symbol replaces its frequency. -/
theorem test_freqSet_replaces :
    let t := run .freqSet 0x41 7 0 (abraTree dflt)
    (t.freqOf 0x41, t.freqCount, outcome t) = (7, 5, (.ok, 0)) := by decide

/-- FR-9: F = 16, and a frequency of 17 bits. -/
theorem test_freqSet_too_wide :
    let t := run .freqSet 0x41 0x10000 0 { fresh { dflt with freqW := 16 } with freq := [(0x41, 0xFFFF)] }
    (outcome t, t.freqOf 0x41) = ((.badArg, 1), 0xFFFF) := by decide

/-- FR-2. -/
theorem test_freqUnset :
    let t := run .freqUnset 7 0 0 { fresh dflt with freq := [(7, 9)] }
    (t.present 7, t.freqCount, outcome t) = (false, 0, (.ok, 0)) := by decide

/-- FR-7. -/
theorem test_freqUnset_bad : outcome (run .freqUnset 256 0 0 (fresh dflt)) = (.badArg, 0) := by decide

/-- FR-4: present with frequency 0. -/
theorem test_freqGet_zero : results (run .freqGet 0x41 0 0 { fresh dflt with freq := [(0x41, 0)] }) = (0, 1, 0) := by decide

/-- FR-3: absent. -/
theorem test_freqGet_absent : results (run .freqGet 0x5A 0 0 (abraTree dflt)) = (0, 0, 0) := by decide

/-- PQ-9. -/
theorem test_pqClear : (run .pqClear 0 0 0 { fresh dflt with queue := [⟨3, 7⟩] }).queue = [] := by decide

/-- PQ-10: after the entries of equal weight. -/
theorem test_pqInsert_tie :
    (run .pqInsert 3 0 4 { fresh dflt with queue := [⟨3, 2⟩, ⟨5, 1⟩] }).queue = [⟨3, 2⟩, ⟨3, 4⟩, ⟨5, 1⟩] := by decide

/-- PQ-11: F = 16, W = 24. -/
theorem test_pqInsert_too_wide :
    outcome (run .pqInsert 0x1000000 0 0 (fresh { dflt with freqW := 16 })) = (.badArg, 1) := by decide

/-- PQ-4: the largest weight and payload come back whole. -/
theorem test_pqExtractMin_widest :
    results (run .pqExtractMin 0 0 0 { fresh dflt with queue := [⟨0xFFFFFFFFFF, 0xFFFF⟩] })
      = (0xFFFFFFFF, 0x000000FF, 0x0000FFFF) := by decide

/-- PQ-3. -/
theorem test_pqExtractMin_empty : outcome (run .pqExtractMin 0 0 0 (fresh dflt)) = (.emptyQueue, 0) := by decide

/-- TB-1. -/
theorem test_buildTree_abracadabra :
    let t := run .buildTree 0 0 0 { fresh dflt with freq := (abraTree dflt).freq, queue := [⟨1, 0⟩] }
    (t.nodes, t.queue, results t) = ((abraTree dflt).nodes, [], (8, 9, 5)) := by decide +kernel

/-- TB-5: all frequencies 0. -/
theorem test_buildTree_zero_frequencies :
    (run .buildTree 0 0 0 { fresh dflt with freq := [(0x41, 0), (0x42, 0), (0x43, 0)] }).nodes.drop 3
      = [internalNode 0 0 1, internalNode 0 2 3] := by decide

/-- NR-2: an internal node. -/
theorem test_nodeRead_internal : results (run .nodeRead 7 0 0 (abraTree dflt)) = (0x6, 0x40000000, 0x00060005) := by decide

/-- NR-5: weight bit 32 in RES1. -/
theorem test_nodeRead_wide :
    results (run .nodeRead 2 0 0 { fresh dflt with
      nodes := [leafNode 0 0xFFFFFFFF, leafNode 0xFF 0xFFFFFFFF, internalNode 0x1FFFFFFFE 0 1]
      root := 2, nodeUsed := 3, treeValid := true }) = (0xFFFFFFFE, 0x40000001, 0x00010000) := by decide

/-- CT-1. -/
theorem test_buildCodeTable_abracadabra :
    let t := run .buildCodeTable 0 0 0 (abraTree dflt)
    (t.code, t.tableValid, results t) = ((abraTable dflt).code, true, (5, 0, 0)) := by decide +kernel

/-- CT-2: the one-leaf tree. -/
theorem test_buildCodeTable_one_leaf : (run .buildCodeTable 0 0 0 tinyLeaf).code = [(1, ⟨1, 0⟩)] := by decide

/-- CR-6: the second word of a codeword of 39 ones. -/
theorem test_codeRead_second_word :
    results (run .codeRead 0x31 1 0 { fresh dflt with code := [(0x31, ⟨39, 0x7FFFFFFFFF⟩)] })
      = (0x0000007F, 0x80000027, 0) := by decide

/-- CR-4. -/
theorem test_codeRead_bad_word : outcome (run .codeRead 0 8 0 (fresh dflt)) = (.badArg, 1) := by decide

/-- ENC-1. -/
theorem test_encode_abracadabra :
    let t := run .encode 11 0 0 { abraTable dflt with symbuf := abraSyms, bitbuf := putBits 0 (fun _ => false) 32 [] }
    (t.bitsValue 0 32, results t, outcome t) = (0x003B5176, (23, 0, 0), (.ok, 0)) := by decide +kernel

/-- EX-7: the symbol without a codeword is reported, and the bit before it is written. -/
theorem test_encode_unknown :
    let t := run .encode 2 0 0 { fresh dflt with
      code := [(0x41, ⟨1, 0⟩), (0x42, ⟨1, 1⟩)], symbuf := [(0, 0x41), (1, 0x5A)], bitbuf := [(0, true), (1, true)] }
    (outcome t, t.res0, t.bitbuf) = ((.unknownSymbol, 1), 1, [(0, false), (1, true)]) := by decide

/-- DEC-4: the stream ends inside a codeword. -/
theorem test_decode_truncated :
    let t := run .decode 2 0 0 { tinyTree with bitbuf := [(0, false), (1, true)] }
    (outcome t, t.res0, t.symbuf) = ((.truncatedStream, 1), 1, [(0, 2)]) := by decide

/-- DEC-10 and DEC-2 on the small machine: every bit emits, until SYMBUF is full. -/
theorem test_decode_one_leaf_overflow :
    let t := run .decode 3 0 0 { tinyLeaf with bitbuf := [(0, false), (1, true), (2, true)] }
    (outcome t, t.res0, t.symbuf) = ((.bufferOverflow, 2), 2, [(0, 1), (1, 1)]) := by decide

/-! ### The port and the step -/

/-- PORT-1. -/
theorem test_cfg0 : (after ((fresh dflt).reading 0x004)).rdata = some 0x00282008 := by decide +kernel

/-- PORT-4: the bits above S are dropped. -/
theorem test_symbuf_window : (after ((fresh dflt).writing 0x4000 0x00001234)).symRead 0 = 0x34 := by decide +kernel

/-- P5, access 4: an early write is dropped and sets OVERRUN. -/
theorem test_early_write :
    let t := after ((inFlightOf 3 (fresh dflt)).writing 0x018 9)
    (t.arg1, t.overrun, t.busy) = (0, true, true) := by decide +kernel

/-- PORT-7. -/
theorem test_misaligned : faultOf (step ((fresh dflt).reading 0x0002)) = some .misaligned := by decide +kernel

/-- ILL-3: BUILD_TREE's opcode with RSV ≠ 0 builds nothing. -/
theorem test_illegal_rsv :
    let t := after (State.withFetchWord { fresh dflt with freq := [(0x41, 5)] } 32 0x110)
    (outcome t, t.treeValid) = ((.illegalCmd, 0x110), false) := by decide +kernel

/-- Every row of the opcode table decodes, and runs as the first command after reset. -/
theorem test_first_command : ∀ w ∈ [0x00, 0x01, 0x02, 0x03, 0x04, 0x05, 0x08, 0x09, 0x0A, 0x10, 0x11, 0x18, 0x19, 0x20, 0x28],
    (decodeTableWord 32 w).isSome = true ∧ isNext (step (State.reset.withFetchWord 32 w)) = true := by decide +kernel

/-! ### Witnesses: states and operands that meet the hypotheses of each statement, one for each clause -/

/-- Over `tinyTable`: SYMBUF holds 0 and 2, ARG0 = 2, and BITBUF bits 0 .. 4 are written. -/
def tinyData : State :=
  { tinyTable with
    arg0 := 2, symbuf := [(0, 0), (1, 2)]
    bitbuf := [(0, true), (1, false), (2, false), (3, true), (4, true)] }

/-- A full queue on the small machine. -/
def tinyQueue : State := { fresh tiny with queue := [⟨0, 3⟩, ⟨1, 0⟩, ⟨1, 1⟩, ⟨7, 2⟩] }

theorem witness_HardwareReset :
    let s := { inFlightOf 0x20 tinyData with events := [.resetAssert] }
    s.events = [.resetAssert] ∧ s.busy = true := by decide

theorem witness_EveryStepKeepsTheInvariant :
    [Instr.buildTree, .buildCodeTable, .encode, .decode].all (fun i =>
      (inFlightOf (encode i) tinyData).inv && isNext (step (inFlightOf (encode i) tinyData))) = true
    ∧ (tinyData.writing 0x4004 7).inv = true ∧ isNext (step (tinyData.writing 0x4004 7)) = true := by decide +kernel

theorem witness_EveryStepKeepsTheQueueInExtractionOrder :
    let s := inFlightOf 9 { tinyQueue with queue := [⟨1, 0⟩, ⟨7, 2⟩], arg0 := 1 }
    s.queueOk = true ∧ isNext (step s) = true := by decide +kernel

theorem witness_EveryStepKeepsTheBuffersCanonical :
    let s := inFlightOf 0x28 tinyData
    s.cfg.legal = true ∧ s.treeOk = true ∧ Memory.wf s = true ∧ isNext (step s) = true := by decide +kernel

theorem witness_DecodeInvertsEncode : decode 0x28#32 = some .decode := by decide

theorem witness_IllegalWords :
    [0x06#32, 0x07#32, 0x0B#32, 0x0F#32, 0x12#32, 0x17#32, 0x1A#32, 0x1F#32, 0x21#32, 0x27#32, 0x29#32, 0xFF#32, 0x100#32].all
      (fun w => decode w == none) = true ∧ tinyData.ctl = .idle ∧ tinyData.resetHeld = false := by decide +kernel

theorem witness_TheBlocksTurn :
    let s := inFlightOf 0x20 tinyData
    s.resetHeld = false ∧ s.ctl = .busy ⟨0x20, 2, 0, 0⟩ ∧ decode 0x20 = some .encode ∧ s.events = []
    ∧ ({ s with events := [.block] } : State).events = [.block] ∧ tinyData.ctl = .idle := by decide

theorem witness_AWriteToCmd :
    tinyData.resetHeld = false ∧ tinyData.ctl = .idle
    ∧ (inFlightOf 0 tinyData).resetHeld = false ∧ (inFlightOf 0 tinyData).ctl = .busy ⟨0, 2, 0, 0⟩ := by decide

theorem witness_Status :
    tinyData.resetHeld = false ∧ (inFlightOf 3 tinyData).resetHeld = false ∧ (inFlightOf 3 tinyData).ctlOk = true
    ∧ (inFlightOf 3 tinyData).busy = true := by decide

theorem witness_RegistersRead :
    tinyData.resetHeld = false ∧ tinyData.ctl = .idle ∧ tinyData.cfg.legal = true ∧ tinyData.queueOk = true
    ∧ tinyData.root < 2 ^ 16 ∧ tinyData.nodeUsed < 2 ^ 16 ∧ tinyData.freqOk = true := by decide

theorem witness_ArgumentWrites : tinyData.resetHeld = false ∧ tinyData.ctl = .idle := by decide

theorem witness_ReservedOffsets :
    tinyData.resetHeld = false ∧ tinyData.cfg.legal = true ∧ tinyData.ctl = .idle
    ∧ (∀ off ∈ [0x40, 0x3FFC, 0x4008, 0x7FFC, 0x8004, 0xFFFC], ReservedOffset tiny off)
    ∧ (inFlightOf 0 tinyData).ctl = .busy ⟨0, 2, 0, 0⟩ := by
  unfold ReservedOffset
  decide

theorem witness_ReadOnlyWrites :
    tinyData.resetHeld = false ∧ tinyData.ctl = .idle
    ∧ (tinyData.reading 0x8000).events = [.access ⟨.read, 4, 0x28000⟩] ∧ isNext (step (tinyData.reading 0x8000)) = true := by
  decide +kernel

theorem witness_SymbolWindow :
    tinyData.resetHeld = false ∧ tinyData.ctl = .idle ∧ tinyData.cfg.legal = true ∧ 1 < tinyData.cfg.symDepth := by decide

theorem witness_BitWindow :
    tinyData.resetHeld = false ∧ tinyData.ctl = .idle ∧ tinyData.cfg.legal = true ∧ 0 < tinyData.cfg.bitDepth / 32 := by decide

theorem witness_AccessesInFlight :
    let s := inFlightOf 3 tinyData
    s.resetHeld = false ∧ s.cfg.legal = true ∧ s.ctl = .busy ⟨3, 2, 0, 0⟩ ∧ s.err = .ok
    ∧ ReservedOffset s.cfg 0xFFFC ∧ 0 < s.cfg.bitDepth / 32 ∧ 1 < s.cfg.symDepth := by
  unfold ReservedOffset
  decide

theorem witness_OnlyAlignedWordAccesses :
    let s (b a : Nat) : State := { tinyData with events := [.access ⟨.read, b, a⟩] }
    tinyData.resetHeld = false ∧ tiny.baseAddr ≤ 0x20000 ∧ 0x2FFFF < tiny.baseAddr + 0x10000
    ∧ isNext (step (s 4 0x2FFFC)) = true ∧ faultOf (step (s 2 0x20000)) = some .unsupportedWidth
    ∧ faultOf (step (s 4 0x2FFFF)) = some .misaligned := by decide +kernel

theorem witness_HostAccesses :
    (tinyData.writing 0x010 0x20).events = [.access ⟨.write 0x20, 4, 0x20010⟩]
    ∧ isNext (step (tinyData.writing 0x010 0x20)) = true := by decide +kernel

theorem witness_Errors :
    let t := run .decode 5 0 0 tinyData
    tinyData.cfg.legal = true ∧ isNext (exec .decode { tinyData with arg0 := 5 }) = true ∧ t.err ≠ .ok := by decide +kernel

theorem witness_EachTable : isNext (exec .pqClear tinyData) = true := by decide

theorem witness_Overrun :
    let s := (inFlightOf 3 tinyData).writing 0x014 1
    let u := ({ tinyData with overrun := true } : State).writing 0x020 8
    let v := { tinyData with overrun := true, events := [.resetAssert] }
    isNext (step s) = true ∧ (after s).overrun ≠ s.overrun ∧ isNext (step u) = true ∧ (after u).overrun ≠ u.overrun
    ∧ isNext (step v) = true ∧ (after v).overrun ≠ v.overrun := by decide +kernel

theorem witness_ACommandSeesNoHostAccess :
    let c : Issued := ⟨0x20, 2, 0, 0⟩
    let as : List Access := [⟨.write 9, 4, 0x20014⟩, ⟨.read, 4, 0x20028⟩]
    let s := { inFlightOf 0x20 tinyData with events := as.map Event.access ++ [Event.block] }
    s.ctl = .busy c ∧ isNext (Host.Core.run Sys2Proof.core (as.length + 1) s) = true
    ∧ isNext (step { s with events := [.block] }) = true := by decide +kernel

theorem witness_Clear : (run .clear 32 0 0 tinyData).op0.toNat ≤ (run .clear 32 0 0 tinyData).cfg.bitDepth := by decide

/-- The operands of a state with these ARG registers and no command in flight. -/
def withArgs (a b c : Word) (s : State) : State := { s with ctl := .idle, arg0 := a, arg1 := b, arg2 := c }

theorem witness_FreqSet :
    2 ^ tiny.symW ≤ (withArgs 4 0 0 tinyTree).op0.toNat
    ∧ (withArgs 3 8 0 tinyTree).op0.toNat < 2 ^ tiny.symW ∧ 2 ^ tiny.freqW ≤ (withArgs 3 8 0 tinyTree).op1.toNat
    ∧ (withArgs 3 7 0 tinyTree).op1.toNat < 2 ^ tiny.freqW ∧ tinyTree.freqOk = true := by decide

theorem witness_FreqUnset :
    2 ^ tiny.symW ≤ (withArgs 4 0 0 tinyTree).op0.toNat ∧ (withArgs 3 0 0 tinyTree).op0.toNat < 2 ^ tiny.symW := by decide

theorem witness_FreqGet :
    2 ^ tiny.symW ≤ (withArgs 4 0 0 tinyTree).op0.toNat ∧ (withArgs 3 0 0 tinyTree).op0.toNat < 2 ^ tiny.symW
    ∧ tinyTree.cfg.legal = true ∧ tinyTree.freqOk = true := by decide

theorem witness_TheOrderOfFreqSets : tinyTree.freqOk = true ∧ (0 : Word) ≠ 3 := by decide

theorem witness_PqInsert :
    tinyQueue.cfg.legal = true ∧ tinyQueue.queueOk = true
    ∧ 2 ^ tiny.weightW ≤ (withArgs 32 0 0 tinyQueue).op0.toNat + 2 ^ 32 * (withArgs 32 0 0 tinyQueue).op1.toNat
    ∧ (withArgs 31 0 0x10000 tinyQueue).op0.toNat < 2 ^ tiny.weightW ∧ 2 ^ 16 ≤ (withArgs 31 0 0x10000 tinyQueue).op2.toNat
    ∧ (withArgs 31 0 0xFFFF tinyQueue).op2.toNat < 2 ^ 16 ∧ tinyQueue.queue.length = 2 ^ tiny.symW
    ∧ ({ tinyQueue with queue := tinyQueue.queue.drop 1 } : State).queue.length < 2 ^ tiny.symW
    ∧ ({ tinyQueue with queue := tinyQueue.queue.drop 1 } : State).queueOk = true := by decide

theorem witness_PqExtractMin :
    tinyQueue.cfg.legal = true ∧ tinyQueue.queueOk = true ∧ tinyQueue.queue = ⟨0, 3⟩ :: [⟨1, 0⟩, ⟨1, 1⟩, ⟨7, 2⟩]
    ∧ (fresh tiny).queueOk = true ∧ (fresh tiny).queue = [] := by decide

theorem witness_InsertsThenExtracts :
    (fresh tiny).cfg.legal = true ∧ (fresh tiny).queue = []
    ∧ ([⟨5, 1⟩, ⟨3, 2⟩, ⟨5, 3⟩, ⟨31, 0xFFFF⟩] : List QEntry).length ≤ 2 ^ (fresh tiny).cfg.symW
    ∧ ∀ e ∈ ([⟨5, 1⟩, ⟨3, 2⟩, ⟨5, 3⟩, ⟨31, 0xFFFF⟩] : List QEntry),
        e.weight < 2 ^ (fresh tiny).cfg.weightW ∧ e.payload < 2 ^ 16 := by decide

theorem witness_BuildTree :
    tinyTree.cfg.legal = true ∧ tinyTree.freqOk = true ∧ 1 ≤ tinyTree.freqCount
    ∧ tinyLeaf.freqOk = true ∧ tinyLeaf.freqCount = 1
    ∧ (fresh tiny).freqOk = true ∧ (fresh tiny).freqCount = 0 := by decide

theorem witness_EveryMerge :
    tinyTree.freqOk = true ∧ 1 ≤ tinyTree.freqCount ∧ isNext (exec .buildTree tinyTree) = true
    ∧ tinyTree.freqCount ≤ 4 ∧ 4 < 2 * tinyTree.freqCount - 1 := by decide

theorem witness_NodeRead :
    (withArgs 7 0 0 tinyTree).inv = true ∧ 2 * 2 ^ tiny.symW - 1 ≤ (withArgs 7 0 0 tinyTree).op0.toNat
    ∧ [0#32, 4#32, 5#32, 6#32].all (fun a => (withArgs a 0 0 tinyTree).inv
        && decide ((withArgs a 0 0 tinyTree).op0.toNat < 2 * 2 ^ tiny.symW - 1)) = true
    ∧ (tinyTree.node 2).isLeaf = true ∧ (tinyTree.node 4).isLeaf = false
    ∧ tinyTree.nodeUsed ≤ (withArgs 5 0 0 tinyTree).op0.toNat := by decide +kernel

theorem witness_BuildCodeTable :
    (fresh tiny).inv = true ∧ (fresh tiny).treeValid = false
    ∧ tinyTree.inv = true ∧ tinyTree.treeValid = true ∧ tinyTree.leafCount = 3
    ∧ tinyLeaf.inv = true ∧ tinyLeaf.treeValid = true ∧ tinyLeaf.leafCount = 1 := by decide +kernel

theorem witness_TheCode :
    tinyTable.inv = true ∧ tinyTable.tableValid = true ∧ tinyTable.codeOf 0 = some ⟨2, 0b01⟩
    ∧ tinyTable.codeOf 2 = some ⟨1, 0⟩ ∧ 2 ≤ tinyTable.leafCount
    ∧ ({ tinyLeaf with code := [(1, ⟨1, 0⟩)], tableValid := true } : State).inv = true
    ∧ ({ tinyLeaf with code := [(1, ⟨1, 0⟩)], tableValid := true } : State).leafCount = 1 := by decide +kernel

theorem witness_RarerSymbols :
    let t := nextOr tinyTree (exec .buildTree tinyTree)
    let u := nextOr t (exec .buildCodeTable t)
    tinyTree.cfg.legal = true ∧ tinyTree.freqOk = true ∧ 1 ≤ tinyTree.freqCount
    ∧ isNext (exec .buildTree tinyTree) = true ∧ isNext (exec .buildCodeTable t) = true
    ∧ u.codeOf 0 = some ⟨2, 0b01⟩ ∧ u.codeOf 2 = some ⟨1, 0⟩ ∧ tinyTree.freqOf 0 < tinyTree.freqOf 2 := by decide +kernel

theorem witness_CodeRead :
    2 ^ tiny.symW ≤ (withArgs 4 0 0 tinyTable).op0.toNat
    ∧ (withArgs 3 1 0 tinyTable).op0.toNat < 2 ^ tiny.symW ∧ tiny.codeWords ≤ (withArgs 3 1 0 tinyTable).op1.toNat
    ∧ (withArgs 3 0 0 tinyTable).op1.toNat < tiny.codeWords ∧ tinyTable.codeOf 3 = none
    ∧ tinyTable.codeOf 1 = some ⟨2, 0b11⟩ := by decide

theorem witness_ARebuiltTree :
    1 ≤ tinyTable.freqCount ∧ 1 ≤ (2 : Word).toNat ∧ (2 : Word).toNat ≤ (run .buildTree 0 0 0 tinyTable).cfg.symDepth := by
  decide

theorem witness_Encode :
    tinyData.cfg.legal = true ∧ tinyData.op0.toNat ≤ tinyData.cfg.symDepth
    ∧ (∀ i, i < tinyData.op0.toNat → (tinyData.codeOf (tinyData.symRead i)).isSome = true)
    ∧ tinyData.codeStart tinyData.op0.toNat ≤ tinyData.cfg.bitDepth
    ∧ tinyData.cfg.symDepth < (withArgs 3 0 0 tinyData).op0.toNat := by decide

/-- A symbol without a codeword after one with, and a codeword that passes bit B after one that ends at it. -/
theorem witness_Encode_errors :
    let s : State := { tinyData with symbuf := [(0, 0), (1, 3)] }
    let u : State := { tinyData with code := [(0, ⟨32, 0⟩), (2, ⟨1, 0⟩)] }
    s.op0.toNat ≤ s.cfg.symDepth ∧ 1 < s.op0.toNat ∧ (∀ j, j < 1 → (s.codeOf (s.symRead j)).isSome = true)
    ∧ s.codeStart 1 ≤ s.cfg.bitDepth ∧ s.codeOf (s.symRead 1) = none
    ∧ (∀ j, j < 1 → (u.codeOf (u.symRead j)).isSome = true) ∧ u.codeStart 1 ≤ u.cfg.bitDepth
    ∧ u.codeOf (u.symRead 1) = some ⟨1, 0⟩ ∧ u.cfg.bitDepth < u.codeStart 1 + 1 := by decide

theorem witness_EncodeDependsOnly :
    let u : State := { tinyData with queue := [⟨1, 1⟩], treeValid := false, bitbuf := [] }
    tinyData.cfg = u.cfg ∧ tinyData.cfg.legal = true ∧ tinyData.op0 = u.op0 ∧ tinyData.code = u.code
    ∧ (∀ i, i < tinyData.op0.toNat → tinyData.symRead i = u.symRead i)
    ∧ isNext (exec .encode tinyData) = true ∧ isNext (exec .encode u) = true := by decide

theorem witness_DecodeChecks :
    tiny.bitDepth < (withArgs 33 0 0 (fresh tiny)).op0.toNat ∧ (withArgs 32 0 0 (fresh tiny)).op0.toNat ≤ tiny.bitDepth
    ∧ (fresh tiny).treeValid = false := by decide

theorem witness_DecodeOfAOneLeafTree :
    tinyLeaf.cfg.legal = true ∧ tinyLeaf.treeValid = true ∧ (tinyLeaf.node tinyLeaf.root).isLeaf = true
    ∧ (withArgs 2 0 0 tinyLeaf).op0.toNat ≤ tiny.symDepth ∧ (withArgs 2 0 0 tinyLeaf).op0.toNat ≤ tiny.bitDepth
    ∧ tiny.symDepth < (withArgs 3 0 0 tinyLeaf).op0.toNat ∧ (withArgs 3 0 0 tinyLeaf).op0.toNat ≤ tiny.bitDepth := by decide

/-- The bits 1, 0, 0, 1, 1 of `tinyData` are the codewords of 0, 2 and 1. -/
theorem witness_DecodeReadsEachCodeword_stream :
    tinyData.holdsStream 0 [(0, ⟨2, 0b01⟩), (2, ⟨1, 0⟩), (1, ⟨2, 0b11⟩)]
    ∧ tinyData.holdsStream 0 [(0, ⟨2, 0b01⟩), (2, ⟨1, 0⟩)] := by
  simp only [State.holdsStream, State.holdsCode]
  decide +kernel

theorem witness_DecodeReadsEachCodeword :
    let xs : List (Nat × Codeword) := [(0, ⟨2, 0b01⟩), (2, ⟨1, 0⟩)]
    let ys : List (Nat × Codeword) := [(0, ⟨2, 0b01⟩), (2, ⟨1, 0⟩), (1, ⟨2, 0b11⟩)]
    [3#32, 4#32, 5#32].all (fun a =>
      (withArgs a 0 0 tinyData).inv && decide ((withArgs a 0 0 tinyData).op0.toNat ≤ tiny.bitDepth)) = true
    ∧ tinyData.treeValid = true ∧ 2 ≤ tinyData.leafCount
    ∧ xs.length ≤ tiny.symDepth ∧ (withArgs 3 0 0 tinyData).op0.toNat = streamLen xs
    ∧ (withArgs 4 0 0 tinyData).op0.toNat = streamLen xs + 1
    ∧ (∀ j, j < 1 → tinyData.bitRead (streamLen xs + j) = Nat.testBit 1 j)
    ∧ (∀ d, d ≤ 1 → (tinyData.node (tinyData.nodeAt 1 d)).isLeaf = false)
    ∧ ys.length = tiny.symDepth + 1 ∧ streamLen ys ≤ (withArgs 5 0 0 tinyData).op0.toNat := by decide +kernel

theorem witness_DecodeWritesOnly : tinyData.cfg.legal = true := by decide

theorem witness_DecodeOfEncode :
    tinyData.inv = true ∧ tinyData.tableValid = true ∧ isNext (exec .encode tinyData) = true
    ∧ (nextOr tinyData (exec .encode tinyData)).err = .ok := by decide +kernel

end Sys2Proof.Tests
end

namespace Sys2Proof.Machine

/-! ### A step of the block (00_scope.md R16) -/

/-- With no event left the step is the block's turn. -/
theorem step_of_no_event {s : State} (h : s.events = []) : step s = blockTurn s := by
  simp only [step, h]

theorem step_of_block_event {s : State} {es : List Event} (h : s.events = .block :: es) :
    step s = blockTurn { s with events := es } := by
  simp only [step, h, runEvent]

theorem blockTurn_of_idle {s : State} (h : s.ctl = .idle) : blockTurn s = .next s := by
  simp only [blockTurn, h, ite_self]

theorem blockTurn_of_busy {s : State} {c : Issued} {i : Instr} (hr : s.resetHeld = false) (hc : s.ctl = .busy c)
    (hd : decode c.word = some i) : blockTurn s = exec i s := by
  simp only [blockTurn, hr, hc, completeIssued, hd, Bool.false_eq_true, if_false]

/-- Settles O9: either step is the block's turn, which runs the command in flight and does nothing while Idle. -/
theorem theBlocksTurnRunsTheDecodedCommand : Obligations.TheBlocksTurnRunsTheDecodedCommand := by
  unfold Obligations.TheBlocksTurnRunsTheDecodedCommand
  refine ⟨fun s c i es hr hc hd => ⟨fun he => ?_, fun he => ?_⟩, fun s es hi => ⟨fun he => ?_, fun he => ?_⟩⟩
  · rw [step_of_block_event he]
    exact blockTurn_of_busy hr hc hd
  · rw [step_of_no_event he]
    exact blockTurn_of_busy hr hc hd
  · rw [step_of_block_event he]
    exact blockTurn_of_idle hi
  · rw [step_of_no_event he]
    exact blockTurn_of_idle hi

/-! ### The error codes of each command (60_exceptions.md R103) -/

/-- The codes that carry no locator (60_exceptions.md R103). -/
def codesWithoutLocator : List ErrCode := [.ok, .emptyAlphabet, .emptyQueue, .queueFull, .noTree]

/-- A command's pseudocode ends with one of `codes`, and with locator 0 where its code has none. -/
def CmdEnd.EndsWithin (codes : List ErrCode) (r : CmdEnd) : Prop :=
  r.err ∈ codes ∧ (r.err ∈ codesWithoutLocator → r.info = 0)

theorem endsWithin_done {codes : List ErrCode} {s : State} (h : .ok ∈ codes) : (done s).EndsWithin codes :=
  ⟨h, fun _ => rfl⟩

theorem endsWithin_fail_zero {codes : List ErrCode} {e : ErrCode} {s : State} (h : e ∈ codes) :
    (fail e 0 s).EndsWithin codes :=
  ⟨h, fun _ => rfl⟩

theorem endsWithin_fail_located {codes : List ErrCode} {e : ErrCode} {info : Word} {s : State} (h : e ∈ codes)
    (hl : e ∉ codesWithoutLocator) : (fail e info s).EndsWithin codes :=
  ⟨h, fun hn => absurd hn hl⟩

/-- A check that fails with locator 0 before the rest of the pseudocode. -/
theorem endsWithin_check_zero {codes : List ErrCode} {e : ErrCode} {s : State} {r : CmdEnd} {p : Prop} [Decidable p]
    (h : e ∈ codes) (hr : r.EndsWithin codes) : (if p then fail e 0 s else r).EndsWithin codes := by
  split
  · exact endsWithin_fail_zero h
  · exact hr

/-- A check that fails with a locator before the rest of the pseudocode. -/
theorem endsWithin_check_located {codes : List ErrCode} {e : ErrCode} {info : Word} {s : State} {r : CmdEnd} {p : Prop}
    [Decidable p] (h : e ∈ codes) (hl : e ∉ codesWithoutLocator) (hr : r.EndsWithin codes) :
    (if p then fail e info s else r).EndsWithin codes := by
  split
  · exact endsWithin_fail_located h hl
  · exact hr

/-- The completed command reports what its pseudocode ended with, and is Idle. -/
theorem exec_completes_of_endsWithin {i : Instr} {s : State} {codes : List ErrCode}
    (h : (bodyOf i (prologue s)).EndsWithin codes) :
    ∃ t, exec i s = .next t ∧ t.ctl = .idle ∧ t.err ∈ codes ∧ (t.err ∈ codesWithoutLocator → t.errInfo = 0) :=
  ⟨_, exec_eq_next.2 rfl, rfl, h⟩

/-! #### Where the loops stop -/

/-- ENCODE's loop stops early only at a symbol without a codeword or at a codeword that does not fit. -/
theorem encodeLoop_stop (s : State) (rem i pos : Nat) (out : Cells Bool) {e : ErrCode} {j : Nat}
    (h : (encodeLoop s rem i pos out).stop = some (e, j)) : e = .unknownSymbol ∨ e = .bufferOverflow := by
  induction rem generalizing i pos out with
  | zero => cases h
  | succ rem ih =>
    simp only [encodeLoop] at h
    split at h
    · cases h
      exact .inl rfl
    · split at h
      · cases h
        exact .inr rfl
      · exact ih _ _ _ h

/-- The one-leaf loop of DECODE stops early only when the symbol buffer is full. -/
theorem decodeLeafLoop_stop (depth x rem k cnt : Nat) (out : Cells Nat) {e : ErrCode} {j : Nat}
    (h : (decodeLeafLoop depth x rem k cnt out).stop = some (e, j)) : e = .bufferOverflow := by
  induction rem generalizing k cnt out with
  | zero => cases h
  | succ rem ih =>
    simp only [decodeLeafLoop] at h
    split at h
    · cases h
      rfl
    · exact ih _ _ _ h

/-- The walk of DECODE stops with an error only inside a codeword at the end of the stream or when the symbol buffer
is full. -/
theorem decodeLoop_stop (s : State) (rem k cur start cnt : Nat) (out : Cells Nat) {e : ErrCode} {j : Nat}
    (h : (decodeLoop s rem k cur start cnt out).stop = some (e, j)) : e = .truncatedStream ∨ e = .bufferOverflow := by
  induction rem generalizing k cur start cnt out with
  | zero =>
    simp only [decodeLoop] at h
    split at h
    · cases h
    · cases h
      exact .inl rfl
  | succ rem ih =>
    simp only [decodeLoop] at h
    generalize (if s.bitRead k = true then (s.node cur).right else (s.node cur).left) = next at h
    split at h
    · split at h
      · cases h
        exact .inr rfl
      · exact ih _ _ _ _ _ h
    · exact ih _ _ _ _ _ h

/-! #### The pseudocode of each command that can fail -/

theorem freqSetBody_endsWithin (s : State) : (freqSetBody s).EndsWithin [.ok, .badArg] :=
  endsWithin_check_zero (by decide) <|
  endsWithin_check_located (by decide) (by decide) <|
  endsWithin_done (by decide)

theorem freqUnsetBody_endsWithin (s : State) : (freqUnsetBody s).EndsWithin [.ok, .badArg] :=
  endsWithin_check_zero (by decide) <| endsWithin_done (by decide)

theorem freqGetBody_endsWithin (s : State) : (freqGetBody s).EndsWithin [.ok, .badArg] :=
  endsWithin_check_zero (by decide) <| endsWithin_done (by decide)

theorem pqInsertBody_endsWithin (s : State) : (pqInsertBody s).EndsWithin [.ok, .queueFull, .badArg] :=
  endsWithin_check_located (by decide) (by decide) <|
  endsWithin_check_located (by decide) (by decide) <|
  endsWithin_check_zero (by decide) <|
  endsWithin_done (by decide)

theorem pqExtractMinBody_endsWithin (s : State) : (pqExtractMinBody s).EndsWithin [.ok, .emptyQueue] := by
  unfold pqExtractMinBody
  split
  · exact endsWithin_fail_zero (by decide)
  · exact endsWithin_done (by decide)

theorem buildTreeBody_endsWithin (s : State) : (buildTreeBody s).EndsWithin [.ok, .emptyAlphabet] :=
  endsWithin_check_zero (by decide) <| endsWithin_done (by decide)

theorem nodeReadBody_endsWithin (s : State) : (nodeReadBody s).EndsWithin [.ok, .badArg] :=
  endsWithin_check_zero (by decide) <| endsWithin_done (by decide)

theorem buildCodeTableBody_endsWithin (s : State) : (buildCodeTableBody s).EndsWithin [.ok, .noTree] :=
  endsWithin_check_zero (by decide) <| endsWithin_done (by decide)

theorem codeReadBody_endsWithin (s : State) : (codeReadBody s).EndsWithin [.ok, .badArg] :=
  endsWithin_check_zero (by decide) <|
  endsWithin_check_located (by decide) (by decide) <|
  endsWithin_done (by decide)

theorem encodeBody_endsWithin (s : State) :
    (encodeBody s).EndsWithin [.ok, .unknownSymbol, .bufferOverflow, .badArg] := by
  refine endsWithin_check_zero (by decide) ?_
  dsimp only
  split
  · exact endsWithin_done (by decide)
  · next e j hstop =>
    rcases encodeLoop_stop _ _ _ _ _ hstop with rfl | rfl <;>
      exact endsWithin_fail_located (by decide) (by decide)

/-- Whichever loop runs, its early stop is one of DECODE's two data errors. -/
theorem decodeBody_endsWithin (s : State) :
    (decodeBody s).EndsWithin [.ok, .truncatedStream, .bufferOverflow, .noTree, .badArg] := by
  refine endsWithin_check_zero (by decide) (endsWithin_check_zero (by decide) ?_)
  dsimp only
  split
  · exact endsWithin_done (by decide)
  · next e j hstop =>
    have he : e = .truncatedStream ∨ e = .bufferOverflow := by
      split at hstop
      · exact .inr (decodeLeafLoop_stop _ _ _ _ _ _ hstop)
      · exact decodeLoop_stop _ _ _ _ _ _ _ hstop
    rcases he with rfl | rfl <;> exact endsWithin_fail_located (by decide) (by decide)

/-- Settles O21: a command completes with the end of its pseudocode, and each pseudocode ends within its row of R103. -/
theorem everyCommandCompletesWithOneOfItsCodes : Obligations.EveryCommandCompletesWithOneOfItsCodes := by
  unfold Obligations.EveryCommandCompletesWithOneOfItsCodes
  intro i s
  apply exec_completes_of_endsWithin
  cases i with
  | nop | clear | freqClear | pqClear => exact endsWithin_done (by decide)
  | freqSet => exact freqSetBody_endsWithin _
  | freqUnset => exact freqUnsetBody_endsWithin _
  | freqGet => exact freqGetBody_endsWithin _
  | pqInsert => exact pqInsertBody_endsWithin _
  | pqExtractMin => exact pqExtractMinBody_endsWithin _
  | buildTree => exact buildTreeBody_endsWithin _
  | nodeRead => exact nodeReadBody_endsWithin _
  | buildCodeTable => exact buildCodeTableBody_endsWithin _
  | codeRead => exact codeReadBody_endsWithin _
  | encode => exact encodeBody_endsWithin _
  | decode => exact decodeBody_endsWithin _

end Sys2Proof.Machine

namespace Sys2Proof.Machine

/-! ### What each command's pseudocode can leave (00_scope.md R19) -/

theorem freqSetBody_cases (s : State) : (freqSetBody s).st = s
    ∨ s.op0.toNat < s.cfg.alphabet ∧ s.op1.toNat < 2 ^ s.cfg.freqW
      ∧ (freqSetBody s).st = { s with freq := cellPut s.op0.toNat s.op1.toNat s.freq } := by
  unfold freqSetBody
  split
  · exact .inl rfl
  · split
    · exact .inl rfl
    · exact .inr ⟨by omega, by omega, rfl⟩

theorem freqUnsetBody_cases (s : State) : (freqUnsetBody s).st = s
    ∨ (freqUnsetBody s).st = { s with freq := cellDrop s.op0.toNat s.freq } := by
  unfold freqUnsetBody
  split
  · exact .inl rfl
  · exact .inr rfl

theorem pqInsertBody_cases (s : State) : (pqInsertBody s).st = s
    ∨ s.opWeight < 2 ^ s.cfg.weightW ∧ s.op2.toNat < 2 ^ 16 ∧ s.queue.length ≠ s.cfg.queueCap
      ∧ (pqInsertBody s).st = { s with queue := queuePlace s.opWeight s.op2.toNat s.queue } := by
  unfold pqInsertBody
  split
  · exact .inl rfl
  · split
    · exact .inl rfl
    · split
      · exact .inl rfl
      · next hcap => exact .inr ⟨by omega, by omega, hcap, rfl⟩

theorem pqExtractMinBody_cases (s : State) : (pqExtractMinBody s).st = s
    ∨ ∃ e rest a b c, s.queue = e :: rest ∧ (pqExtractMinBody s).st = { s with queue := rest }.setRes a b c := by
  unfold pqExtractMinBody
  split
  · exact .inl rfl
  · next e rest hq => exact .inr ⟨e, rest, _, _, _, hq, rfl⟩

theorem buildTreeBody_cases (s : State) : (buildTreeBody s).st = s
    ∨ s.freqCount ≠ 0 ∧ ∃ a b c, (buildTreeBody s).st
      = { s with nodes := (buildArena s.freq).2, root := lastNode (buildArena s.freq).1,
                 nodeUsed := (buildArena s.freq).2.length, treeValid := true,
                 code := [], tableValid := false, queue := [] }.setRes a b c := by
  unfold buildTreeBody
  split
  · exact .inl rfl
  · next hn => exact .inr ⟨hn, _, _, _, rfl⟩

theorem buildCodeTableBody_cases (s : State) : (buildCodeTableBody s).st = s
    ∨ s.treeValid = true ∧ ∃ a b c, (buildCodeTableBody s).st
      = { s with code := codeTableOf s.nodes s.root, tableValid := true }.setRes a b c := by
  unfold buildCodeTableBody
  split
  · exact .inl rfl
  · next ht => exact .inr ⟨by simpa using ht, _, _, _, rfl⟩

theorem freqGetBody_st (s : State) : ∃ a b c, (freqGetBody s).st = s.setRes a b c := by
  unfold freqGetBody
  split <;> exact ⟨_, _, _, rfl⟩

theorem nodeReadBody_st (s : State) : ∃ a b c, (nodeReadBody s).st = s.setRes a b c := by
  unfold nodeReadBody
  split <;> exact ⟨_, _, _, rfl⟩

theorem codeReadBody_st (s : State) : ∃ a b c, (codeReadBody s).st = s.setRes a b c := by
  unfold codeReadBody
  split
  · exact ⟨_, _, _, rfl⟩
  · split <;> exact ⟨_, _, _, rfl⟩

theorem encodeBody_cases (s : State) : (encodeBody s).st = s
    ∨ ∃ a b c, (encodeBody s).st
      = { s with bitbuf := (encodeLoop s s.op0.toNat 0 0 s.bitbuf).out }.setRes a b c := by
  unfold encodeBody
  split
  · exact .inl rfl
  · dsimp only
    split <;> exact .inr ⟨_, _, _, rfl⟩

/-- The loop DECODE runs on the tree it stands over. -/
def decodeRun (s : State) : LoopEnd Nat :=
  if (s.node s.root).isLeaf then decodeLeafLoop s.cfg.symDepth (s.node s.root).sym s.op0.toNat 0 0 s.symbuf
  else decodeLoop s s.op0.toNat 0 s.root 0 0 s.symbuf

theorem decodeBody_cases (s : State) : (decodeBody s).st = s
    ∨ s.treeValid = true ∧ ∃ a b c, (decodeBody s).st = { s with symbuf := (decodeRun s).out }.setRes a b c := by
  unfold decodeBody
  split
  · exact .inl rfl
  · split
    · exact .inl rfl
    · next ht =>
      refine .inr ⟨by simpa using ht, ?_⟩
      dsimp only
      split <;> exact ⟨_, _, _, rfl⟩

/-! ### What a command leaves unchanged -/

/-- From `s` to `t` nothing changed but what command `i` may write: the results and its own tables. -/
structure OwnTablesOnly (i : Instr) (s t : State) : Prop where
  port : SamePort s t
  freq : i ∉ [Instr.freqClear, .freqSet, .freqUnset, .clear] → SameFreq s t
  queue : i ∉ [Instr.pqClear, .pqInsert, .pqExtractMin, .buildTree, .clear] → SameQueue s t
  tree : i ∉ [Instr.buildTree, .clear] → SameTree s t
  table : i ∉ [Instr.buildCodeTable, .buildTree, .clear] → SameTable s t
  symbuf : i ≠ .decode → t.symbuf = s.symbuf
  bitbuf : i ≠ .encode → t.bitbuf = s.bitbuf

/-- A command that leaves the tables alone and writes at most its results. -/
theorem ownTablesOnly_setRes (i : Instr) (s : State) (a b c : Word) : OwnTablesOnly i s (s.setRes a b c) :=
  ⟨samePort_refl s, fun _ => rfl, fun _ => rfl, fun _ => ⟨rfl, rfl, rfl, rfl⟩, fun _ => ⟨rfl, rfl⟩, fun _ => rfl,
    fun _ => rfl⟩

theorem ownTablesOnly_refl (i : Instr) (s : State) : OwnTablesOnly i s s :=
  ownTablesOnly_setRes i s s.res0 s.res1 s.res2

theorem ownTablesOnly_freq (i : Instr) (s : State) (m : Cells Nat)
    (hi : i ∈ [Instr.freqClear, .freqSet, .freqUnset, .clear]) : OwnTablesOnly i s { s with freq := m } :=
  { ownTablesOnly_refl i s with freq := fun h => absurd hi h }

theorem ownTablesOnly_queue (i : Instr) (s : State) (q : List QEntry)
    (hi : i ∈ [Instr.pqClear, .pqInsert, .pqExtractMin, .buildTree, .clear]) : OwnTablesOnly i s { s with queue := q } :=
  { ownTablesOnly_refl i s with queue := fun h => absurd hi h }

/-- The pseudocode of each command writes its own tables only. -/
theorem bodyOf_ownTablesOnly (i : Instr) (s : State) : OwnTablesOnly i s (bodyOf i s).st := by
  cases i with
  | nop => exact ownTablesOnly_refl _ s
  | clear =>
    exact { ownTablesOnly_refl _ s with
      freq := fun h => absurd (by decide) h, queue := fun h => absurd (by decide) h,
      tree := fun h => absurd (by decide) h, table := fun h => absurd (by decide) h }
  | freqClear => exact ownTablesOnly_freq _ s _ (by decide)
  | freqSet =>
    obtain h | ⟨-, -, h⟩ := freqSetBody_cases s <;> rw [bodyOf, h]
    · exact ownTablesOnly_refl _ s
    · exact ownTablesOnly_freq _ s _ (by decide)
  | freqUnset =>
    obtain h | h := freqUnsetBody_cases s <;> rw [bodyOf, h]
    · exact ownTablesOnly_refl _ s
    · exact ownTablesOnly_freq _ s _ (by decide)
  | freqGet =>
    obtain ⟨a, b, c, h⟩ := freqGetBody_st s
    rw [bodyOf, h]
    exact ownTablesOnly_setRes _ s a b c
  | pqClear => exact ownTablesOnly_queue _ s _ (by decide)
  | pqInsert =>
    obtain h | ⟨-, -, -, h⟩ := pqInsertBody_cases s <;> rw [bodyOf, h]
    · exact ownTablesOnly_refl _ s
    · exact ownTablesOnly_queue _ s _ (by decide)
  | pqExtractMin =>
    obtain h | ⟨-, rest, a, b, c, -, h⟩ := pqExtractMinBody_cases s <;> rw [bodyOf, h]
    · exact ownTablesOnly_refl _ s
    · exact { ownTablesOnly_setRes _ s a b c with queue := fun h => absurd (by decide) h }
  | buildTree =>
    obtain h | ⟨-, a, b, c, h⟩ := buildTreeBody_cases s <;> rw [bodyOf, h]
    · exact ownTablesOnly_refl _ s
    · exact { ownTablesOnly_setRes _ s a b c with
        queue := fun h => absurd (by decide) h, tree := fun h => absurd (by decide) h,
        table := fun h => absurd (by decide) h }
  | nodeRead =>
    obtain ⟨a, b, c, h⟩ := nodeReadBody_st s
    rw [bodyOf, h]
    exact ownTablesOnly_setRes _ s a b c
  | buildCodeTable =>
    obtain h | ⟨-, a, b, c, h⟩ := buildCodeTableBody_cases s <;> rw [bodyOf, h]
    · exact ownTablesOnly_refl _ s
    · exact { ownTablesOnly_setRes _ s a b c with table := fun h => absurd (by decide) h }
  | codeRead =>
    obtain ⟨a, b, c, h⟩ := codeReadBody_st s
    rw [bodyOf, h]
    exact ownTablesOnly_setRes _ s a b c
  | encode =>
    obtain h | ⟨a, b, c, h⟩ := encodeBody_cases s <;> rw [bodyOf, h]
    · exact ownTablesOnly_refl _ s
    · exact { ownTablesOnly_setRes _ s a b c with bitbuf := fun h => absurd rfl h }
  | decode =>
    obtain h | ⟨-, a, b, c, h⟩ := decodeBody_cases s <;> rw [bodyOf, h]
    · exact ownTablesOnly_refl _ s
    · exact { ownTablesOnly_setRes _ s a b c with symbuf := fun h => absurd rfl h }

/-- Prologue and epilogue write only the report and the control state. -/
theorem exec_ownTablesOnly {i : Instr} {s t : State} (h : exec i s = .next t) : OwnTablesOnly i s t := by
  rw [exec_eq_next] at h
  subst h
  exact { bodyOf_ownTablesOnly i (prologue s) with }

theorem sameSymbuf_of_eq {s t : State} (hp : SamePort s t) (h : t.symbuf = s.symbuf) : SameSymbuf s t := by
  obtain ⟨hcfg, -, -, -, -, -, -, -, hepoch, -⟩ := hp
  intro i
  simp only [State.symRead, hcfg, hepoch, h]

theorem sameBitbuf_of_eq {s t : State} (hp : SamePort s t) (h : t.bitbuf = s.bitbuf) : SameBitbuf s t := by
  obtain ⟨-, -, -, -, -, -, -, -, hepoch, -⟩ := hp
  intro k
  simp only [State.bitRead, hepoch, h]

/-- Settles O23: by the frame of each command's pseudocode. -/
theorem eachTableIsWrittenOnlyByItsOwnCommands : Obligations.EachTableIsWrittenOnlyByItsOwnCommands := by
  unfold Obligations.EachTableIsWrittenOnlyByItsOwnCommands
  intro i s t h
  have own := exec_ownTablesOnly h
  exact ⟨own.port, own.freq, own.queue, own.tree, own.table,
    fun hi => sameSymbuf_of_eq own.port (own.symbuf hi), fun hi => sameBitbuf_of_eq own.port (own.bitbuf hi)⟩

/-! ### Registers at the port (20_memory.md R51) -/

/-- A listed register stands below 0x40 at an aligned offset. -/
theorem regMap_offset {off : Nat} {r : Reg} (h : cellGet off regMap = some r) : off < 0x40 ∧ off % 4 = 0 :=
  have hall : ∀ e ∈ regMap, e.1 < 0x40 ∧ e.1 % 4 = 0 := by decide
  hall _ (mem_of_cellGet h)

/-- A register whose value is not in flight reads as it stands. -/
theorem readsAs_reg {s : State} {off : Nat} {r : Reg} (hr : s.resetHeld = false) (hoff : cellGet off regMap = some r)
    (hi : (s.busy && inFlight (.reg r)) = false) : ReadsAs s off (readReg s r) := by
  obtain ⟨hlt, ha⟩ := regMap_offset hoff
  have hloc : locate s.cfg off = .reg r := locate_reg (by omega) hoff
  have h := readsAs_readLoc hr (by omega) ha (by rw [hloc]; exact hi)
  rwa [hloc] at h

theorem readsAs_reg_of_idle {s : State} {off : Nat} {r : Reg} (hr : s.resetHeld = false) (hi : s.ctl = .idle)
    (hoff : cellGet off regMap = some r) : ReadsAs s off (readReg s r) :=
  readsAs_reg hr hoff (by rw [busy_of_idle hi, Bool.false_and])

theorem readsAs_reg_of_notInFlight {s : State} {off : Nat} {r : Reg} (hr : s.resetHeld = false)
    (hoff : cellGet off regMap = some r) (hf : inFlight (.reg r) = false) : ReadsAs s off (readReg s r) :=
  readsAs_reg hr hoff (by rw [hf, Bool.and_false])

theorem step_writing_reg {s : State} {off : Nat} {r : Reg} (v : Word) (hr : s.resetHeld = false)
    (hoff : cellGet off regMap = some r) : step (s.writing off v) = .next (hostWrite (.reg r) v s) := by
  obtain ⟨hlt, ha⟩ := regMap_offset hoff
  rw [step_writing v hr (by omega) ha, locate_reg (by omega) hoff]

theorem hostWrite_of_idle {s : State} (loc : Loc) (v : Word) (h : s.ctl = .idle) :
    hostWrite loc v s = writeLoc v s loc := by
  simp only [hostWrite, h]

theorem hostWrite_of_busy {s : State} {c : Issued} (loc : Loc) (v : Word) (h : s.ctl = .busy c) :
    hostWrite loc v s = writeBusy v s loc := by
  simp only [hostWrite, h]

/-- Settles O13: each ARG register's own write while Idle. -/
theorem argumentWritesStoreTheWord : Obligations.ArgumentWritesStoreTheWord := by
  unfold Obligations.ArgumentWritesStoreTheWord
  intro s v hr hi
  refine ⟨?_, ?_, ?_⟩
  · rw [step_writing_reg (r := .arg0) v hr rfl, hostWrite_of_idle _ v hi, writeLoc]
  · rw [step_writing_reg (r := .arg1) v hr rfl, hostWrite_of_idle _ v hi, writeLoc]
  · rw [step_writing_reg (r := .arg2) v hr rfl, hostWrite_of_idle _ v hi, writeLoc]

/-- Settles O10: a CMD write is `issue` while Idle and a dropped write while Busy. -/
theorem aWriteToCmdIssuesTheCommand : Obligations.AWriteToCmdIssuesTheCommand := by
  unfold Obligations.AWriteToCmdIssuesTheCommand
  intro s w hr
  refine ⟨fun hi => ⟨issue w s, ?_, rfl, rfl⟩, fun c hc => ?_, readsAs_reg_of_notInFlight (r := .cmd) hr rfl rfl⟩
  · rw [step_writing_reg (r := .cmd) w hr rfl, hostWrite_of_idle _ w hi, writeLoc]
  · rw [step_writing_reg (r := .cmd) w hr rfl, hostWrite_of_busy _ w hc, writeBusy]
    simp

/-! ### STATUS (10_state.md R28) -/

/-- A write to STATUS touches OVERRUN only: bit 3 clears it. -/
theorem writeStatus_eq (v : Word) (s : State) :
    writeStatus v s = { s with overrun := s.overrun && !v.getLsbD 3 } := by
  unfold writeStatus
  cases v.getLsbD 3 <;> simp

/-- STATUS is written alike Idle and Busy. -/
theorem hostWrite_status (v : Word) (s : State) : hostWrite (.reg .status) v s = writeStatus v s := by
  cases h : s.ctl with
  | idle => rw [hostWrite_of_idle _ v h, writeLoc]
  | busy c => rw [hostWrite_of_busy _ v h, writeBusy]

theorem statusWord_flags (s : State) : (statusWord s).getLsbD 0 = s.busy ∧ (statusWord s).getLsbD 1 = s.treeValid
    ∧ (statusWord s).getLsbD 2 = s.tableValid ∧ (statusWord s).getLsbD 3 = s.overrun := by
  refine ⟨?_, ?_, ?_, ?_⟩ <;> simp only [statusWord, BitVec.getLsbD_append] <;> simp

theorem statusWord_err (s : State) {j : Nat} (h : j < 4) : (statusWord s).getLsbD (8 + j) = s.err.code.getLsbD j := by
  have hj : ¬ 8 + j < 1 := by omega
  simp only [statusWord, BitVec.getLsbD_append]
  simp [h, hj]

theorem statusWord_unused (s : State) {j : Nat} (h : 4 ≤ j ∧ j ≤ 7 ∨ 12 ≤ j) : (statusWord s).getLsbD j = false := by
  simp only [statusWord, BitVec.getLsbD_append]
  rcases h with ⟨h, h'⟩ | h
  · obtain ⟨k, rfl⟩ := Nat.exists_eq_add_of_le h
    simp [show k < 4 by omega]
  · obtain ⟨k, rfl⟩ := Nat.exists_eq_add_of_le h
    simp [show ¬ 8 + k - 4 < 4 by omega]

theorem busy_iff (s : State) : s.busy = true ↔ ∃ c, s.ctl = .busy c := by
  cases h : s.ctl <;> simp [State.busy, h]

/-- The control invariant: ERR is 0 while BUSY is 1. -/
theorem err_of_ctlOk_of_busy {s : State} (h : s.ctlOk = true) (hb : s.busy = true) : s.err = .ok := by
  obtain ⟨c, hc⟩ := (busy_iff s).1 hb
  simp only [State.ctlOk, hc, Bool.and_eq_true, beq_iff_eq] at h
  obtain ⟨⟨⟨⟨herr, -⟩, -⟩, -⟩, -⟩ := h
  exact herr

/-- Settles O11: the bits of the packed word, and the write that clears OVERRUN. -/
theorem statusReadsItsFieldsAndClearsOverrun : Obligations.StatusReadsItsFieldsAndClearsOverrun := by
  unfold Obligations.StatusReadsItsFieldsAndClearsOverrun
  intro s hr
  obtain ⟨hbusy, htree, htable, hover⟩ := statusWord_flags s
  refine ⟨⟨statusWord s, readsAs_reg_of_notInFlight (r := .status) hr rfl rfl, ?_, htree, htable, hover,
    fun j h4 h7 => statusWord_unused s (.inl ⟨h4, h7⟩), fun j hj => statusWord_err s hj,
    fun j hj => statusWord_unused s (.inr hj), fun hctl hb j hj => ?_⟩, fun v => ?_⟩
  · rw [hbusy, busy_iff]
  · rw [statusWord_err s hj, err_of_ctlOk_of_busy hctl hb]
    exact BitVec.getLsbD_zero
  · rw [step_writing_reg (r := .status) v hr rfl, hostWrite_status, writeStatus_eq]

/-! ### The counts and packed words (10_state.md R23, R31, R32, R34) -/

/-- A canonical table lists each of its indexes once. -/
theorem nodup_indexes {α : Type} {m : Cells α} (h : cellsRising m = true) : (m.map Prod.fst).Nodup := by
  induction m with
  | nil => exact List.nodup_nil
  | cons e rest ih =>
    obtain ⟨hlt, hrest⟩ := cellsRising_cons.1 h
    refine List.nodup_cons.2 ⟨fun hmem => ?_, ih hrest⟩
    obtain ⟨d, hd, heq⟩ := List.mem_map.1 hmem
    have := hlt d hd
    omega

theorem cellGet_isSome_iff {α : Type} {i : Nat} {m : Cells α} : (cellGet i m).isSome = true ↔ i ∈ m.map Prod.fst := by
  induction m with
  | nil => simp
  | cons e rest ih =>
    obtain ⟨k, v⟩ := e
    by_cases hk : i = k <;> simp [cellGet, hk, ih]

/-- A canonical table below `n` has as many entries as there are indexes below `n` that it lists. -/
theorem countP_listed {α : Type} {n : Nat} {m : Cells α} (h : cellsRising m = true) (hb : cellsBelow n m = true) :
    (List.range n).countP (fun i => (cellGet i m).isSome) = m.length := by
  have hperm : ((List.range n).filter fun i => (cellGet i m).isSome).Perm (m.map Prod.fst) := by
    refine (List.perm_ext_iff_of_nodup (List.nodup_range.filter _) (nodup_indexes h)).2 fun i => ?_
    rw [List.mem_filter, List.mem_range, cellGet_isSome_iff, and_iff_right_iff_imp]
    intro hi
    obtain ⟨e, he, rfl⟩ := List.mem_map.1 hi
    simp only [cellsBelow, List.all_eq_true, decide_eq_true_eq] at hb
    exact hb e he
  rw [List.countP_eq_length_filter, hperm.length_eq, List.length_map]

theorem length_le_of_cellsBelow {α : Type} {n : Nat} {m : Cells α} (h : cellsRising m = true)
    (hb : cellsBelow n m = true) : m.length ≤ n := by
  rw [← countP_listed h hb]
  exact List.countP_le_length.trans_eq List.length_range

theorem freqOk_iff (s : State) : s.freqOk = true ↔ cellsRising s.freq = true
    ∧ cellsBelow s.cfg.alphabet s.freq = true ∧ ∀ e ∈ s.freq, e.2 < 2 ^ s.cfg.freqW := by
  simp [State.freqOk, and_assoc]

theorem queueOk_iff (s : State) : s.queueOk = true ↔ weightsSorted s.queue = true ∧ s.queue.length ≤ s.cfg.queueCap
    ∧ ∀ e ∈ s.queue, e.weight < 2 ^ s.cfg.weightW ∧ e.payload < 2 ^ 16 := by
  simp [State.queueOk, and_assoc]

/-- The present symbols are those the mapping lists. -/
theorem freqCount_eq_countP {s : State} (h : s.freqOk = true) :
    s.freqCount = (List.range s.cfg.alphabet).countP s.present := by
  obtain ⟨hr, hb, -⟩ := (freqOk_iff s).1 h
  exact (countP_listed hr hb).symm

theorem freqCount_le {s : State} (h : s.freqOk = true) : s.freqCount ≤ s.cfg.alphabet := by
  obtain ⟨hr, hb, -⟩ := (freqOk_iff s).1 h
  exact length_le_of_cellsBelow hr hb

/-- A number of symbols fits a word. -/
theorem toNat_zext32_of_le_alphabet {p : Params} {n : Nat} (hp : p.legal = true) (h : n ≤ p.alphabet) :
    (zext32 n).toNat = n := by
  have := alphabet_bounds hp
  exact toNat_zext32 (by omega)

theorem toNat_append_eq_add {v w : Nat} (a : BitVec v) (b : BitVec w) : (a ++ b).toNat = b.toNat + 2 ^ w * a.toNat := by
  rw [BitVec.toNat_append, Nat.shiftLeft_eq, Nat.mul_comm, ← Nat.two_pow_add_eq_or_of_lt b.isLt, Nat.add_comm]

theorem toNat_cfg0Word {p : Params} (hp : p.legal = true) :
    (cfg0Word p).toNat = p.symW + 2 ^ 8 * p.freqW + 2 ^ 16 * (p.freqW + p.symW) := by
  have := legal_bounds hp
  have hs : p.symW % 2 ^ 8 = p.symW := Nat.mod_eq_of_lt (by omega)
  have hf : p.freqW % 2 ^ 8 = p.freqW := Nat.mod_eq_of_lt (by omega)
  have hw : p.weightW % 2 ^ 8 = p.freqW + p.symW := Nat.mod_eq_of_lt (by unfold Params.weightW; omega)
  simp only [cfg0Word, toNat_append_eq_add, BitVec.toNat_ofNat, hs, hf, hw]
  omega

theorem toNat_treeInfoWord {s : State} (hr : s.root < 2 ^ 16) (hu : s.nodeUsed < 2 ^ 16) :
    (treeInfoWord s).toNat = s.root + 2 ^ 16 * s.nodeUsed := by
  simp only [treeInfoWord, toNat_append_eq_add, BitVec.toNat_ofNat, Nat.mod_eq_of_lt hr, Nat.mod_eq_of_lt hu]

/-- Settles O12: each offset names its register, and each packed or counted word has the value the map gives it. -/
theorem registersReadAsTheMapSays : Obligations.RegistersReadAsTheMapSays := by
  unfold Obligations.RegistersReadAsTheMapSays
  intro s hr hi hp
  have reads {off : Nat} {r : Reg} (h : cellGet off regMap = some r) : ReadsAs s off (readReg s r) :=
    readsAs_reg_of_idle hr hi h
  obtain ⟨-, -, -, -, -, hL, -, -, hB, -⟩ := legal_bounds hp
  refine ⟨reads (r := .id) rfl, ⟨_, reads (r := .cfg0) rfl, toNat_cfg0Word hp⟩,
    ⟨_, reads (r := .cfg1) rfl, toNat_zext32 (by omega)⟩, ⟨_, reads (r := .cfg2) rfl, toNat_zext32 (by omega)⟩,
    reads (r := .arg0) rfl, reads (r := .arg1) rfl, reads (r := .arg2) rfl, reads (r := .errInfo) rfl,
    reads (r := .res0) rfl, reads (r := .res1) rfl, reads (r := .res2) rfl,
    fun hq => ⟨_, reads (r := .pqCount) rfl, ?_⟩,
    fun hroot hused => ⟨_, reads (r := .treeInfo) rfl, toNat_treeInfoWord hroot hused⟩,
    fun hf => ⟨_, reads (r := .freqCount) rfl, ?_⟩⟩
  · obtain ⟨-, hlen, -⟩ := (queueOk_iff s).1 hq
    exact toNat_zext32_of_le_alphabet hp hlen
  · exact (toNat_zext32_of_le_alphabet hp (freqCount_le hf)).trans (freqCount_eq_countP hf)

/-! ### Host accesses (20_memory.md R47, R60) -/

/-- From `s` to `t` the parameters and the units' data are unchanged: mapping, queue, tree and code table. -/
structure SameUnits (s t : State) : Prop where
  cfg : t.cfg = s.cfg
  freq : SameFreq s t
  queue : SameQueue s t
  tree : SameTree s t
  table : SameTable s t

/-- From `s` to `t` RES0 to RES2 and ERR_INFO are unchanged. -/
structure SameResults (s t : State) : Prop where
  res0 : t.res0 = s.res0
  res1 : t.res1 = s.res1
  res2 : t.res2 = s.res2
  errInfo : t.errInfo = s.errInfo

theorem hostRead_frame (loc : Loc) (s : State) :
    SameUnits s (hostRead loc s) ∧ SameResults s (hostRead loc s) ∧ (hostRead loc s).err = s.err := by
  rw [(hostRead_eq loc s).1]
  exact ⟨⟨rfl, rfl, rfl, ⟨rfl, rfl, rfl, rfl⟩, ⟨rfl, rfl⟩⟩, ⟨rfl, rfl, rfl, rfl⟩, rfl⟩

theorem writeLoc_frame (loc : Loc) (v : Word) (s : State) :
    SameUnits s (writeLoc v s loc) ∧ SameResults s (writeLoc v s loc) := by
  rcases writeLoc_cases loc v s with h | h | h | h | h | ⟨-, h⟩ | ⟨i, -, h⟩ | ⟨w, -, h⟩ <;> rw [h] <;>
    exact ⟨⟨rfl, rfl, rfl, ⟨rfl, rfl, rfl, rfl⟩, ⟨rfl, rfl⟩⟩, ⟨rfl, rfl, rfl, rfl⟩⟩

/-- A write while Idle other than to CMD leaves the control state and ERR alone. -/
theorem writeLoc_of_ne_cmd {loc : Loc} (v : Word) (s : State) (h : loc ≠ .reg .cmd) :
    (writeLoc v s loc).ctl = s.ctl ∧ (writeLoc v s loc).err = s.err := by
  rcases writeLoc_cases loc v s with hw | hw | hw | hw | hw | ⟨hcmd, -⟩ | ⟨i, -, hw⟩ | ⟨w, -, hw⟩
  case inr.inr.inr.inr.inr.inl => exact absurd hcmd h
  all_goals rw [hw]; exact ⟨rfl, rfl⟩

theorem writeBusy_frame (loc : Loc) (v : Word) (s : State) :
    SameUnits s (writeBusy v s loc) ∧ SameResults s (writeBusy v s loc) ∧ (writeBusy v s loc).err = s.err := by
  rw [writeBusy_eq]
  exact ⟨⟨rfl, rfl, rfl, ⟨rfl, rfl, rfl, rfl⟩, ⟨rfl, rfl⟩⟩, ⟨rfl, rfl, rfl, rfl⟩, rfl⟩

/-- A supported access leaves the units and the results alone, and ERR too unless it issues a command. -/
theorem hostAccess_frame {a : Access} {s t : State} (h : hostAccess a s = .next t) :
    SameUnits s t ∧ SameResults s t ∧ (t.err = s.err ∨ (t.err = .ok ∧ s.ctl = .idle ∧ t.busy = true)) := by
  obtain ⟨-, -, -, -, -, ⟨-, rfl⟩ | ⟨v, -, rfl⟩⟩ := hostAccess_next h
  · obtain ⟨hunits, hres, herr⟩ := hostRead_frame (locate s.cfg (a.addr - s.cfg.baseAddr)) s
    exact ⟨hunits, hres, .inl herr⟩
  · generalize locate s.cfg (a.addr - s.cfg.baseAddr) = loc
    cases hc : s.ctl with
    | idle =>
      rw [hostWrite_of_idle _ _ hc]
      obtain ⟨hunits, hres⟩ := writeLoc_frame loc v s
      refine ⟨hunits, hres, ?_⟩
      by_cases hcmd : loc = .reg .cmd
      · subst hcmd
        exact .inr ⟨rfl, rfl, rfl⟩
      · exact .inl (writeLoc_of_ne_cmd v s hcmd).2
    | busy c =>
      rw [hostWrite_of_busy _ _ hc]
      obtain ⟨hunits, hres, herr⟩ := writeBusy_frame loc v s
      exact ⟨hunits, hres, .inl herr⟩

theorem step_of_access_event {s : State} {a : Access} {es : List Event} (h : s.events = .access a :: es) :
    step s = hostAccess a { s with events := es } := by
  simp only [step, h, runEvent]

/-- Settles O20: by the frame of a supported access. -/
theorem hostAccessesReachTheTablesOnlyThroughCommands : Obligations.HostAccessesReachTheTablesOnlyThroughCommands := by
  unfold Obligations.HostAccessesReachTheTablesOnlyThroughCommands
  intro s t a es he h
  rw [step_of_access_event he] at h
  obtain ⟨units, results, herr⟩ := hostAccess_frame h
  exact ⟨units.freq, units.queue, units.tree, units.table, results.res0, results.res1, results.res2, results.errInfo,
    units.cfg, herr⟩

/-! ### The cases of a step -/

/-- The block's turn changes nothing, or completes a command, or completes an illegal word. -/
theorem blockTurn_cases {s t : State} (h : blockTurn s = .next t) :
    t = s ∨ (∃ i, exec i s = .next t) ∨ ∃ w, t = epilogue (illegalBody w (prologue s)) := by
  obtain ⟨rfl, -⟩ | ⟨c, -, -, rfl⟩ := blockTurn_next h
  · exact .inl rfl
  · unfold bodyOfIssued
    cases decode c.word with
    | some i => exact .inr (.inl ⟨i, exec_eq_next.2 rfl⟩)
    | none => exact .inr (.inr ⟨c.word, rfl⟩)

/-- A step that goes on takes an event off the list, if there is one, and then does one of these. -/
theorem step_cases {s t : State} (h : step s = .next t) : ∃ es,
    t = { s with events := es }
    ∨ (∃ i, exec i { s with events := es } = .next t)
    ∨ (∃ w, t = epilogue (illegalBody w (prologue { s with events := es })))
    ∨ (∃ a, s.events = .access a :: es ∧ hostAccess a { s with events := es } = .next t)
    ∨ (s.events = .resetAssert :: es ∧ t = hardwareReset { s with events := es })
    ∨ t = { s with events := es, resetHeld := false } := by
  obtain ⟨-, hturn⟩ | ⟨es, ⟨-, hturn⟩ | hacc | hassert | ⟨-, hrelease⟩⟩ := step_next h
  · exact ⟨s.events, (blockTurn_cases hturn).imp_right (Or.imp_right .inl)⟩
  · exact ⟨es, (blockTurn_cases hturn).imp_right (Or.imp_right .inl)⟩
  · exact ⟨es, .inr (.inr (.inr (.inl hacc)))⟩
  · exact ⟨es, .inr (.inr (.inr (.inr (.inl hassert))))⟩
  · exact ⟨es, .inr (.inr (.inr (.inr (.inr hrelease))))⟩

/-- Of the units' data a step changes nothing, or what a command changes, or all by a reset. -/
theorem step_units {s t : State} (h : step s = .next t) :
    SameUnits s t
    ∨ (∃ i u, SameUnits s u ∧ exec i u = .next t)
    ∨ ∃ u, t = hardwareReset u ∧ u.cfg = s.cfg := by
  have sameUnits_of_events (es : List Event) : SameUnits s { s with events := es } :=
    ⟨rfl, rfl, rfl, ⟨rfl, rfl, rfl, rfl⟩, ⟨rfl, rfl⟩⟩
  obtain ⟨es, rfl | ⟨i, hexec⟩ | ⟨w, rfl⟩ | ⟨a, -, hacc⟩ | ⟨-, rfl⟩ | rfl⟩ := step_cases h
  · exact .inl (sameUnits_of_events es)
  · exact .inr (.inl ⟨i, _, sameUnits_of_events es, hexec⟩)
  · exact .inl { sameUnits_of_events es with }
  · exact .inl { (hostAccess_frame hacc).1 with }
  · exact .inr (.inr ⟨_, rfl, rfl⟩)
  · exact .inl { sameUnits_of_events es with }

/-- No step changes the parameters. -/
theorem step_cfg {s t : State} (h : step s = .next t) : t.cfg = s.cfg := by
  obtain hsame | ⟨i, u, hsame, hexec⟩ | ⟨u, rfl, hu⟩ := step_units h
  · exact hsame.cfg
  · obtain ⟨hcfg, -⟩ := (exec_ownTablesOnly hexec).port
    rw [hcfg, hsame.cfg]
  · exact hu

/-! ### OVERRUN (10_state.md R41) -/

theorem cellGet_regMap_of_locate {p : Params} {off : Nat} {r : Reg} (h : locate p off = .reg r) :
    cellGet off regMap = some r := by
  unfold locate at h
  split at h
  · cases h
  · split at h
    · cases h
    · split at h
      · next hget =>
        cases h
        exact hget
      · cases h

theorem locate_eq_status_iff {p : Params} {off : Nat} : locate p off = .reg .status ↔ off = 0x020 := by
  constructor
  · intro h
    have hall : ∀ e ∈ regMap, e.2 = .status → e.1 = 0x020 := by decide
    exact hall _ (mem_of_cellGet (cellGet_regMap_of_locate h)) rfl
  · rintro rfl
    exact locate_reg (by decide) rfl

theorem writeLoc_overrun {loc : Loc} (v : Word) (s : State) (h : loc ≠ .reg .status) :
    (writeLoc v s loc).overrun = s.overrun := by
  cases loc with
  | reg r =>
    cases r with
    | status => exact absurd rfl h
    | _ => simp [writeLoc]
  | _ => simp [writeLoc]

theorem writeBusy_of_ne_status {loc : Loc} (v : Word) (s : State) (h : loc ≠ .reg .status) :
    writeBusy v s loc = { s with overrun := true } := by
  unfold writeBusy
  split
  · exact absurd rfl h
  · rfl

/-- An access that changes OVERRUN is a STATUS write with bit 3 set, or a write elsewhere dropped while Busy. -/
theorem hostAccess_overrun {a : Access} {s t : State} (h : hostAccess a s = .next t) (hne : t.overrun ≠ s.overrun) :
    (t.overrun = true ∧ ∃ (v : Word) (addr : Nat), a = { kind := .write v, bytes := 4, addr := addr }
        ∧ addr ≠ s.cfg.baseAddr + 0x020 ∧ s.busy = true)
    ∨ (t.overrun = false ∧ ∃ v : Word, a = { kind := .write v, bytes := 4, addr := s.cfg.baseAddr + 0x020 }
        ∧ v.getLsbD 3 = true) := by
  obtain ⟨kind, bytes, addr⟩ := a
  obtain ⟨-, hlo, -, rfl, -, ⟨-, rfl⟩ | ⟨v, rfl, rfl⟩⟩ := hostAccess_next h
  · rw [(hostRead_eq _ s).1] at hne
    exact absurd rfl hne
  · dsimp only at hlo hne ⊢
    by_cases hst : locate s.cfg (addr - s.cfg.baseAddr) = .reg .status
    · have haddr : addr = s.cfg.baseAddr + 0x020 := by
        have := locate_eq_status_iff.1 hst
        omega
      rw [hst, hostWrite_status, writeStatus_eq] at hne ⊢
      obtain ⟨-, hv⟩ : s.overrun = true ∧ v.getLsbD 3 = true := by simpa using hne
      exact .inr ⟨by simp [hv], v, by rw [haddr], hv⟩
    · cases hc : s.ctl with
      | idle =>
        rw [hostWrite_of_idle _ v hc, writeLoc_overrun v s hst] at hne
        exact absurd rfl hne
      | busy c =>
        rw [hostWrite_of_busy _ v hc, writeBusy_of_ne_status v s hst]
        refine .inl ⟨rfl, v, addr, rfl, fun haddr => hst (locate_eq_status_iff.2 ?_), busy_of_busy hc⟩
        omega

/-- Settles O24: of the cases of a step only an access and the assertion of reset can change OVERRUN. -/
theorem overrunChangesOnlyByDroppedWritesStatusAndReset :
    Obligations.OverrunChangesOnlyByDroppedWritesStatusAndReset := by
  unfold Obligations.OverrunChangesOnlyByDroppedWritesStatusAndReset
  intro s t h hne
  obtain ⟨es, rfl | ⟨i, hexec⟩ | ⟨w, rfl⟩ | ⟨a, he, hacc⟩ | ⟨he, rfl⟩ | rfl⟩ := step_cases h
  · exact absurd rfl hne
  · obtain ⟨-, -, -, -, hover, -⟩ := (exec_ownTablesOnly hexec).port
    exact absurd hover hne
  · exact absurd rfl hne
  · refine ⟨_, es, he, ?_⟩
    obtain ⟨hset, v, addr, rfl, haddr, hbusy⟩ | ⟨hclear, v, rfl, hv⟩ := hostAccess_overrun hacc hne
    · exact .inl ⟨hset, v, addr, rfl, haddr, hbusy⟩
    · exact .inr ⟨hclear, .inr ⟨v, rfl, hv⟩⟩
  · exact ⟨_, es, he, .inr ⟨rfl, .inl rfl⟩⟩
  · exact absurd rfl hne

/-! ### The queue keeps its order (10_state.md R32) -/

theorem queueOk_congr {s t : State} (hcfg : t.cfg = s.cfg) (hq : t.queue = s.queue) : t.queueOk = s.queueOk := by
  simp only [State.queueOk, hcfg, hq]

theorem queueOk_of_empty {s : State} (h : s.queue = []) : s.queueOk = true := by
  simp [queueOk_iff, h, weightsSorted]

/-- Placing an entry that fits, in a queue that is not full. -/
theorem queueOk_queuePlace {s : State} {w p : Nat} (h : s.queueOk = true) (hw : w < 2 ^ s.cfg.weightW)
    (hp : p < 2 ^ 16) (hcap : s.queue.length ≠ s.cfg.queueCap) :
    ({ s with queue := queuePlace w p s.queue } : State).queueOk = true := by
  obtain ⟨hsorted, hlen, hfit⟩ := (queueOk_iff s).1 h
  refine (queueOk_iff _).2 ⟨weightsSorted_queuePlace w p _ hsorted, ?_, fun e he => ?_⟩
  · dsimp only
    rw [length_queuePlace]
    omega
  · rcases mem_queuePlace.1 he with rfl | he
    · exact ⟨hw, hp⟩
    · exact hfit e he

theorem queueOk_tail {s : State} {e : QEntry} {rest : List QEntry} (h : s.queueOk = true) (hq : s.queue = e :: rest) :
    ({ s with queue := rest } : State).queueOk = true := by
  rw [queueOk_iff, hq] at h
  obtain ⟨hsorted, hlen, hfit⟩ := h
  rw [List.length_cons] at hlen
  exact (queueOk_iff _).2
    ⟨(weightsSorted_cons.1 hsorted).2, Nat.le_of_succ_le hlen, fun d hd => hfit d (List.mem_cons_of_mem _ hd)⟩

theorem bodyOf_queueOk (i : Instr) {s : State} (h : s.queueOk = true) : (bodyOf i s).st.queueOk = true := by
  have own := bodyOf_ownTablesOnly i s
  obtain ⟨hcfg, -⟩ := own.port
  cases i with
  | pqInsert =>
    obtain hst | ⟨hw, hp, hcap, hst⟩ := pqInsertBody_cases s <;> rw [bodyOf, hst]
    · exact h
    · exact queueOk_queuePlace h hw hp hcap
  | pqExtractMin =>
    obtain hst | ⟨e, rest, a, b, c, hq, hst⟩ := pqExtractMinBody_cases s <;> rw [bodyOf, hst]
    · exact h
    · exact queueOk_tail (s := s) h hq
  | buildTree =>
    obtain hst | ⟨-, a, b, c, hst⟩ := buildTreeBody_cases s <;> rw [bodyOf, hst]
    · exact h
    · exact queueOk_of_empty rfl
  | pqClear | clear => exact queueOk_of_empty rfl
  | _ => exact (queueOk_congr hcfg (own.queue (by decide))).trans h

theorem exec_queueOk {i : Instr} {s t : State} (h : s.queueOk = true) (hexec : exec i s = .next t) :
    t.queueOk = true := by
  rw [exec_eq_next] at hexec
  subst hexec
  exact bodyOf_queueOk i (s := prologue s) h

/-- Settles O4: the queue after a step is the one before, what a command makes of it, or empty. -/
theorem everyStepKeepsTheQueueInExtractionOrder : Obligations.EveryStepKeepsTheQueueInExtractionOrder := by
  unfold Obligations.EveryStepKeepsTheQueueInExtractionOrder
  intro s t hs h
  obtain hsame | ⟨i, u, hsame, hexec⟩ | ⟨u, rfl, -⟩ := step_units h
  · exact (queueOk_congr hsame.cfg hsame.queue).trans hs
  · exact exec_queueOk ((queueOk_congr hsame.cfg hsame.queue).trans hs) hexec
  · exact queueOk_of_empty rfl

/-! ### The laws of a built tree (41_tree_builder.md R90) -/

/-- The laws of an arena of `n` leaves, as propositions. -/
structure ArenaLaws (s : State) (n : Nat) : Prop where
  pos : 1 ≤ n
  le_alphabet : n ≤ s.cfg.alphabet
  length : s.nodes.length = 2 * n - 1
  used : s.nodeUsed = 2 * n - 1
  root : s.root = 2 * n - 2
  leaf : ∀ i, i < n → (s.node i).isLeaf = true ∧ (s.node i).sym < s.cfg.alphabet
    ∧ (s.node i).weight < 2 ^ s.cfg.freqW ∧ (s.node i).left = 0 ∧ (s.node i).right = 0
  leaf_order : ∀ i, i < n - 1 → (s.node i).sym < (s.node (i + 1)).sym
  internal : ∀ k, k < 2 * n - 1 → n ≤ k → (s.node k).isLeaf = false ∧ (s.node k).sym = 0
    ∧ (s.node k).left < k ∧ (s.node k).right < k
    ∧ (s.node k).weight = (s.node (s.node k).left).weight + (s.node (s.node k).right).weight
  child_once : ∀ j, j < 2 * n - 2 → (s.childrenFrom n (2 * n - 1)).count j = 1
  weight : ∀ nd ∈ s.nodes, nd.weight < 2 ^ s.cfg.weightW

theorem arenaOk_iff (s : State) : s.arenaOk = true ↔ ArenaLaws s s.leafCount := by
  simp only [State.arenaOk, Bool.and_eq_true, Bool.or_eq_true, Bool.not_eq_true', decide_eq_true_eq, beq_iff_eq,
    List.all_eq_true, List.mem_range, and_assoc]
  constructor
  · rintro ⟨hpos, hle, hlen, hused, hroot, hleaf, horder, hint, honce, hweight⟩
    exact ⟨hpos, hle, hlen, hused, hroot, hleaf, horder,
      fun k hk hn => (hint k hk).resolve_left (Nat.not_lt.2 hn), honce, hweight⟩
  · rintro ⟨hpos, hle, hlen, hused, hroot, hleaf, horder, hint, honce, hweight⟩
    exact ⟨hpos, hle, hlen, hused, hroot, hleaf, horder,
      fun k hk => (Nat.lt_or_ge k s.leafCount).imp_right (hint k hk), honce, hweight⟩

/-- A slot past the arena is the zero slot. -/
theorem node_of_length_le {s : State} {i : Nat} (h : s.nodes.length ≤ i) : s.node i = zeroNode :=
  List.getD_eq_default _ _ h

/-- Every leaf of an arena that meets the laws holds a symbol of the alphabet. -/
theorem ArenaLaws.leaf_sym_lt {s : State} {n i : Nat} (h : ArenaLaws s n) (hl : (s.node i).isLeaf = true) :
    (s.node i).sym < s.cfg.alphabet := by
  by_cases hi : i < n
  · exact (h.leaf i hi).2.1
  · by_cases hk : i < 2 * n - 1
    · have := (h.internal i hk (by omega)).1
      rw [hl] at this
      cases this
    · rw [node_of_length_le (by rw [h.length]; omega)] at hl
      cases hl

theorem treeOk_of_valid {s : State} (h : s.treeOk = true) (hv : s.treeValid = true) : ArenaLaws s s.leafCount := by
  rw [State.treeOk, if_pos hv] at h
  exact (arenaOk_iff s).1 h

/-! ### The buffers stay canonical (10_state.md R37, R38) -/

/-- The canonical form of SYMBUF under the parameters `p`. -/
structure SymbufOk (p : Params) (m : Cells Nat) : Prop where
  rising : cellsRising m = true
  below : cellsBelow p.symDepth m = true
  sym : ∀ e ∈ m, e.2 < p.alphabet

/-- The canonical form of BITBUF under the parameters `p`. -/
structure BitbufOk (p : Params) (m : Cells Bool) : Prop where
  rising : cellsRising m = true
  below : cellsBelow p.bitDepth m = true

theorem memory_wf_iff_buffers (s : State) : Memory.wf s = true ↔ SymbufOk s.cfg s.symbuf ∧ BitbufOk s.cfg s.bitbuf := by
  rw [memory_wf_iff]
  exact ⟨fun ⟨hs, hL, hN, hb, hB⟩ => ⟨⟨hs, hL, hN⟩, hb, hB⟩, fun ⟨⟨hs, hL, hN⟩, hb, hB⟩ => ⟨hs, hL, hN, hb, hB⟩⟩

theorem SymbufOk.cellPut {p : Params} {m : Cells Nat} {i x : Nat} (h : SymbufOk p m) (hi : i < p.symDepth)
    (hx : x < p.alphabet) : SymbufOk p (cellPut i x m) := by
  refine ⟨cellsRising_cellPut i x m h.rising, cellsBelow_cellPut x h.below hi, fun e he => ?_⟩
  obtain rfl | he := mem_cellPut he
  · exact hx
  · exact h.sym e he

theorem SymbufOk.decodeLeafLoop {p : Params} {x : Nat} (hx : x < p.alphabet) (rem k cnt : Nat) {out : Cells Nat}
    (h : SymbufOk p out) (hc : cnt ≤ p.symDepth) : SymbufOk p (decodeLeafLoop p.symDepth x rem k cnt out).out := by
  induction rem generalizing k cnt out with
  | zero => exact h
  | succ rem ih =>
    simp only [Machine.decodeLeafLoop]
    split
    · exact h
    · exact ih _ _ (h.cellPut (by omega) hx) (by omega)

theorem SymbufOk.decodeLoop {s : State} (hleaf : ∀ i, (s.node i).isLeaf = true → (s.node i).sym < s.cfg.alphabet)
    (rem k cur start cnt : Nat) {out : Cells Nat} (h : SymbufOk s.cfg out) (hc : cnt ≤ s.cfg.symDepth) :
    SymbufOk s.cfg (decodeLoop s rem k cur start cnt out).out := by
  induction rem generalizing k cur start cnt out with
  | zero => exact h
  | succ rem ih =>
    simp only [Machine.decodeLoop]
    generalize (if s.bitRead k = true then (s.node cur).right else (s.node cur).left) = next
    split
    · next hl =>
      split
      · exact h
      · exact ih _ _ _ _ (h.cellPut (by omega) (hleaf next hl)) (by omega)
    · exact ih _ _ _ _ h hc

theorem symbufOk_decodeRun {s : State} (hleaf : ∀ i, (s.node i).isLeaf = true → (s.node i).sym < s.cfg.alphabet)
    (h : SymbufOk s.cfg s.symbuf) : SymbufOk s.cfg (decodeRun s).out := by
  unfold decodeRun
  split
  · next hl => exact h.decodeLeafLoop (hleaf s.root hl) _ _ _ (Nat.zero_le _)
  · exact h.decodeLoop hleaf _ _ _ _ _ (Nat.zero_le _)

theorem bodyOf_memory_wf (i : Instr) {s : State} (htree : s.treeOk = true) (h : Memory.wf s = true) :
    Memory.wf (bodyOf i s).st = true := by
  have own := bodyOf_ownTablesOnly i s
  obtain ⟨hcfg, -⟩ := own.port
  obtain ⟨hsym, hbit⟩ := (memory_wf_iff_buffers s).1 h
  rw [memory_wf_iff_buffers, hcfg]
  refine ⟨?_, ?_⟩
  · by_cases hi : i = .decode
    · subst hi
      obtain hst | ⟨hv, a, b, c, hst⟩ := decodeBody_cases s <;> rw [bodyOf, hst]
      · exact hsym
      · exact symbufOk_decodeRun (fun _ => (treeOk_of_valid htree hv).leaf_sym_lt) hsym
    · rw [own.symbuf hi]
      exact hsym
  · by_cases hi : i = .encode
    · subst hi
      obtain hst | ⟨a, b, c, hst⟩ := encodeBody_cases s <;> rw [bodyOf, hst]
      · exact hbit
      · obtain ⟨hrising, hbelow⟩ := encodeLoop_canonical s s.op0.toNat 0 0 s.bitbuf hbit.rising hbit.below
        exact ⟨hrising, hbelow⟩
    · rw [own.bitbuf hi]
      exact hbit

theorem exec_memory_wf {i : Instr} {s t : State} (htree : s.treeOk = true) (h : Memory.wf s = true)
    (hexec : exec i s = .next t) : Memory.wf t = true := by
  rw [exec_eq_next] at hexec
  subst hexec
  exact bodyOf_memory_wf i (s := prologue s) htree h

/-- A write while Idle lands inside the window its offset names. -/
theorem writeLoc_memory_wf {s : State} {off : Nat} (v : Word) (hp : s.cfg.legal = true) (ha : off % 4 = 0)
    (h : Memory.wf s = true) : Memory.wf (writeLoc v s (locate s.cfg off)) = true := by
  rcases writeLoc_cases (locate s.cfg off) v s with
    hw | hw | hw | hw | hw | ⟨-, hw⟩ | ⟨i, hloc, hw⟩ | ⟨w, hloc, hw⟩
  case inr.inr.inr.inr.inr.inr.inl =>
    rw [hw]
    have := alphabet_bounds hp
    exact memory_wf_symWrite h (locate_symbuf hloc) (Nat.mod_lt _ (by omega))
  case inr.inr.inr.inr.inr.inr.inr =>
    rw [hw]
    obtain ⟨-, -, -, -, -, -, hB, -⟩ := legal_bounds hp
    exact memory_wf_putBits _ h (locate_bitbuf hloc ha hB)
  all_goals rw [hw]; exact h

theorem hostAccess_memory_wf {a : Access} {s t : State} (hp : s.cfg.legal = true) (h : Memory.wf s = true)
    (hacc : hostAccess a s = .next t) : Memory.wf t = true := by
  obtain ⟨-, -, -, -, ha, ⟨-, rfl⟩ | ⟨v, -, rfl⟩⟩ := hostAccess_next hacc
  · rw [(hostRead_eq _ s).1]
    exact h
  · cases hc : s.ctl with
    | idle =>
      rw [hostWrite_of_idle _ v hc]
      exact writeLoc_memory_wf v hp ha h
    | busy c =>
      rw [hostWrite_of_busy _ v hc, writeBusy_eq]
      exact h

/-- Settles O5: DECODE writes leaf symbols below L, ENCODE bits below B, a host write lands in its window, and no other
step writes a buffer but reset, which empties both. -/
theorem everyStepKeepsTheBuffersCanonical : Obligations.EveryStepKeepsTheBuffersCanonical := by
  unfold Obligations.EveryStepKeepsTheBuffersCanonical
  intro s t hp htree h hstep
  obtain ⟨es, rfl | ⟨i, hexec⟩ | ⟨w, rfl⟩ | ⟨a, -, hacc⟩ | ⟨-, rfl⟩ | rfl⟩ := step_cases hstep
  · exact h
  · exact exec_memory_wf (s := { s with events := es }) htree h hexec
  · exact h
  · exact hostAccess_memory_wf (s := { s with events := es }) hp h hacc
  · exact memory_wf_reset
  · exact h

/-! ### The mapping, the code table and the control state (10_state.md R28, R30, R36) -/

theorem freqOk_congr {s t : State} (hcfg : t.cfg = s.cfg) (hf : t.freq = s.freq) : t.freqOk = s.freqOk := by
  simp only [State.freqOk, hcfg, hf]

theorem freqOk_of_empty {s : State} (h : s.freq = []) : s.freqOk = true := by
  simp [freqOk_iff, h, cellsRising, cellsBelow]

theorem freqOk_cellPut {s : State} {x f : Nat} (h : s.freqOk = true) (hx : x < s.cfg.alphabet)
    (hf : f < 2 ^ s.cfg.freqW) : ({ s with freq := cellPut x f s.freq } : State).freqOk = true := by
  obtain ⟨hrising, hbelow, hfit⟩ := (freqOk_iff s).1 h
  refine (freqOk_iff _).2 ⟨cellsRising_cellPut x f _ hrising, cellsBelow_cellPut f hbelow hx, fun e he => ?_⟩
  obtain rfl | he := mem_cellPut he
  · exact hf
  · exact hfit e he

theorem freqOk_cellDrop {s : State} (x : Nat) (h : s.freqOk = true) :
    ({ s with freq := cellDrop x s.freq } : State).freqOk = true := by
  obtain ⟨hrising, hbelow, hfit⟩ := (freqOk_iff s).1 h
  exact (freqOk_iff _).2 ⟨cellsRising_cellDrop x _ hrising, cellsBelow_cellDrop x hbelow,
    fun e he => hfit e (List.mem_filter.1 he).1⟩

theorem bodyOf_freqOk (i : Instr) {s : State} (h : s.freqOk = true) : (bodyOf i s).st.freqOk = true := by
  have own := bodyOf_ownTablesOnly i s
  obtain ⟨hcfg, -⟩ := own.port
  cases i with
  | freqSet =>
    obtain hst | ⟨hx, hf, hst⟩ := freqSetBody_cases s <;> rw [bodyOf, hst]
    · exact h
    · exact freqOk_cellPut h hx hf
  | freqUnset =>
    obtain hst | hst := freqUnsetBody_cases s <;> rw [bodyOf, hst]
    · exact h
    · exact freqOk_cellDrop _ h
  | freqClear | clear => exact freqOk_of_empty rfl
  | _ => exact (freqOk_congr hcfg (own.freq (by decide))).trans h

theorem tableOk_congr {s t : State} (htree : SameTree s t) (htable : SameTable s t) : t.tableOk = s.tableOk := by
  obtain ⟨hnodes, hroot, -, hvalid⟩ := htree
  obtain ⟨hcode, htv⟩ := htable
  simp only [State.tableOk, hnodes, hroot, hvalid, hcode, htv]

/-- Without TABLE_VALID the table is to be empty. -/
theorem tableOk_of_empty {s : State} (hv : s.tableValid = false) (h : s.code = []) : s.tableOk = true := by
  simp [State.tableOk, hv, h]

theorem bodyOf_tableOk (i : Instr) {s : State} (h : s.tableOk = true) : (bodyOf i s).st.tableOk = true := by
  have own := bodyOf_ownTablesOnly i s
  cases i with
  | buildTree =>
    obtain hst | ⟨-, a, b, c, hst⟩ := buildTreeBody_cases s <;> rw [bodyOf, hst]
    · exact h
    · exact tableOk_of_empty rfl rfl
  | buildCodeTable =>
    obtain hst | ⟨hv, a, b, c, hst⟩ := buildCodeTableBody_cases s <;> rw [bodyOf, hst]
    · exact h
    · simp [State.tableOk, hv]
  | clear => exact tableOk_of_empty rfl rfl
  | _ => exact (tableOk_congr (own.tree (by decide)) (own.table (by decide))).trans h

theorem ctlOk_of_idle {s : State} (h : s.ctl = .idle) : s.ctlOk = true := by simp only [State.ctlOk, h]

/-- A command just issued has captured ARG0 to ARG2 and cleared ERR. -/
theorem ctlOk_issue (w : Word) {s : State} (h : s.resetHeld = false) : (issue w s).ctlOk = true := by
  simp [State.ctlOk, issue, h]

theorem hostAccess_ctlOk {a : Access} {s t : State} (h : s.ctlOk = true) (hacc : hostAccess a s = .next t) :
    t.ctlOk = true := by
  obtain ⟨hr, -, -, -, -, ⟨-, rfl⟩ | ⟨v, -, rfl⟩⟩ := hostAccess_next hacc
  · rw [(hostRead_eq _ s).1]
    exact h
  · generalize locate s.cfg (a.addr - s.cfg.baseAddr) = loc
    cases hc : s.ctl with
    | idle =>
      rw [hostWrite_of_idle _ v hc]
      by_cases hcmd : loc = .reg .cmd
      · subst hcmd
        exact ctlOk_issue v hr
      · exact ctlOk_of_idle ((writeLoc_of_ne_cmd v s hcmd).1.trans hc)
    | busy c =>
      rw [hostWrite_of_busy _ v hc, writeBusy_eq]
      exact h

theorem exec_idle {i : Instr} {s t : State} (h : exec i s = .next t) : t.ctl = .idle := by
  rw [exec_eq_next] at h
  subst h
  rfl

theorem ctlOk_release {s : State} (h : s.ctlOk = true) : ({ s with resetHeld := false } : State).ctlOk = true := by
  cases hc : s.ctl with
  | idle => exact ctlOk_of_idle rfl
  | busy c =>
    simp only [State.ctlOk, hc, Bool.and_eq_true] at h ⊢
    obtain ⟨⟨⟨⟨herr, -⟩, h0⟩, h1⟩, h2⟩ := h
    exact ⟨⟨⟨⟨herr, rfl⟩, h0⟩, h1⟩, h2⟩

theorem step_ctlOk {s t : State} (h : s.ctlOk = true) (hstep : step s = .next t) : t.ctlOk = true := by
  obtain ⟨es, rfl | ⟨i, hexec⟩ | ⟨w, rfl⟩ | ⟨a, -, hacc⟩ | ⟨-, rfl⟩ | rfl⟩ := step_cases hstep
  · exact h
  · exact ctlOk_of_idle (exec_idle hexec)
  · exact ctlOk_of_idle rfl
  · exact hostAccess_ctlOk (s := { s with events := es }) h hacc
  · exact ctlOk_of_idle rfl
  · exact ctlOk_release (s := { s with events := es }) h

/-! ### The invariant of the whole state -/

/-- The parts of the invariant. -/
structure Invariant (s : State) : Prop where
  legal : s.cfg.legal = true
  freq : s.freqOk = true
  queue : s.queueOk = true
  tree : s.treeOk = true
  table : s.tableOk = true
  memory : Memory.wf s = true
  ctl : s.ctlOk = true

theorem inv_iff (s : State) : s.inv = true ↔ Invariant s := by
  simp only [State.inv, Bool.and_eq_true, and_assoc]
  exact ⟨fun ⟨hlegal, hfreq, hqueue, htree, htable, hmem, hctl⟩ => ⟨hlegal, hfreq, hqueue, htree, htable, hmem, hctl⟩,
    fun ⟨hlegal, hfreq, hqueue, htree, htable, hmem, hctl⟩ => ⟨hlegal, hfreq, hqueue, htree, htable, hmem, hctl⟩⟩

theorem treeOk_of_empty {s : State} (hv : s.treeValid = false) (hn : s.nodes = []) (hr : s.root = 0)
    (hu : s.nodeUsed = 0) : s.treeOk = true := by
  simp [State.treeOk, hv, hn, hr, hu]

/-- The default parameters are legal wherever the block stands. -/
theorem legal_default : Params.default.legal = true := by
  simp [Params.legal, Params.default]

/-- Settles O2: the units are empty and the block is Idle. -/
theorem resetStateMeetsTheInvariant : Obligations.ResetStateMeetsTheInvariant := by
  unfold Obligations.ResetStateMeetsTheInvariant
  exact (inv_iff _).2 ⟨legal_default, freqOk_of_empty rfl, queueOk_of_empty rfl, treeOk_of_empty rfl rfl rfl rfl,
    tableOk_of_empty rfl rfl, memory_wf_reset, ctlOk_of_idle rfl⟩

/-! ### BUILD_TREE builds a tree that meets the laws (41_tree_builder.md R89, R90) -/

theorem arenaNode_eq_getElem? (arena : List Node) (i : Nat) : arenaNode arena i = (arena[i]?).getD zeroNode :=
  List.getD_eq_getElem?_getD

theorem arenaNode_append_left {arena : List Node} {i : Nat} (more : List Node) (h : i < arena.length) :
    arenaNode (arena ++ more) i = arenaNode arena i :=
  List.getD_append _ _ _ _ h

/-- The children the listed internal nodes name. -/
def childrenOf (ints : List Node) : List Nat := ints.flatMap fun nd => [nd.left, nd.right]

/-- What holds between the turns of the merge loop: `q` is the queue, and the arena is the leaves of `freq` followed by the
internal nodes `ints`. Every node made so far is either in the queue or a child, exactly once. -/
structure Merging (freq : Cells Nat) (q : List QEntry) (ints : List Node) : Prop where
  once : (q.map QEntry.payload ++ childrenOf ints).Perm (List.range (freq.length + ints.length))
  entry : ∀ e ∈ q, (arenaNode (leavesOf freq ++ ints) e.payload).weight = e.weight
  internal : ∀ i nd, ints[i]? = some nd → nd.isLeaf = false ∧ nd.sym = 0
    ∧ nd.left < freq.length + i ∧ nd.right < freq.length + i
    ∧ nd.weight = (arenaNode (leavesOf freq ++ ints) nd.left).weight + (arenaNode (leavesOf freq ++ ints) nd.right).weight
  total : (q.map QEntry.weight).sum = (freq.map Prod.snd).sum
  bound : ∀ nd ∈ ints, nd.weight ≤ (freq.map Prod.snd).sum

theorem length_leavesOf_append (freq : Cells Nat) (ints : List Node) :
    (leavesOf freq ++ ints).length = freq.length + ints.length := by
  simp [leavesOf]

/-- A leaf as inserted: its weight, and its index as payload. -/
def leafEntry (x : (Nat × Nat) × Nat) : QEntry := { weight := x.1.2, payload := x.2 }

/-- The leaves go into the queue each with its own index. -/
theorem perm_enqueueLeaves (freq : Cells Nat) (i : Nat) (q : List QEntry) :
    (enqueueLeaves freq i q).Perm ((freq.zipIdx i).map leafEntry ++ q) := by
  induction freq generalizing i q with
  | nil => exact List.Perm.refl q
  | cons e rest ih =>
    rw [enqueueLeaves, List.zipIdx_cons, List.map_cons]
    exact (ih (i + 1) _).trans (((perm_queuePlace e.2 i q).append_left _).trans List.perm_middle)

theorem arenaNode_leaf {freq : Cells Nat} {i : Nat} {e : Nat × Nat} (ints : List Node) (h : freq[i]? = some e) :
    arenaNode (leavesOf freq ++ ints) i = leafNode e.1 e.2 := by
  have hi : i < (leavesOf freq).length := by
    rw [leavesOf, List.length_map]
    exact (List.getElem?_eq_some_iff.1 h).1
  rw [arenaNode_append_left ints hi, arenaNode_eq_getElem?, leavesOf, List.getElem?_map, h]
  rfl

theorem arenaNode_past_leaves (freq : Cells Nat) (ints : List Node) (i : Nat) :
    arenaNode (leavesOf freq ++ ints) (freq.length + i) = arenaNode ints i := by
  have hlen : (leavesOf freq).length = freq.length := by simp [leavesOf]
  rw [arenaNode_eq_getElem?, List.getElem?_append_right (by omega), hlen, Nat.add_sub_cancel_left,
    arenaNode_eq_getElem?]

theorem arenaNode_internal {freq : Cells Nat} {ints : List Node} {i : Nat} {nd : Node} (h : ints[i]? = some nd) :
    arenaNode (leavesOf freq ++ ints) (freq.length + i) = nd := by
  rw [arenaNode_past_leaves, arenaNode_eq_getElem?, h]
  rfl

/-- With the leaves inserted no internal node is made yet. -/
theorem merging_start (freq : Cells Nat) : Merging freq (enqueueLeaves freq 0 []) [] := by
  have hperm : (enqueueLeaves freq 0 []).Perm (freq.zipIdx.map leafEntry) := by
    simpa using perm_enqueueLeaves freq 0 []
  have hpayload : (freq.zipIdx.map leafEntry).map QEntry.payload = List.range freq.length := by
    rw [List.map_map, List.range_eq_range', ← List.zipIdx_map_snd 0 freq]
    rfl
  have hweight : (freq.zipIdx.map leafEntry).map QEntry.weight = freq.map Prod.snd := by
    conv_rhs => rw [← List.zipIdx_map_fst 0 freq]
    rw [List.map_map, List.map_map]
    rfl
  constructor
  case once => simpa [childrenOf, hpayload] using hperm.map QEntry.payload
  case entry =>
    intro e he
    obtain ⟨⟨x, i⟩, hx, rfl⟩ := List.mem_map.1 (hperm.mem_iff.1 he)
    rw [leafEntry, arenaNode_leaf [] (List.mem_zipIdx_iff_getElem?.1 hx)]
    rfl
  case internal => simp
  case total => rw [(hperm.map QEntry.weight).sum_eq, hweight]
  case bound => simp

theorem childrenOf_concat (ints : List Node) (nd : Node) :
    childrenOf (ints ++ [nd]) = childrenOf ints ++ [nd.left, nd.right] := by
  simp [childrenOf]

/-- The two front entries go to the back of the children, and the new entry takes their place. -/
theorem perm_two_to_back (x a b : Nat) (rest children : List Nat) :
    (x :: rest ++ (children ++ [a, b])).Perm (a :: b :: rest ++ children ++ [x]) := by
  refine List.perm_iff_count.2 fun j => ?_
  simp only [List.count_append, List.count_cons, List.count_nil]
  omega

/-- A turn of the merge loop takes two entries off the queue as the children of the next node, and inserts that node. -/
theorem Merging.turn {freq : Cells Nat} {a b : QEntry} {rest : List QEntry} {ints : List Node}
    (h : Merging freq (a :: b :: rest) ints) :
    Merging freq (queuePlace (a.weight + b.weight) (freq.length + ints.length) rest)
      (ints ++ [internalNode (a.weight + b.weight) a.payload b.payload]) := by
  have hlt : ∀ j ∈ (a :: b :: rest).map QEntry.payload, j < freq.length + ints.length := fun j hj =>
    List.mem_range.1 (h.once.mem_iff.1 (List.mem_append_left _ hj))
  simp only [List.map_cons, List.forall_mem_cons] at hlt
  obtain ⟨ha, hb, hrest⟩ := hlt
  have hkeep : ∀ j, j < freq.length + ints.length → ∀ x,
      arenaNode (leavesOf freq ++ (ints ++ [x])) j = arenaNode (leavesOf freq ++ ints) j := fun j hj x => by
    rw [← List.append_assoc]
    exact arenaNode_append_left _ (by rwa [length_leavesOf_append])
  constructor
  case once =>
    rw [childrenOf_concat, List.length_append, List.length_singleton, ← Nat.add_assoc, List.range_succ]
    have hplaced := (perm_queuePlace (a.weight + b.weight) (freq.length + ints.length) rest).map QEntry.payload
    exact (hplaced.append_right _).trans ((perm_two_to_back _ _ _ _ _).trans (h.once.append_right _))
  case entry =>
    intro e he
    obtain rfl | he := mem_queuePlace.1 he
    · rw [arenaNode_internal List.getElem?_concat_length]
      rfl
    · rw [hkeep _ (hrest _ (List.mem_map_of_mem he))]
      exact h.entry e (by simp [he])
  case internal =>
    intro i nd hi
    rw [List.getElem?_append] at hi
    split at hi
    · obtain ⟨hleaf, hsym, hl, hr, hw⟩ := h.internal i nd hi
      rw [hkeep _ (by omega), hkeep _ (by omega)]
      exact ⟨hleaf, hsym, hl, hr, hw⟩
    · obtain ⟨hi0, hnd⟩ : i - ints.length = 0 ∧ internalNode (a.weight + b.weight) a.payload b.payload = nd := by
        simpa [List.getElem?_singleton] using hi
      subst hnd
      refine ⟨rfl, rfl, ?_, ?_, ?_⟩
      · show a.payload < _
        omega
      · show b.payload < _
        omega
      · show a.weight + b.weight = (arenaNode _ a.payload).weight + (arenaNode _ b.payload).weight
        rw [hkeep _ ha, hkeep _ hb, h.entry a (by simp), h.entry b (by simp)]
  case total =>
    rw [((perm_queuePlace _ _ rest).map QEntry.weight).sum_eq, ← h.total]
    simp [Nat.add_assoc]
  case bound =>
    intro nd hnd
    obtain hnd | hnd := List.mem_append.1 hnd
    · exact h.bound nd hnd
    · obtain rfl := List.mem_singleton.1 hnd
      rw [← h.total]
      simp [internalNode, ← Nat.add_assoc]

/-- The whole merge loop, from any stage of it. -/
theorem Merging.loop {freq : Cells Nat} (fuel : Nat) {q : List QEntry} {ints : List Node} (h : Merging freq q ints) :
    ∃ ints', (mergeNodes fuel q (leavesOf freq ++ ints)).2 = leavesOf freq ++ ints'
      ∧ Merging freq (mergeNodes fuel q (leavesOf freq ++ ints)).1 ints' := by
  induction fuel generalizing q ints with
  | zero => exact ⟨ints, rfl, h⟩
  | succ fuel ih =>
    match q with
    | [] => exact ⟨ints, rfl, h⟩
    | [e] => exact ⟨ints, rfl, h⟩
    | a :: b :: rest =>
      have := ih h.turn
      rwa [← List.append_assoc, ← length_leavesOf_append] at this

/-- The build ends with one entry over the finished arena: n leaves and n - 1 internal nodes. -/
theorem buildArena_merging {freq : Cells Nat} (h : 1 ≤ freq.length) : ∃ e ints,
    (buildArena freq).1 = [e] ∧ (buildArena freq).2 = leavesOf freq ++ ints ∧ Merging freq [e] ints
    ∧ ints.length = freq.length - 1 := by
  obtain ⟨hq, harena⟩ := buildArena_lengths freq h
  obtain ⟨e, he⟩ := List.length_eq_one_iff.1 hq
  obtain ⟨ints, hints, hm⟩ : ∃ ints, (buildArena freq).2 = leavesOf freq ++ ints ∧ Merging freq (buildArena freq).1 ints := by
    simpa [buildArena] using (merging_start freq).loop freq.length
  rw [he] at hm
  rw [hints, length_leavesOf_append] at harena
  exact ⟨e, ints, he, hints, hm, by omega⟩


/-- A child is made before its parent, and so before the last node. -/
theorem Merging.child_lt {freq : Cells Nat} {q : List QEntry} {ints : List Node} (h : Merging freq q ints) {j : Nat}
    (hj : j ∈ childrenOf ints) : j < freq.length + ints.length - 1 := by
  obtain ⟨nd, hnd, hj⟩ := List.mem_flatMap.1 hj
  obtain ⟨i, hi⟩ := List.mem_iff_getElem?.1 hnd
  have hlen := (List.getElem?_eq_some_iff.1 hi).1
  obtain ⟨-, -, hl, hr, -⟩ := h.internal i nd hi
  simp only [List.mem_cons, List.not_mem_nil, or_false] at hj
  omega

/-- The last node made is no child, so it is the one in the queue: the root. -/
theorem Merging.root {freq : Cells Nat} {e : QEntry} {ints : List Node} (h : Merging freq [e] ints)
    (hn : 1 ≤ freq.length) : e.payload = freq.length + ints.length - 1 := by
  have hmem : freq.length + ints.length - 1 ∈ [e].map QEntry.payload ++ childrenOf ints :=
    h.once.mem_iff.2 (List.mem_range.2 (by omega))
  obtain hq | hc := List.mem_append.1 hmem
  · exact (List.mem_singleton.1 hq).symm
  · exact absurd (h.child_lt hc) (Nat.lt_irrefl _)

/-- Every node but the root is a child exactly once. -/
theorem Merging.count_childrenOf {freq : Cells Nat} {e : QEntry} {ints : List Node} (h : Merging freq [e] ints)
    (hn : 1 ≤ freq.length) {j : Nat} (hj : j < freq.length + ints.length - 1) : (childrenOf ints).count j = 1 := by
  have hcount := h.once.count_eq j
  have hne : e.payload ≠ j := by
    rw [h.root hn]
    omega
  rw [List.count_eq_one_of_mem List.nodup_range (List.mem_range.2 (by omega))] at hcount
  simpa [List.count_cons_of_ne hne] using hcount

theorem flatMap_range_arenaNode {β : Type} (arena : List Node) (f : Node → List β) :
    (List.range arena.length).flatMap (fun i => f (arenaNode arena i)) = arena.flatMap f := by
  induction arena with
  | nil => rfl
  | cons nd arena ih =>
    rw [List.length_cons, List.range_succ_eq_map, List.flatMap_cons, List.flatMap_cons, List.flatMap_map]
    exact congrArg (f nd ++ ·) ih

/-- The children the model lists for an arena of n leaves and these internal nodes. -/
theorem childrenFrom_eq {s : State} {freq : Cells Nat} {ints : List Node} (hn : s.nodes = leavesOf freq ++ ints) :
    s.childrenFrom freq.length (freq.length + ints.length) = childrenOf ints := by
  have hleaves : (List.range freq.length).flatMap
      (fun k => if freq.length ≤ k then [(s.node k).left, (s.node k).right] else []) = [] := by
    refine List.flatMap_eq_nil_iff.2 fun k hk => if_neg ?_
    have := List.mem_range.1 hk
    omega
  have hnode : ∀ i, s.node (freq.length + i) = arenaNode ints i := fun i => by
    rw [← arenaNode_past_leaves freq, ← hn]
    rfl
  rw [State.childrenFrom, List.range_add, List.flatMap_append, hleaves, List.nil_append, List.flatMap_map]
  simp only [Nat.le_add_right, if_true, hnode]
  exact flatMap_range_arenaNode ints fun nd => [nd.left, nd.right]

/-- The frequencies of at most N symbols add up to a weight. -/
theorem sum_freq_lt {s : State} (h : s.freqOk = true) : (s.freq.map Prod.snd).sum < 2 ^ s.cfg.weightW := by
  obtain ⟨-, -, hfit⟩ := (freqOk_iff s).1 h
  have hcount : s.freq.length ≤ 2 ^ s.cfg.symW := freqCount_le h
  have hpos := Nat.two_pow_pos s.cfg.freqW
  calc (s.freq.map Prod.snd).sum
      _ ≤ (s.freq.map Prod.snd).length • (2 ^ s.cfg.freqW - 1) := by
        refine List.sum_le_card_nsmul _ _ fun x hx => ?_
        obtain ⟨e, he, rfl⟩ := List.mem_map.1 hx
        have := hfit e he
        omega
      _ = s.freq.length * (2 ^ s.cfg.freqW - 1) := by rw [List.length_map, smul_eq_mul]
      _ ≤ 2 ^ s.cfg.symW * (2 ^ s.cfg.freqW - 1) := Nat.mul_le_mul_right _ hcount
      _ < 2 ^ s.cfg.symW * 2 ^ s.cfg.freqW := Nat.mul_lt_mul_of_pos_left (by omega) (Nat.two_pow_pos _)
      _ = 2 ^ s.cfg.weightW := by rw [Params.weightW, Nat.pow_add, Nat.mul_comm]

/-- The mapping's symbols rise along its entries. -/
theorem cellsRising_getElem? {α : Type} {m : Cells α} (h : cellsRising m = true) {i : Nat} {d e : Nat × α}
    (hd : m[i]? = some d) (he : m[i + 1]? = some e) : d.1 < e.1 := by
  induction m generalizing i with
  | nil => cases hd
  | cons x rest ih =>
    obtain ⟨hlt, hrest⟩ := cellsRising_cons.1 h
    cases i with
    | zero =>
      cases hd
      exact hlt e (List.mem_of_getElem? he)
    | succ i => exact ih hrest hd he

/-- Only the leaves of the mapping are leaves of the arena. -/
theorem Merging.leafCount {s : State} {freq : Cells Nat} {q : List QEntry} {ints : List Node} (h : Merging freq q ints)
    (hn : s.nodes = leavesOf freq ++ ints) : s.leafCount = freq.length := by
  have hints : ints.countP (fun nd => nd.isLeaf) = 0 := List.countP_eq_zero.2 fun nd hnd => by
    obtain ⟨i, hi⟩ := List.mem_iff_getElem?.1 hnd
    simp [(h.internal i nd hi).1]
  have hleaves : (leavesOf freq).countP (fun nd => nd.isLeaf) = freq.length := by
    simp [leavesOf, List.countP_map, Function.comp_def, leafNode]
  rw [State.leafCount, hn, List.countP_append, hints, hleaves, Nat.add_zero]

/-- A state over a finished build meets the laws, with one leaf for each present symbol. -/
theorem Merging.arenaLaws {s : State} {e : QEntry} {ints : List Node} (hf : s.freqOk = true) (hpos : 1 ≤ s.freq.length)
    (h : Merging s.freq [e] ints) (hlen : ints.length = s.freq.length - 1)
    (hnodes : s.nodes = leavesOf s.freq ++ ints) (hroot : s.root = e.payload) (hused : s.nodeUsed = s.nodes.length) :
    ArenaLaws s s.freq.length := by
  obtain ⟨hrising, hbelow, hfit⟩ := (freqOk_iff s).1 hf
  simp only [cellsBelow, List.all_eq_true, decide_eq_true_eq] at hbelow
  have hnode : ∀ i, s.node i = arenaNode (leavesOf s.freq ++ ints) i := fun i => by
    rw [← hnodes]
    rfl
  have hleaf : ∀ i d, s.freq[i]? = some d → s.node i = leafNode d.1 d.2 := fun i d hd => by
    rw [hnode, arenaNode_leaf ints hd]
  have hlength : s.nodes.length = 2 * s.freq.length - 1 := by
    rw [hnodes, length_leavesOf_append]
    omega
  have hsum : s.freq.length + ints.length = 2 * s.freq.length - 1 := by omega
  constructor
  case pos => exact hpos
  case le_alphabet => exact freqCount_le hf
  case length => exact hlength
  case used => rw [hused, hlength]
  case root =>
    rw [hroot, h.root hpos]
    omega
  case leaf =>
    intro i hi
    have hd := List.getElem?_eq_getElem hi
    have hmem := List.mem_of_getElem? hd
    rw [hleaf i _ hd]
    exact ⟨rfl, hbelow _ hmem, hfit _ hmem, rfl, rfl⟩
  case leaf_order =>
    intro i hi
    have hd : s.freq[i]? = some s.freq[i] := List.getElem?_eq_getElem (by omega)
    have hd' : s.freq[i + 1]? = some s.freq[i + 1] := List.getElem?_eq_getElem (by omega)
    rw [hleaf i _ hd, hleaf (i + 1) _ hd']
    exact cellsRising_getElem? hrising hd hd'
  case internal =>
    intro k hk hn
    obtain ⟨i, rfl⟩ := Nat.exists_eq_add_of_le hn
    have hi : ints[i]? = some ints[i] := List.getElem?_eq_getElem (by omega)
    simp only [hnode, arenaNode_internal hi]
    exact h.internal i _ hi
  case child_once =>
    intro j hj
    rw [← hsum, childrenFrom_eq hnodes]
    exact h.count_childrenOf hpos (by omega)
  case weight =>
    intro nd hnd
    rw [hnodes] at hnd
    obtain hnd | hnd := List.mem_append.1 hnd
    · obtain ⟨d, hd, rfl⟩ := List.mem_map.1 hnd
      exact Nat.lt_of_lt_of_le (hfit d hd) (Nat.pow_le_pow_right (by decide) (Nat.le_add_right _ _))
    · exact Nat.lt_of_le_of_lt (h.bound nd hnd) (sum_freq_lt hf)

/-- The tree of any non-empty mapping is one the block can hold. -/
theorem treeOk_of_build {s : State} (hf : s.freqOk = true) (hpos : 1 ≤ s.freq.length) (hv : s.treeValid = true)
    (hnodes : s.nodes = (buildArena s.freq).2) (hroot : s.root = lastNode (buildArena s.freq).1)
    (hused : s.nodeUsed = s.nodes.length) : s.treeOk = true := by
  obtain ⟨e, ints, hq, harena, hm, hlen⟩ := buildArena_merging hpos
  rw [hq] at hroot
  rw [harena] at hnodes
  rw [State.treeOk, if_pos hv, arenaOk_iff, hm.leafCount hnodes]
  exact hm.arenaLaws hf hpos hlen hnodes hroot hused

/-! ### Every step keeps the invariant -/

theorem treeOk_congr {s t : State} (hcfg : t.cfg = s.cfg) (h : SameTree s t) : t.treeOk = s.treeOk := by
  obtain ⟨hnodes, hroot, hused, hvalid⟩ := h
  calc t.treeOk
      _ = ({ t with cfg := s.cfg, nodes := s.nodes, root := s.root, nodeUsed := s.nodeUsed,
                    treeValid := s.treeValid } : State).treeOk := by rw [← hcfg, ← hnodes, ← hroot, ← hused, ← hvalid]
      _ = s.treeOk := rfl

theorem bodyOf_treeOk (i : Instr) {s : State} (hf : s.freqOk = true) (h : s.treeOk = true) :
    (bodyOf i s).st.treeOk = true := by
  have own := bodyOf_ownTablesOnly i s
  obtain ⟨hcfg, -⟩ := own.port
  cases i with
  | buildTree =>
    obtain hst | ⟨hn, a, b, c, hst⟩ := buildTreeBody_cases s <;> rw [bodyOf, hst]
    · exact h
    · exact treeOk_of_build hf (Nat.one_le_iff_ne_zero.2 hn) rfl rfl rfl rfl
  | clear => exact treeOk_of_empty rfl rfl rfl rfl
  | _ => exact (treeOk_congr hcfg (own.tree (by decide))).trans h

/-- The units' part of the invariant. -/
structure UnitsOk (s : State) : Prop where
  freq : s.freqOk = true
  queue : s.queueOk = true
  tree : s.treeOk = true
  table : s.tableOk = true

theorem UnitsOk.of_sameUnits {s t : State} (h : UnitsOk s) (same : SameUnits s t) : UnitsOk t where
  freq := (freqOk_congr same.cfg same.freq).trans h.freq
  queue := (queueOk_congr same.cfg same.queue).trans h.queue
  tree := (treeOk_congr same.cfg same.tree).trans h.tree
  table := (tableOk_congr same.tree same.table).trans h.table

theorem UnitsOk.exec {i : Instr} {s t : State} (h : UnitsOk s) (hexec : exec i s = .next t) : UnitsOk t := by
  rw [exec_eq_next] at hexec
  subst hexec
  exact
    { freq := bodyOf_freqOk i (s := prologue s) h.freq
      queue := bodyOf_queueOk i (s := prologue s) h.queue
      tree := bodyOf_treeOk i (s := prologue s) h.freq h.tree
      table := bodyOf_tableOk i (s := prologue s) h.table }

theorem unitsOk_hardwareReset (s : State) : UnitsOk (hardwareReset s) :=
  ⟨freqOk_of_empty rfl, queueOk_of_empty rfl, treeOk_of_empty rfl rfl rfl rfl, tableOk_of_empty rfl rfl⟩

theorem step_unitsOk {s t : State} (h : UnitsOk s) (hstep : step s = .next t) : UnitsOk t := by
  obtain same | ⟨i, u, same, hexec⟩ | ⟨u, rfl, -⟩ := step_units hstep
  · exact h.of_sameUnits same
  · exact (h.of_sameUnits same).exec hexec
  · exact unitsOk_hardwareReset u

/-- Settles O3: the parameters are fixed, and each part of the invariant is kept by every step. -/
theorem everyStepKeepsTheInvariant : Obligations.EveryStepKeepsTheInvariant := by
  unfold Obligations.EveryStepKeepsTheInvariant
  intro s t hs hstep
  obtain ⟨hlegal, hfreq, hqueue, htree, htable, hmem, hctl⟩ := (inv_iff s).1 hs
  obtain ⟨hfreq', hqueue', htree', htable'⟩ := step_unitsOk ⟨hfreq, hqueue, htree, htable⟩ hstep
  have hlegal' : t.cfg.legal = true := by rw [step_cfg hstep, hlegal]
  exact (inv_iff t).2 ⟨hlegal', hfreq', hqueue', htree', htable',
    everyStepKeepsTheBuffersCanonical s t hlegal htree hmem hstep, step_ctlOk hctl hstep⟩

end Sys2Proof.Machine

namespace Sys2Proof.Machine

/-! ### One supported access, by the place it names (20_memory.md R51, R58, R60) -/

/-- Settles O19: reset and the aperture being met, only the width and the alignment are left to check. -/
theorem onlyAlignedWordAccessesAreSupported : Obligations.OnlyAlignedWordAccessesAreSupported := by
  unfold Obligations.OnlyAlignedWordAccessesAreSupported
  intro s a es hr he hlo hhi
  have hin : ¬ (a.addr < s.cfg.baseAddr ∨ s.cfg.baseAddr + 0x10000 ≤ a.addr) := by omega
  rw [step_of_access_event he]
  refine ⟨⟨fun ⟨hb, ha⟩ => ?_, fun ⟨t, ht⟩ => ?_⟩, fun hb => ?_, fun hb ha => ?_⟩
  · cases hk : a.kind <;> simp [hostAccess, hr, hin, hb, ha, hk]
  · obtain ⟨-, -, -, hb, ha, -⟩ := hostAccess_next ht
    exact ⟨hb, ha⟩
  · simp [hostAccess, hr, hin, hb]
  · simp [hostAccess, hr, hin, hb, ha]

/-- Offset `off` is one the port supports, outside reset, and names `loc`. -/
structure Names (s : State) (off : Nat) (loc : Loc) : Prop where
  released : s.resetHeld = false
  inside : off < 0x10000
  aligned : off % 4 = 0
  located : locate s.cfg off = loc

theorem names_reg {s : State} {off : Nat} {r : Reg} (hr : s.resetHeld = false) (h : cellGet off regMap = some r) :
    Names s off (.reg r) := by
  obtain ⟨hlt, ha⟩ := regMap_offset h
  exact ⟨hr, by omega, ha, locate_reg (by omega) h⟩

theorem names_reserved {s : State} {off : Nat} (hr : s.resetHeld = false) (hp : s.cfg.legal = true)
    (h : ReservedOffset s.cfg off) : Names s off .reserved := by
  have hloc := locate_reserved hp h
  obtain ⟨ha, hrange⟩ := h
  exact ⟨hr, by omega, ha, hloc⟩

theorem names_symbuf {s : State} {i : Nat} (hr : s.resetHeld = false) (hp : s.cfg.legal = true)
    (h : i < s.cfg.symDepth) : Names s (0x4000 + 4 * i) (.symbuf i) := by
  have := legal_bounds hp
  exact ⟨hr, by omega, by omega, locate_symWindow h⟩

theorem names_bitbuf {s : State} {w : Nat} (hr : s.resetHeld = false) (hp : s.cfg.legal = true)
    (h : w < s.cfg.bitDepth / 32) : Names s (0x8000 + 4 * w) (.bitbuf w) := by
  have := legal_bounds hp
  exact ⟨hr, by omega, by omega, locate_bitWindow hp h⟩

section
variable {s : State} {off : Nat} {loc : Loc}

theorem Names.readsAs_of_idle (h : Names s off loc) (hi : s.ctl = .idle) : ReadsAs s off (readLoc s loc) := by
  obtain ⟨hr, ho, ha, rfl⟩ := h
  exact readsAs_readLoc hr ho ha (by rw [busy_of_idle hi, Bool.false_and])

theorem Names.readsAs_of_notInFlight (h : Names s off loc) (hf : inFlight loc = false) :
    ReadsAs s off (readLoc s loc) := by
  obtain ⟨hr, ho, ha, rfl⟩ := h
  exact readsAs_readLoc hr ho ha (by rw [hf, Bool.and_false])

/-- A read of a value in flight draws a word. -/
theorem Names.step_reading_inFlight {c : Issued} (h : Names s off loc) (hc : s.ctl = .busy c)
    (hf : inFlight loc = true) :
    step (s.reading off) = .next { s with rdata := some (inFlightWord s loc), draws := s.draws + 1 } := by
  obtain ⟨hr, ho, ha, rfl⟩ := h
  rw [step_reading hr ho ha, hostRead, busy_of_busy hc, hf, Bool.and_self, if_pos rfl]

theorem Names.step_writing_of_idle (h : Names s off loc) (v : Word) (hi : s.ctl = .idle) :
    step (s.writing off v) = .next (writeLoc v s loc) := by
  obtain ⟨hr, ho, ha, rfl⟩ := h
  rw [step_writing v hr ho ha, hostWrite_of_idle _ v hi]

/-- A write while a command is in flight is dropped, but for STATUS. -/
theorem Names.step_writing_of_busy {c : Issued} (h : Names s off loc) (v : Word) (hc : s.ctl = .busy c)
    (hst : loc ≠ .reg .status) : step (s.writing off v) = .next { s with overrun := true } := by
  obtain ⟨hr, ho, ha, rfl⟩ := h
  rw [step_writing v hr ho ha, hostWrite_of_busy _ v hc, writeBusy_of_ne_status v s hst]

end

/-- Settles O14: every reserved offset names the location that reads 0 and takes no write. -/
theorem reservedOffsetsReadZeroAndIgnoreWrites : Obligations.ReservedOffsetsReadZeroAndIgnoreWrites := by
  unfold Obligations.ReservedOffsetsReadZeroAndIgnoreWrites
  intro s off v hr hp hres
  have h := names_reserved hr hp hres
  exact ⟨h.readsAs_of_notInFlight rfl, fun hi => h.step_writing_of_idle v hi,
    fun c hc => h.step_writing_of_busy v hc (by decide)⟩

/-! ### Read-only registers and reads (20_memory.md R53) -/

/-- The RO registers of 20_memory.md R51. -/
def readOnlyRegs : List Reg :=
  [.id, .cfg0, .cfg1, .cfg2, .errInfo, .res0, .res1, .res2, .pqCount, .treeInfo, .freqCount]

theorem writeLoc_readOnly {r : Reg} (v : Word) (s : State) (h : r ∈ readOnlyRegs) : writeLoc v s (.reg r) = s := by
  cases r with
  | cmd | arg0 | arg1 | arg2 | status => exact absurd h (by decide)
  | id | cfg0 | cfg1 | cfg2 | errInfo | res0 | res1 | res2 | pqCount | treeInfo | freqCount => rfl

theorem exists_readOnlyReg :
    ∀ off ∈ [0x000, 0x004, 0x008, 0x00C, 0x024, 0x028, 0x02C, 0x030, 0x034, 0x038, 0x03C],
      ∃ r ∈ readOnlyRegs, cellGet off regMap = some r := by decide

/-- Settles O15: an RO register has no write, CMD is not in flight, and a read that goes on is a `hostRead`. -/
theorem readOnlyWritesAreIgnoredAndReadsHaveNoSideEffect :
    Obligations.ReadOnlyWritesAreIgnoredAndReadsHaveNoSideEffect := by
  unfold Obligations.ReadOnlyWritesAreIgnoredAndReadsHaveNoSideEffect
  refine ⟨fun s off v hr hi hoff => ?_, fun s hr => readsAs_reg_of_notInFlight (r := .cmd) hr rfl rfl,
    fun s t bytes addr es he h => ?_⟩
  · obtain ⟨r, hro, hreg⟩ := exists_readOnlyReg off hoff
    rw [(names_reg hr hreg).step_writing_of_idle v hi, writeLoc_readOnly v s hro]
  · rw [step_of_access_event he] at h
    obtain ⟨-, -, -, -, -, ⟨-, rfl⟩ | ⟨v, hk, -⟩⟩ := hostAccess_next h
    · exact hostRead_eq _ { s with events := es }
    · cases hk

/-! ### The data windows (20_memory.md R54, R56) -/

/-- Settles O16: the window's read and its write of the word modulo 2^S. -/
theorem symbolWindowStoresTheLowBits : Obligations.SymbolWindowStoresTheLowBits := by
  unfold Obligations.SymbolWindowStoresTheLowBits
  intro s i v hr hi hp hlt
  have h := names_symbuf hr hp hlt
  refine ⟨h.readsAs_of_idle hi, _, h.step_writing_of_idle v hi, ?_, fun j hj => ?_, rfl⟩
  · rw [writeLoc, symRead_symWrite, if_pos rfl, Params.alphabet]
  · rw [writeLoc, symRead_symWrite, if_neg hj]

/-- Bit j of a BITBUF word read is bit 32w + j of the buffer. -/
theorem getLsbD_readLoc_bitbuf (s : State) (w : Nat) {j : Nat} (h : j < 32) :
    (readLoc s (.bitbuf w)).getLsbD j = s.bitRead (32 * w + j) := by
  rw [readLoc, zext32, BitVec.getLsbD_ofNat, testBit_bitsValue s _ _ _ h, decide_eq_true h, Bool.true_and]

theorem bitRead_writeLoc_bitbuf (v : Word) (s : State) (w k : Nat) : (writeLoc v s (.bitbuf w)).bitRead k
    = if 32 * w ≤ k ∧ k < 32 * w + 32 then v.getLsbD (k - 32 * w) else s.bitRead k :=
  bitRead_putBits s (32 * w) (fun j => v.getLsbD j) 32 k

theorem writeLoc_bitbuf_frame (v : Word) (s : State) (w : Nat) :
    writeLoc v s (.bitbuf w) = { s with bitbuf := (writeLoc v s (.bitbuf w)).bitbuf } := by
  rw [writeLoc]

/-- Settles O17: the window's read and its write, bit by bit. -/
theorem bitWindowPacksLowBitFirst : Obligations.BitWindowPacksLowBitFirst := by
  unfold Obligations.BitWindowPacksLowBitFirst
  intro s w v hr hi hp hlt
  have h := names_bitbuf hr hp hlt
  refine ⟨⟨_, h.readsAs_of_idle hi, fun j hj => getLsbD_readLoc_bitbuf s w hj⟩,
    _, h.step_writing_of_idle v hi, fun j hj => ?_, fun k hk => ?_, writeLoc_bitbuf_frame v s w⟩
  · rw [bitRead_writeLoc_bitbuf, if_pos (by omega), Nat.add_sub_cancel_left]
  · rw [bitRead_writeLoc_bitbuf, if_neg (by omega)]

/-! ### Accesses while a command is in flight (20_memory.md R60) -/

theorem exists_inFlightReg : ∀ off ∈ [0x024, 0x028, 0x02C, 0x030, 0x034, 0x038, 0x03C],
    ∃ r ∈ readOnlyRegs, cellGet off regMap = some r ∧ inFlight (.reg r) = true := by decide

/-- A symbol is cut from a drawn word, so it fits one. -/
theorem toNat_inFlightWord_symbuf (s : State) (i : Nat) :
    (inFlightWord s (.symbuf i)).toNat = (Config.busyReadDraw s.draws).toNat % 2 ^ s.cfg.symW :=
  toNat_zext32 (Nat.lt_of_le_of_lt (Nat.mod_le _ _) (Config.busyReadDraw s.draws).isLt)

/-- STATUS while a command is in flight: BUSY 1 and ERR 0. -/
theorem statusWord_of_busy {s : State} {c : Issued} (hc : s.ctl = .busy c) (he : s.err = .ok) :
    (statusWord s).getLsbD 0 = true ∧ ∀ j, 8 ≤ j → j ≤ 11 → (statusWord s).getLsbD j = false := by
  refine ⟨(statusWord_flags s).1.trans (busy_of_busy hc), fun j h8 h11 => ?_⟩
  obtain ⟨k, rfl⟩ := Nat.exists_eq_add_of_le h8
  rw [statusWord_err s (by omega), he]
  exact BitVec.getLsbD_zero

/-- Settles O18: each offset by the location it names, dropped or drawn where that is not defined in flight. -/
theorem accessesInFlightAreDroppedOrUnspecified : Obligations.AccessesInFlightAreDroppedOrUnspecified := by
  unfold Obligations.AccessesInFlightAreDroppedOrUnspecified
  intro s c hr hp hc he
  have reads {off : Nat} {r : Reg} (hoff : cellGet off regMap = some r) (hf : inFlight (.reg r) = false) :
      ReadsAs s off (readReg s r) := readsAs_reg_of_notInFlight hr hoff hf
  refine ⟨fun off v ha ho hst => ?_, fun v => ?_, reads (r := .id) rfl rfl, reads (r := .cfg0) rfl rfl,
    reads (r := .cfg1) rfl rfl, reads (r := .cfg2) rfl rfl, reads (r := .cmd) rfl rfl, reads (r := .arg0) rfl rfl,
    reads (r := .arg1) rfl rfl, reads (r := .arg2) rfl rfl,
    ⟨_, reads (r := .status) rfl rfl, statusWord_of_busy hc he⟩,
    fun off hres => (names_reserved hr hp hres).readsAs_of_notInFlight rfl, ?_,
    fun i hi => ⟨_, (names_symbuf hr hp hi).step_reading_inFlight hc rfl, toNat_inFlightWord_symbuf s i⟩⟩
  · exact Names.step_writing_of_busy ⟨hr, ho, ha, rfl⟩ v hc fun h => hst (locate_eq_status_iff.1 h)
  · rw [step_writing_reg (r := .status) v hr rfl, hostWrite_status, writeStatus_eq]
  · rintro off (hreg | ⟨w, hw, rfl⟩)
    · obtain ⟨r, -, hoff, hf⟩ := exists_inFlightReg off hreg
      exact (names_reg hr hoff).step_reading_inFlight hc hf
    · exact (names_bitbuf hr hp hw).step_reading_inFlight hc rfl

/-! ### A command does not see what accesses in flight can change (20_memory.md R62) -/

/-- `s` with another OVERRUN, another last word at the host and another draw counter. -/
def State.withPort (s : State) (o : Bool) (r : Option Word) (d : Nat) : State :=
  { s with overrun := o, rdata := r, draws := d }

/-- The end of a command at `r.st` with another OVERRUN, host word and draw counter. -/
def CmdEnd.withPort (r : CmdEnd) (o : Bool) (w : Option Word) (d : Nat) : CmdEnd :=
  { r with st := r.st.withPort o w d }

/-! #### The loops -/

section
variable {s : State} {o : Bool} {r : Option Word} {d : Nat}

theorem encodeLoop_withPort (rem i pos : Nat) (out : Cells Bool) :
    encodeLoop (s.withPort o r d) rem i pos out = encodeLoop s rem i pos out := by
  induction rem generalizing i pos out with
  | zero => rfl
  | succ rem ih =>
    simp only [encodeLoop, ih]
    rfl

theorem decodeLoop_withPort (rem k cur start cnt : Nat) (out : Cells Nat) :
    decodeLoop (s.withPort o r d) rem k cur start cnt out = decodeLoop s rem k cur start cnt out := by
  induction rem generalizing k cur start cnt out with
  | zero => rfl
  | succ rem ih =>
    simp only [decodeLoop, ih]
    rfl

/-! #### The pseudocode of each command -/

@[simp] theorem withPort_op0 : (s.withPort o r d).op0 = s.op0 := rfl
@[simp] theorem withPort_queue : (s.withPort o r d).queue = s.queue := rfl
@[simp] theorem withPort_bitbuf : (s.withPort o r d).bitbuf = s.bitbuf := rfl

theorem pqExtractMinBody_withPort : pqExtractMinBody (s.withPort o r d) = (pqExtractMinBody s).withPort o r d := by
  unfold pqExtractMinBody
  rw [withPort_queue]
  cases s.queue <;> rfl

theorem decodeRun_withPort : decodeRun (s.withPort o r d) = decodeRun s := by
  unfold decodeRun
  rw [decodeLoop_withPort]
  rfl

/-- A check that fails before the rest of the pseudocode. -/
theorem check_withPort {p : Prop} [Decidable p] {e : ErrCode} {info : Word} {a b : CmdEnd}
    (h : a = b.withPort o r d) :
    (if p then fail e info (s.withPort o r d) else a) = (if p then fail e info s else b).withPort o r d := by
  split
  · rfl
  · exact h

theorem encodeBody_withPort : encodeBody (s.withPort o r d) = (encodeBody s).withPort o r d := by
  refine check_withPort ?_
  dsimp only
  rw [encodeLoop_withPort, withPort_op0, withPort_bitbuf]
  cases (encodeLoop s s.op0.toNat 0 0 s.bitbuf).stop <;> rfl

theorem decodeBody_withPort : decodeBody (s.withPort o r d) = (decodeBody s).withPort o r d := by
  refine check_withPort (check_withPort ?_)
  dsimp only
  have h : decodeRun (s.withPort o r d) = decodeRun s := decodeRun_withPort
  unfold decodeRun at h
  rw [h]
  split <;> rfl

theorem bodyOf_withPort (i : Instr) : bodyOf i (s.withPort o r d) = (bodyOf i s).withPort o r d := by
  cases i with
  | nop | clear | freqClear | pqClear => rfl
  | freqUnset | freqGet | buildTree | nodeRead | buildCodeTable => exact check_withPort rfl
  | freqSet | codeRead => exact check_withPort (check_withPort rfl)
  | pqInsert => exact check_withPort (check_withPort (check_withPort rfl))
  | pqExtractMin => exact pqExtractMinBody_withPort
  | encode => exact encodeBody_withPort
  | decode => exact decodeBody_withPort

/-! #### The block's turn -/

theorem bodyOfIssued_withPort (c : Issued) :
    bodyOfIssued c (s.withPort o r d) = (bodyOfIssued c s).withPort o r d := by
  unfold bodyOfIssued
  cases decode c.word with
  | none => rfl
  | some i => exact bodyOf_withPort i

theorem blockTurn_of_held (h : s.resetHeld = true) : blockTurn s = .next s := by
  rw [blockTurn, if_pos h]

theorem blockTurn_of_inFlight {c : Issued} (hr : s.resetHeld = false) (hc : s.ctl = .busy c) :
    blockTurn s = .next (epilogue (bodyOfIssued c (prologue s))) := by
  simp only [blockTurn, hr, hc, completeIssued_eq, complete, Bool.false_eq_true, if_false]

/-- The block's turn neither reads nor writes what accesses in flight can change. -/
theorem blockTurn_withPort {u : State} (h : blockTurn s = .next u) :
    blockTurn (s.withPort o r d) = .next (u.withPort o r d) := by
  obtain ⟨rfl, hr | hi⟩ | ⟨c, hr, hc, rfl⟩ := blockTurn_next h
  · exact blockTurn_of_held hr
  · exact blockTurn_of_idle hi
  · have hbody := bodyOfIssued_withPort (s := prologue s) (o := o) (r := r) (d := d) c
    rw [blockTurn_of_inFlight (s := s.withPort o r d) hr hc]
    exact congrArg (fun e => Host.Outcome.next (epilogue e)) hbody

end

/-! #### The accesses -/

/-- A supported access made in flight changes OVERRUN, the host's word and the draw counter at most. -/
theorem hostAccess_inFlight {a : Access} {s t : State} {c : Issued} (hc : s.ctl = .busy c)
    (h : hostAccess a s = .next t) : ∃ o r d, t = s.withPort o r d := by
  obtain ⟨-, -, -, -, -, ⟨-, rfl⟩ | ⟨v, -, rfl⟩⟩ := hostAccess_next h
  · exact ⟨s.overrun, _, _, (hostRead_eq _ s).1⟩
  · rw [hostWrite_of_busy _ v hc]
    exact ⟨_, s.rdata, s.draws, writeBusy_eq _ v s⟩

theorem run_succ_next {M : Host.Core} {k : Nat} {s t : M.State} (h : M.run (k + 1) s = .next t) :
    ∃ s', M.step s = .next s' ∧ M.run k s' = .next t := by
  rw [Host.Core.run] at h
  split at h
  · next s' hs' => exact ⟨s', hs', h⟩
  · cases h
  · cases h

/-- A run over accesses made in flight and the event after them ends with that event's step, from the state in flight
but for OVERRUN, the host's word and the draw counter. -/
theorem run_accesses_inFlight {accesses : List Access} {es : List Event} {s t : State} {c : Issued}
    (hc : s.ctl = .busy c) (he : s.events = accesses.map Event.access ++ es)
    (h : Host.Core.run core (accesses.length + 1) s = .next t) :
    ∃ o r d, step (({ s with events := es } : State).withPort o r d) = .next t := by
  induction accesses generalizing s with
  | nil =>
    obtain ⟨s', hstep, hrun⟩ := run_succ_next h
    cases hrun
    obtain rfl : s.events = es := he
    exact ⟨s.overrun, s.rdata, s.draws, hstep⟩
  | cons a rest ih =>
    obtain ⟨s', hstep, hrun⟩ := run_succ_next h
    have hacc : hostAccess a { s with events := rest.map Event.access ++ es } = .next s' :=
      (step_of_access_event he).symm.trans hstep
    obtain ⟨o, r, d, rfl⟩ := hostAccess_inFlight (s := { s with events := rest.map Event.access ++ es }) hc hacc
    exact ih (s := ({ s with events := rest.map Event.access ++ es } : State).withPort o r d) hc rfl hrun

/-- Settles O25: the accesses change only what the completion does not see. -/
theorem aCommandSeesNoHostAccessMadeInFlight : Obligations.ACommandSeesNoHostAccessMadeInFlight := by
  unfold Obligations.ACommandSeesNoHostAccessMadeInFlight
  intro accesses es s t u c hc he hrun hu
  obtain ⟨o, r, d, ht⟩ := run_accesses_inFlight hc he hrun
  rw [step_of_block_event (es := es) rfl] at ht hu
  have hturn := blockTurn_withPort (o := o) (r := r) (d := d) hu
  cases ht.symm.trans hturn
  rfl

end Sys2Proof.Machine

namespace Sys2Proof.Machine

/-! ### The opcode map both ways (30_encoding.md R71, R73, R79) -/

/-- A lookup answers with a row of the map. -/
theorem mem_of_lookupOpcode {k : Nat} {i : Instr} {m : List (Nat × Instr)} (h : lookupOpcode k m = some i) :
    (k, i) ∈ m := by
  induction m with
  | nil => cases h
  | cons row rest ih =>
    obtain ⟨k', i'⟩ := row
    rw [lookupOpcode] at h
    split at h
    · next hk =>
      cases h
      exact hk ▸ List.mem_cons_self
    · exact List.mem_cons_of_mem _ (ih h)

/-- A lookup answers nothing exactly for the opcodes the map does not list. -/
theorem lookupOpcode_eq_none_iff {k : Nat} {m : List (Nat × Instr)} :
    lookupOpcode k m = none ↔ k ∉ m.map Prod.fst := by
  induction m with
  | nil => simp [lookupOpcode]
  | cons row rest ih =>
    obtain ⟨k', i'⟩ := row
    rw [lookupOpcode, List.map_cons, List.mem_cons, not_or, ← ih]
    split
    · next hk => simp [hk]
    · next hk => simp [hk]

/-- Every row of the map gives a command under its own opcode. -/
theorem opcodeMap_row : ∀ row ∈ opcodeMap, row.1 = (opcodeOf row.2).toNat := by decide

/-- A word is its two fields. -/
theorem rsvOf_append_opcOf (w : Word) : rsvOf w ++ opcOf w = w :=
  (BitVec.extractLsb'_append_extractLsb'_eq_extractLsb' rfl).trans BitVec.extractLsb'_eq_self

theorem decode_encode (i : Instr) : decode (encode i) = some i := by
  cases i with
  | nop => exact Laws.Encoding.nop.1
  | clear => exact Laws.Encoding.clear.1
  | freqClear => exact Laws.Encoding.freqClear.1
  | freqSet => exact Laws.Encoding.freqSet.1
  | freqUnset => exact Laws.Encoding.freqUnset.1
  | freqGet => exact Laws.Encoding.freqGet.1
  | pqClear => exact Laws.Encoding.pqClear.1
  | pqInsert => exact Laws.Encoding.pqInsert.1
  | pqExtractMin => exact Laws.Encoding.pqExtractMin.1
  | buildTree => exact Laws.Encoding.buildTree.1
  | nodeRead => exact Laws.Encoding.nodeRead.1
  | buildCodeTable => exact Laws.Encoding.buildCodeTable.1
  | codeRead => exact Laws.Encoding.codeRead.1
  | encode => exact Laws.Encoding.encode.1
  | decode => exact Laws.Encoding.decode.1

/-- A word that decodes has RSV = 0 and its command's opcode, so it is the encoder's word. -/
theorem eq_encode_of_decode {w : Word} {i : Instr} (h : decode w = some i) : w = encode i := by
  unfold decode at h
  split at h
  · next hrsv =>
    have hopc : opcOf w = opcodeOf i := BitVec.eq_of_toNat_eq (opcodeMap_row _ (mem_of_lookupOpcode h))
    calc w = rsvOf w ++ opcOf w := (rsvOf_append_opcOf w).symm
      _ = encode i := by rw [hrsv, hopc, encode]
  · cases h

/-- Settles O6: the encoder is a right inverse of the decoder, and a decodable word is determined by its two fields. -/
theorem decodeInvertsEncodeOverAllWords : Obligations.DecodeInvertsEncodeOverAllWords := by
  unfold Obligations.DecodeInvertsEncodeOverAllWords
  exact ⟨decode_encode, fun _ _ => eq_encode_of_decode⟩

/-! ### Illegal words (30_encoding.md R74) -/

/-- A word is illegal exactly when its bits 31 to 8 are not 0 or the map does not list its opcode. -/
theorem decode_eq_none_iff {w : Word} :
    decode w = none ↔ w.toNat / 256 ≠ 0 ∨ w.toNat % 256 ∉ opcodeMap.map Prod.fst := by
  have hrsv : rsvOf w = 0#24 ↔ w.toNat / 256 = 0 := by
    rw [rsvOf, ← BitVec.toNat_inj, BitVec.extractLsb'_toNat, Nat.shiftRight_eq_div_pow]
    have := w.isLt
    simp only [BitVec.toNat_ofNat]
    omega
  have hopc : (opcOf w).toNat = w.toNat % 256 := by
    rw [opcOf, BitVec.extractLsb'_toNat, Nat.shiftRight_zero]
  unfold decode
  split
  · next h => rw [lookupOpcode_eq_none_iff, hopc, or_iff_right (not_not.2 (hrsv.1 h))]
  · next h => simp [mt hrsv.2 h]

/-- The opcodes the map does not list are the gaps of R74. -/
theorem not_mem_opcodeMap_iff {k : Nat} : k ∉ opcodeMap.map Prod.fst ↔
    k ∈ [0x06, 0x07] ∨ (0x0B ≤ k ∧ k ≤ 0x0F) ∨ (0x12 ≤ k ∧ k ≤ 0x17) ∨ (0x1A ≤ k ∧ k ≤ 0x1F)
    ∨ (0x21 ≤ k ∧ k ≤ 0x27) ∨ 0x29 ≤ k := by
  simp only [opcodeMap, List.map_cons, List.map_nil, List.mem_cons, List.not_mem_nil, or_false]
  omega

theorem blockTurn_of_illegal {s : State} {c : Issued} (hr : s.resetHeld = false) (hc : s.ctl = .busy c)
    (hd : decode c.word = none) : blockTurn s = .next (epilogue (illegalBody c.word (prologue s))) := by
  rw [blockTurn_of_inFlight hr hc, bodyOfIssued, hd]

/-- Settles O7: a CMD write puts the word in flight, and the block's turn ends it with ILLEGAL_CMD. -/
theorem illegalWordsCompleteWithIllegalCmd : Obligations.IllegalWordsCompleteWithIllegalCmd := by
  unfold Obligations.IllegalWordsCompleteWithIllegalCmd
  refine ⟨fun w => ?_, fun s w hd hi hr => ?_⟩
  · rw [decode_eq_none_iff, not_mem_opcodeMap_iff]
  · have hissue : step (s.writing 0x010 w) = .next (issue w s) :=
      (names_reg (r := .cmd) hr rfl).step_writing_of_idle w hi
    have hturn : step { issue w s with events := .block :: s.events }
        = .next (epilogue (illegalBody w (prologue (issue w s)))) := by
      rw [step_of_block_event (es := s.events) rfl]
      exact blockTurn_of_illegal (s := issue w s) hr (issue_ctl w s) hd
    exact ⟨_, _, hissue, rfl, hturn, ⟨rfl, rfl, rfl, rfl, rfl, rfl⟩, rfl, sameTables_refl s⟩

/-- Settles O8: seven of the words are their commands' encodings, of the others one has an unlisted opcode and one RSV ≠ 0. -/
theorem sampleWordsDecodeAsTheOpcodeMapSays : Obligations.SampleWordsDecodeAsTheOpcodeMapSays := by
  unfold Obligations.SampleWordsDecodeAsTheOpcodeMapSays
  exact ⟨decode_encode .nop, decode_encode .freqSet, decode_encode .pqExtractMin, decode_eq_none_iff.2 (by decide),
    decode_encode .buildTree, decode_encode .codeRead, decode_encode .encode, decode_encode .decode,
    decode_eq_none_iff.2 (by decide)⟩

end Sys2Proof.Machine

namespace Sys2Proof.Machine

/-! ### The queue commands (40_priority_queue.md R81 to R83) -/

/-- A queue command changes nothing but the queue and the report. -/
theorem exec_queueCommand_frame {i : Instr} {s t : State} (hi : i ∈ [Instr.pqClear, .pqInsert, .pqExtractMin])
    (h : exec i s = .next t) :
    SamePort s t ∧ SameFreq s t ∧ SameTree s t ∧ SameTable s t ∧ SameSymbuf s t ∧ SameBitbuf s t := by
  have own := exec_ownTablesOnly h
  have hforeign : ∀ j ∈ [Instr.pqClear, .pqInsert, .pqExtractMin],
      j ∉ [Instr.freqClear, .freqSet, .freqUnset, .clear] ∧ j ∉ [Instr.buildTree, .clear]
      ∧ j ∉ [Instr.buildCodeTable, .buildTree, .clear] ∧ j ≠ .decode ∧ j ≠ .encode := by decide
  obtain ⟨hfreq, htree, htable, hsym, hbit⟩ := hforeign i hi
  exact ⟨own.port, own.freq hfreq, own.tree htree, own.table htable, sameSymbuf_of_eq own.port (own.symbuf hsym),
    sameBitbuf_of_eq own.port (own.bitbuf hbit)⟩

/-- Settles O33: its pseudocode writes the queue and nothing else. -/
theorem pqClearEmptiesTheQueue : Obligations.PqClearEmptiesTheQueue := by
  unfold Obligations.PqClearEmptiesTheQueue
  refine ⟨decode_encode .pqClear, fun s => ?_⟩
  have hexec : exec .pqClear s = .next (epilogue (pqClearBody (prologue s))) := exec_eq_next.2 rfl
  exact ⟨_, hexec, ⟨rfl, rfl, rfl, rfl, rfl, rfl⟩, rfl, exec_queueCommand_frame (by decide) hexec⟩

/-! #### PQ_INSERT -/

theorem pqInsertBody_of_wide {s : State} (hw : 2 ^ s.cfg.weightW ≤ s.opWeight) :
    pqInsertBody s = fail .badArg 1 s :=
  if_pos hw

theorem pqInsertBody_of_wide_payload {s : State} (hw : s.opWeight < 2 ^ s.cfg.weightW) (hp : 2 ^ 16 ≤ s.op2.toNat) :
    pqInsertBody s = fail .badArg 2 s := by
  rw [pqInsertBody, if_neg (Nat.not_le.2 hw), if_pos hp]

theorem pqInsertBody_of_full {s : State} (hw : s.opWeight < 2 ^ s.cfg.weightW) (hp : s.op2.toNat < 2 ^ 16)
    (hcap : s.queue.length = s.cfg.queueCap) : pqInsertBody s = fail .queueFull 0 s := by
  rw [pqInsertBody, if_neg (Nat.not_le.2 hw), if_neg (Nat.not_le.2 hp), if_pos hcap]

theorem pqInsertBody_of_fits {s : State} (hw : s.opWeight < 2 ^ s.cfg.weightW) (hp : s.op2.toNat < 2 ^ 16)
    (hcap : s.queue.length < s.cfg.queueCap) :
    pqInsertBody s = done { s with queue := queuePlace s.opWeight s.op2.toNat s.queue } := by
  rw [pqInsertBody, if_neg (Nat.not_le.2 hw), if_neg (Nat.not_le.2 hp), if_neg hcap.ne]

/-- An entry that fits its widths and a queue that is not full. -/
theorem exec_pqInsert_of_fits {s : State} (hw : s.opWeight < 2 ^ s.cfg.weightW) (hp : s.op2.toNat < 2 ^ 16)
    (hcap : s.queue.length < s.cfg.queueCap) : ∃ t, exec .pqInsert s = .next t ∧ Reports t .ok 0 0 0 0
      ∧ t.queue = queuePlace s.opWeight s.op2.toNat s.queue := by
  refine ⟨_, exec_eq_next.2 rfl, ?_⟩
  rw [bodyOf, pqInsertBody_of_fits (s := prologue s) hw hp hcap]
  exact ⟨⟨rfl, rfl, rfl, rfl, rfl, rfl⟩, rfl⟩

/-- Settles O34: each check by its branch, and the placement by how it splits a queue in order. -/
theorem pqInsertPlacesTheEntryInOrder : Obligations.PqInsertPlacesTheEntryInOrder := by
  unfold Obligations.PqInsertPlacesTheEntryInOrder
  refine ⟨decode_encode .pqInsert, fun s _ hq => ?_⟩
  rw [← opWeight_eq s]
  refine ⟨fun hw => failsCleanly_of_body (pqInsertBody_of_wide hw),
    fun hw hp => failsCleanly_of_body (pqInsertBody_of_wide_payload hw hp),
    fun hw hp hcap => failsCleanly_of_body (pqInsertBody_of_full hw hp hcap), fun hw hp hcap => ?_⟩
  obtain ⟨hsorted, -, -⟩ := (queueOk_iff s).1 hq
  obtain ⟨before, after, hsplit, hplace, hbefore, hafter⟩ := queuePlace_split s.opWeight s.op2.toNat s.queue hsorted
  obtain ⟨t, hexec, hreports, hqueue⟩ := exec_pqInsert_of_fits hw hp hcap
  exact ⟨t, before, after, hexec, hreports, hsplit, hqueue.trans hplace, hbefore, hafter,
    exec_queueCommand_frame (by decide) hexec⟩

/-! #### PQ_EXTRACT_MIN -/

theorem bitRange_lt (v hi lo : Nat) : bitRange v hi lo < 2 ^ (hi + 1 - lo) := Nat.mod_lt _ (Nat.two_pow_pos _)

theorem weightW_le {p : Params} (hp : p.legal = true) : p.weightW ≤ 47 := by
  have := legal_bounds hp
  unfold Params.weightW
  omega

/-- A weight in two result words, RES1 above RES0, is returned in full. -/
theorem toNat_weightWords {p : Params} {w : Nat} (hp : p.legal = true) (h : w < 2 ^ p.weightW) :
    (zext32 (bitRange w 31 0)).toNat + 2 ^ 32 * (zext32 (bitRange w (p.weightW - 1) 32)).toNat = w := by
  have hW := weightW_le hp
  have hhigh : bitRange w (p.weightW - 1) 32 < 2 ^ 32 :=
    (bitRange_lt _ _ _).trans_le (Nat.pow_le_pow_right (by decide) (by omega))
  rw [toNat_zext32 (bitRange_lt w 31 0), toNat_zext32 hhigh, split32 h]

theorem pqExtractMinBody_of_nil {s : State} (hq : s.queue = []) : pqExtractMinBody s = fail .emptyQueue 0 s := by
  simp only [pqExtractMinBody, hq]

theorem pqExtractMinBody_of_cons {s : State} {e : QEntry} {rest : List QEntry} (hq : s.queue = e :: rest) :
    pqExtractMinBody s = done ({ s with queue := rest }.setRes (zext32 (bitRange e.weight 31 0))
      (zext32 (bitRange e.weight (s.cfg.weightW - 1) 32)) (zext32 e.payload)) := by
  simp only [pqExtractMinBody, hq]

/-- The first entry leaves the queue and is read back in RES0 to RES2. -/
theorem exec_pqExtractMin_of_cons {s : State} {e : QEntry} {rest : List QEntry} (hp : s.cfg.legal = true)
    (hok : s.queueOk = true) (hq : s.queue = e :: rest) : ∃ t, exec .pqExtractMin s = .next t
      ∧ t.ctl = .idle ∧ t.err = .ok ∧ t.errInfo = 0
      ∧ t.res0.toNat + 2 ^ 32 * t.res1.toNat = e.weight ∧ t.res2.toNat = e.payload ∧ t.queue = rest := by
  obtain ⟨-, -, hfit⟩ := (queueOk_iff s).1 hok
  obtain ⟨hweight, hpayload⟩ := hfit e (hq ▸ List.mem_cons_self)
  refine ⟨_, exec_eq_next.2 rfl, ?_⟩
  rw [bodyOf, pqExtractMinBody_of_cons (s := prologue s) hq]
  exact ⟨rfl, rfl, rfl, toNat_weightWords hp hweight, toNat_zext32 (hpayload.trans (by decide)), rfl⟩

/-- Settles O35: in a queue in order no entry weighs less than the first. -/
theorem pqExtractMinReturnsTheFirstEntry : Obligations.PqExtractMinReturnsTheFirstEntry := by
  unfold Obligations.PqExtractMinReturnsTheFirstEntry
  refine ⟨decode_encode .pqExtractMin, fun s hp hok =>
    ⟨fun hq => failsCleanly_of_body (pqExtractMinBody_of_nil (s := prologue s) hq), fun e rest hq => ?_⟩⟩
  have hleast : ∀ d ∈ s.queue, e.weight ≤ d.weight := by
    obtain ⟨hsorted, -, -⟩ := (queueOk_iff s).1 hok
    rw [hq] at hsorted ⊢
    exact List.forall_mem_cons.2 ⟨Nat.le_refl _, (weightsSorted_cons.1 hsorted).1⟩
  obtain ⟨t, hexec, hctl, herr, hinfo, hweight, hpayload, hqueue⟩ := exec_pqExtractMin_of_cons hp hok hq
  exact ⟨t, hexec, hctl, herr, hinfo, hweight, hpayload, hqueue, hleast, exec_queueCommand_frame (by decide) hexec⟩

/-! ### Inserts, then extracts (40_priority_queue.md R80, R84) -/

/-- Extracting to the end returns the queue as it stands. -/
theorem extracted_length_queue {s : State} (hp : s.cfg.legal = true) (hok : s.queueOk = true) :
    extracted s.queue.length s = s.queue := by
  induction hq : s.queue generalizing s with
  | nil => rfl
  | cons e rest ih =>
    obtain ⟨t, hexec, -, -, -, hweight, hpayload, hqueue⟩ := exec_pqExtractMin_of_cons hp hok hq
    obtain ⟨⟨hcfg, -⟩, -⟩ := exec_queueCommand_frame (by decide) hexec
    rw [List.length_cons, extracted, hexec]
    dsimp only [nextOr]
    rw [ih (by rwa [hcfg]) (exec_queueOk hok hexec) hqueue, hweight, hpayload]

/-- The new entry stands behind the others of its weight, and the entries of any other weight keep their order. -/
theorem filter_queuePlace {q : List QEntry} (e : QEntry) (w : Nat) (h : weightsSorted q = true) :
    (queuePlace e.weight e.payload q).filter (fun d => d.weight == w)
      = q.filter (fun d => d.weight == w) ++ [e].filter fun d => d.weight == w := by
  obtain ⟨before, after, rfl, hplace, -, hafter⟩ := queuePlace_split e.weight e.payload q h
  rw [hplace, ← List.singleton_append, List.filter_append, List.filter_append, List.filter_append, List.append_assoc]
  by_cases hw : e.weight = w
  · have hnone : after.filter (fun d => d.weight == w) = [] := by
      refine List.filter_eq_nil_iff.2 fun d hd => ?_
      have := hafter d hd
      simp only [beq_iff_eq]
      omega
    rw [hnone, List.append_nil, List.nil_append]
  · simp [hw]

/-- `t` has the queue of `s` with the entries `xs` inserted in turn: in extraction order, each behind the entries of
its weight that came before it (R80). -/
structure Inserted (xs : List QEntry) (s t : State) : Prop where
  cfg : t.cfg = s.cfg
  ok : t.queueOk = true
  perm : t.queue.Perm (s.queue ++ xs)
  stable : ∀ w, t.queue.filter (fun e => e.weight == w)
    = s.queue.filter (fun e => e.weight == w) ++ xs.filter fun e => e.weight == w

theorem inserted_nil {s : State} (hok : s.queueOk = true) : Inserted [] s s :=
  ⟨rfl, hok, by rw [List.append_nil], fun w => by rw [List.filter_nil, List.append_nil]⟩

theorem Inserted.trans {xs ys : List QEntry} {s t u : State} (h : Inserted xs s t) (h' : Inserted ys t u) :
    Inserted (xs ++ ys) s u where
  cfg := h'.cfg.trans h.cfg
  ok := h'.ok
  perm := by
    rw [← List.append_assoc]
    exact h'.perm.trans (h.perm.append_right ys)
  stable w := by rw [h'.stable, h.stable, List.filter_append, List.append_assoc]

/-- `s` with the host's operands for inserting `e`: its weight over ARG0 and ARG1, its payload in ARG2. -/
def State.withEntry (s : State) (e : QEntry) : State :=
  { s with ctl := .idle, arg0 := BitVec.ofNat 32 e.weight, arg1 := BitVec.ofNat 32 (e.weight / 2 ^ 32),
           arg2 := BitVec.ofNat 32 e.payload }

theorem afterInserts_singleton (s : State) (e : QEntry) :
    afterInserts s [e] = nextOr s (exec .pqInsert (s.withEntry e)) := rfl

theorem afterInserts_cons (s : State) (e : QEntry) (xs : List QEntry) :
    afterInserts s (e :: xs) = afterInserts (afterInserts s [e]) xs := rfl

theorem opWeight_withEntry (s : State) {e : QEntry} (h : e.weight < 2 ^ 64) : (s.withEntry e).opWeight = e.weight := by
  rw [opWeight_eq]
  simp only [State.withEntry, State.op0, State.op1, BitVec.toNat_ofNat]
  omega

theorem op2_withEntry (s : State) {e : QEntry} (h : e.payload < 2 ^ 32) : (s.withEntry e).op2.toNat = e.payload :=
  (BitVec.toNat_ofNat _ _).trans (Nat.mod_eq_of_lt h)

theorem inserted_afterInserts_singleton {s : State} {e : QEntry} (hp : s.cfg.legal = true) (hok : s.queueOk = true)
    (hcap : s.queue.length < s.cfg.queueCap) (hw : e.weight < 2 ^ s.cfg.weightW) (hpay : e.payload < 2 ^ 16) :
    Inserted [e] s (afterInserts s [e]) := by
  have hW := weightW_le hp
  have hweight : (s.withEntry e).opWeight = e.weight :=
    opWeight_withEntry s (hw.trans_le (Nat.pow_le_pow_right (by decide) (by omega)))
  have hpayload : (s.withEntry e).op2.toNat = e.payload := op2_withEntry s (hpay.trans (by decide))
  obtain ⟨t, hexec, -, hplaced⟩ :=
    exec_pqInsert_of_fits (s := s.withEntry e) (by rwa [hweight]) (by rwa [hpayload]) hcap
  rw [hweight, hpayload] at hplaced
  obtain ⟨⟨hcfg, -⟩, -⟩ := exec_queueCommand_frame (by decide) hexec
  obtain ⟨hsorted, -, -⟩ := (queueOk_iff s).1 hok
  rw [afterInserts_singleton, hexec, nextOr]
  refine ⟨hcfg, exec_queueOk (s := s.withEntry e) hok hexec, ?_, fun w => ?_⟩
  · rw [hplaced]
    exact (perm_queuePlace _ _ _).trans (List.perm_append_singleton e s.queue).symm
  · rw [hplaced]
    exact filter_queuePlace e w hsorted

theorem inserted_afterInserts {s : State} (xs : List QEntry) (hp : s.cfg.legal = true) (hok : s.queueOk = true)
    (hcap : s.queue.length + xs.length ≤ s.cfg.queueCap)
    (hfit : ∀ e ∈ xs, e.weight < 2 ^ s.cfg.weightW ∧ e.payload < 2 ^ 16) : Inserted xs s (afterInserts s xs) := by
  induction xs generalizing s with
  | nil => exact inserted_nil hok
  | cons e xs ih =>
    obtain ⟨⟨hw, hpay⟩, hrest⟩ := List.forall_mem_cons.1 hfit
    rw [List.length_cons] at hcap
    have hfirst := inserted_afterInserts_singleton hp hok (by omega) hw hpay
    have hlen := hfirst.perm.length_eq
    rw [List.length_append, List.length_singleton] at hlen
    rw [afterInserts_cons]
    refine hfirst.trans (ih (by rwa [hfirst.cfg]) hfirst.ok ?_ (by rwa [hfirst.cfg]))
    rw [hfirst.cfg, hlen]
    omega

/-- Settles O36: the inserts sort the entries stably into the queue, and the extracts return the queue as it stands. -/
theorem insertsThenExtractsAreAStableSort : Obligations.InsertsThenExtractsAreAStableSort := by
  unfold Obligations.InsertsThenExtractsAreAStableSort
  intro s xs hp hempty hlen hfit
  obtain ⟨hcfg, hok, hperm, hstable⟩ := inserted_afterInserts xs hp (queueOk_of_empty hempty)
    (by rwa [hempty, List.length_nil, Nat.zero_add]) hfit
  rw [hempty, List.nil_append] at hperm
  have hout : extracted xs.length (afterInserts s xs) = (afterInserts s xs).queue := by
    rw [← hperm.length_eq]
    exact extracted_length_queue (by rwa [hcfg]) hok
  obtain ⟨hsorted, -, -⟩ := (queueOk_iff _).1 hok
  rw [hout]
  exact ⟨hperm, (weightsSorted_iff _).1 hsorted, fun w => by rw [hstable, hempty, List.filter_nil, List.nil_append]⟩

end Sys2Proof.Machine

namespace Sys2Proof.Machine

/-! ### The frequency-table commands (41_tree_builder.md R85 to R88) -/

/-- A command that writes the mapping changes nothing else but the report. -/
theorem exec_freqCommand_frame {i : Instr} {s t : State} (hi : i ∈ [Instr.freqClear, .freqSet, .freqUnset])
    (h : exec i s = .next t) :
    SamePort s t ∧ SameQueue s t ∧ SameTree s t ∧ SameTable s t ∧ SameSymbuf s t ∧ SameBitbuf s t := by
  have own := exec_ownTablesOnly h
  have hforeign : ∀ j ∈ [Instr.freqClear, .freqSet, .freqUnset],
      j ∉ [Instr.pqClear, .pqInsert, .pqExtractMin, .buildTree, .clear] ∧ j ∉ [Instr.buildTree, .clear]
      ∧ j ∉ [Instr.buildCodeTable, .buildTree, .clear] ∧ j ≠ .decode ∧ j ≠ .encode := by decide
  obtain ⟨hqueue, htree, htable, hsym, hbit⟩ := hforeign i hi
  exact ⟨own.port, own.queue hqueue, own.tree htree, own.table htable, sameSymbuf_of_eq own.port (own.symbuf hsym),
    sameBitbuf_of_eq own.port (own.bitbuf hbit)⟩

/-- A readback command changes nothing but the report. -/
theorem exec_readback_frame {i : Instr} {s t : State} (hi : i ∈ [Instr.freqGet, .nodeRead, .codeRead])
    (h : exec i s = .next t) : SameTables s t := by
  have own := exec_ownTablesOnly h
  have hforeign : ∀ j ∈ [Instr.freqGet, .nodeRead, .codeRead],
      j ∉ [Instr.freqClear, .freqSet, .freqUnset, .clear]
      ∧ j ∉ [Instr.pqClear, .pqInsert, .pqExtractMin, .buildTree, .clear] ∧ j ∉ [Instr.buildTree, .clear]
      ∧ j ∉ [Instr.buildCodeTable, .buildTree, .clear] ∧ j ≠ .decode ∧ j ≠ .encode := by decide
  obtain ⟨hfreq, hqueue, htree, htable, hsym, hbit⟩ := hforeign i hi
  exact ⟨own.port, own.freq hfreq, own.queue hqueue, own.tree htree, own.table htable,
    sameSymbuf_of_eq own.port (own.symbuf hsym), sameBitbuf_of_eq own.port (own.bitbuf hbit)⟩

/-- Settles O28: its pseudocode leaves no entry of the mapping and writes nothing else. -/
theorem freqClearEmptiesTheMapping : Obligations.FreqClearEmptiesTheMapping := by
  unfold Obligations.FreqClearEmptiesTheMapping
  refine ⟨decode_encode .freqClear, fun s => ?_⟩
  have hexec : exec .freqClear s = .next (epilogue (freqClearBody (prologue s))) := exec_eq_next.2 rfl
  exact ⟨_, hexec, ⟨rfl, rfl, rfl, rfl, rfl, rfl⟩, fun _ => ⟨rfl, rfl⟩, rfl,
    exec_freqCommand_frame (by decide) hexec⟩

/-! #### FREQ_SET -/

theorem freqSetBody_of_bad_symbol {s : State} (hx : s.cfg.alphabet ≤ s.op0.toNat) :
    freqSetBody s = fail .badArg 0 s :=
  if_pos hx

theorem freqSetBody_of_wide {s : State} (hx : s.op0.toNat < s.cfg.alphabet) (hf : 2 ^ s.cfg.freqW ≤ s.op1.toNat) :
    freqSetBody s = fail .badArg 1 s := by
  rw [freqSetBody, if_neg (Nat.not_le.2 hx), if_pos hf]

theorem freqSetBody_of_fits {s : State} (hx : s.op0.toNat < s.cfg.alphabet) (hf : s.op1.toNat < 2 ^ s.cfg.freqW) :
    freqSetBody s = done { s with freq := cellPut s.op0.toNat s.op1.toNat s.freq } := by
  rw [freqSetBody, if_neg (Nat.not_le.2 hx), if_neg (Nat.not_le.2 hf)]

theorem exec_freqSet_of_fits {s : State} (hx : s.op0.toNat < s.cfg.alphabet) (hf : s.op1.toNat < 2 ^ s.cfg.freqW) :
    ∃ t, exec .freqSet s = .next t ∧ Reports t .ok 0 0 0 0 ∧ t.freq = cellPut s.op0.toNat s.op1.toNat s.freq := by
  refine ⟨_, exec_eq_next.2 rfl, ?_⟩
  rw [bodyOf, freqSetBody_of_fits (s := prologue s) hx hf]
  exact ⟨⟨rfl, rfl, rfl, rfl, rfl, rfl⟩, rfl⟩

/-- Settles O29: each check by its branch, and the entry by how a table reads after a write. -/
theorem freqSetWritesOneEntry : Obligations.FreqSetWritesOneEntry := by
  unfold Obligations.FreqSetWritesOneEntry
  refine ⟨decode_encode .freqSet, fun s => ⟨fun hx => failsCleanly_of_body (freqSetBody_of_bad_symbol hx),
    fun hx hf => failsCleanly_of_body (freqSetBody_of_wide hx hf), fun hx hf => ?_⟩⟩
  obtain ⟨t, hexec, hreports, hfreq⟩ := exec_freqSet_of_fits hx hf
  refine ⟨t, hexec, hreports, ?_, ?_, fun x hne => ⟨?_, ?_⟩, fun hok => ?_, exec_freqCommand_frame (by decide) hexec⟩
  · rw [State.present, hfreq, cellGet_cellPut_same, Option.isSome_some]
  · rw [State.freqOf, hfreq, cellGet_cellPut_same, Option.getD_some]
  · rw [State.present, hfreq, cellGet_cellPut_other _ _ hne, State.present]
  · rw [State.freqOf, hfreq, cellGet_cellPut_other _ _ hne, State.freqOf]
  · rw [State.freqCount, hfreq]
    exact length_cellPut _ _ _ ((freqOk_iff s).1 hok).1

/-! #### FREQ_UNSET -/

theorem freqUnsetBody_of_bad_symbol {s : State} (hx : s.cfg.alphabet ≤ s.op0.toNat) :
    freqUnsetBody s = fail .badArg 0 s :=
  if_pos hx

theorem freqUnsetBody_of_symbol {s : State} (hx : s.op0.toNat < s.cfg.alphabet) :
    freqUnsetBody s = done { s with freq := cellDrop s.op0.toNat s.freq } :=
  if_neg (Nat.not_le.2 hx)

theorem exec_freqUnset_of_symbol {s : State} (hx : s.op0.toNat < s.cfg.alphabet) :
    ∃ t, exec .freqUnset s = .next t ∧ Reports t .ok 0 0 0 0 ∧ t.freq = cellDrop s.op0.toNat s.freq := by
  refine ⟨_, exec_eq_next.2 rfl, ?_⟩
  rw [bodyOf, freqUnsetBody_of_symbol (s := prologue s) hx]
  exact ⟨⟨rfl, rfl, rfl, rfl, rfl, rfl⟩, rfl⟩

/-- Settles O30: the check by its branch, and the entry by how a table reads after a removal. -/
theorem freqUnsetRemovesOneEntry : Obligations.FreqUnsetRemovesOneEntry := by
  unfold Obligations.FreqUnsetRemovesOneEntry
  refine ⟨decode_encode .freqUnset, fun s =>
    ⟨fun hx => failsCleanly_of_body (freqUnsetBody_of_bad_symbol hx), fun hx => ?_⟩⟩
  obtain ⟨t, hexec, hreports, hfreq⟩ := exec_freqUnset_of_symbol hx
  have hget : ∀ x, cellGet x t.freq = if x = s.op0.toNat then none else cellGet x s.freq := fun x => by
    rw [hfreq, cellGet_cellDrop]
  refine ⟨t, hexec, hreports, ?_, ?_, fun x hne => ⟨?_, ?_⟩, exec_freqCommand_frame (by decide) hexec⟩
  · rw [State.present, hget, if_pos rfl, Option.isSome_none]
  · rw [State.freqOf, hget, if_pos rfl, Option.getD_none]
  · rw [State.present, hget, if_neg hne, State.present]
  · rw [State.freqOf, hget, if_neg hne, State.freqOf]

/-! #### FREQ_GET -/

theorem freqGetBody_of_bad_symbol {s : State} (hx : s.cfg.alphabet ≤ s.op0.toNat) :
    freqGetBody s = fail .badArg 0 s :=
  if_pos hx

theorem freqGetBody_of_symbol {s : State} (hx : s.op0.toNat < s.cfg.alphabet) :
    freqGetBody s
      = done (s.setRes (zext32 (s.freqOf s.op0.toNat)) (zext32 (s.present s.op0.toNat).toNat) 0) :=
  if_neg (Nat.not_le.2 hx)

theorem zext32_toNat_bool (b : Bool) : zext32 b.toNat = if b then 1 else 0 := by cases b <;> rfl

theorem exec_freqGet_of_symbol {s : State} (hx : s.op0.toNat < s.cfg.alphabet) :
    ∃ t, exec .freqGet s = .next t
      ∧ Reports t .ok 0 (zext32 (s.freqOf s.op0.toNat)) (if s.present s.op0.toNat then 1 else 0) 0 := by
  refine ⟨_, exec_eq_next.2 rfl, ?_⟩
  rw [bodyOf, freqGetBody_of_symbol (s := prologue s) hx]
  exact ⟨rfl, rfl, rfl, rfl, zext32_toNat_bool _, rfl⟩

/-- A canonical mapping holds F-bit frequencies, an absent symbol's being 0. -/
theorem freqOf_lt {s : State} (h : s.freqOk = true) (x : Nat) : s.freqOf x < 2 ^ s.cfg.freqW := by
  obtain ⟨-, -, hfit⟩ := (freqOk_iff s).1 h
  unfold State.freqOf
  cases hget : cellGet x s.freq with
  | none => exact Nat.two_pow_pos _
  | some f => exact hfit _ (mem_of_cellGet hget)

/-- Settles O31: the check by its branch, and RES0 in full since a frequency has at most 32 bits. -/
theorem freqGetReadsOneEntry : Obligations.FreqGetReadsOneEntry := by
  unfold Obligations.FreqGetReadsOneEntry
  refine ⟨decode_encode .freqGet, fun s =>
    ⟨fun hx => failsCleanly_of_body (freqGetBody_of_bad_symbol hx), fun hx => ?_⟩⟩
  obtain ⟨t, hexec, hreports⟩ := exec_freqGet_of_symbol hx
  refine ⟨t, hexec, hreports, fun hp hok => ?_, exec_readback_frame (by decide) hexec⟩
  obtain ⟨-, -, -, hres0, -, -⟩ := hreports
  obtain ⟨-, -, -, hF, -⟩ := legal_bounds hp
  rw [hres0, toNat_zext32 ((freqOf_lt hok _).trans_le (Nat.pow_le_pow_right (by decide) hF))]

/-! ### BUILD_TREE reads the mapping only (41_tree_builder.md R89, R90) -/

/-- The mapping FREQ_SET of symbol `x` to frequency `f` leaves: a bad operand leaves it as it was. -/
def freqAfterSet (p : Params) (x f : Nat) (m : Cells Nat) : Cells Nat :=
  if x < p.alphabet ∧ f < 2 ^ p.freqW then cellPut x f m else m

theorem freqSetBody_freq (s : State) :
    (freqSetBody s).st.freq = freqAfterSet s.cfg s.op0.toNat s.op1.toNat s.freq := by
  unfold freqAfterSet
  split
  · next hfit => rw [freqSetBody_of_fits hfit.1 hfit.2]; rfl
  · next hbad =>
    obtain h | ⟨hx, hf, -⟩ := freqSetBody_cases s
    · rw [h]
    · exact absurd ⟨hx, hf⟩ hbad

/-- Writes at different indexes of a canonical table commute. -/
theorem cellPut_comm {α : Type} {i j : Nat} (hne : i ≠ j) (v w : α) {m : Cells α} (h : cellsRising m = true) :
    cellPut i v (cellPut j w m) = cellPut j w (cellPut i v m) := by
  refine cells_ext (cellsRising_cellPut _ _ _ (cellsRising_cellPut _ _ _ h))
    (cellsRising_cellPut _ _ _ (cellsRising_cellPut _ _ _ h)) fun k => ?_
  simp only [cellGet_cellPut]
  by_cases hi : k = i
  · rw [if_pos hi, if_neg (by omega), if_pos hi]
  · rw [if_neg hi, if_neg hi]

theorem freqAfterSet_comm {p : Params} {x y : Nat} (hne : x ≠ y) (f g : Nat) {m : Cells Nat}
    (h : cellsRising m = true) :
    freqAfterSet p x f (freqAfterSet p y g m) = freqAfterSet p y g (freqAfterSet p x f m) := by
  unfold freqAfterSet
  split
  · split
    · exact cellPut_comm hne f g h
    · rfl
  · rfl

/-- A command always completes, so what `nextOr` falls back on does not matter. -/
theorem exec_eq_nextOr (i : Instr) (d s : State) : exec i s = .next (nextOr d (exec i s)) := by
  rw [exec_eq_complete, complete, nextOr]

/-- `s` after the host issues FREQ_SET of `x` to `f` and it completes. -/
def State.afterFreqSet (x f : Word) (s : State) : State :=
  nextOr s (exec .freqSet { s with ctl := .idle, arg0 := x, arg1 := f })

theorem exec_afterFreqSet (x f : Word) (s : State) :
    exec .freqSet { s with ctl := .idle, arg0 := x, arg1 := f } = .next (s.afterFreqSet x f) :=
  exec_eq_nextOr _ _ _

theorem afterFreqSet_cfg (x f : Word) (s : State) : (s.afterFreqSet x f).cfg = s.cfg :=
  (exec_ownTablesOnly (exec_afterFreqSet x f s)).port.1

theorem afterFreqSet_freq (x f : Word) (s : State) :
    (s.afterFreqSet x f).freq = freqAfterSet s.cfg x.toNat f.toNat s.freq := by
  rw [exec_eq_next.1 (exec_afterFreqSet x f s)]
  exact freqSetBody_freq (prologue { s with ctl := .idle, arg0 := x, arg1 := f })

/-- FREQ_SET leaves the tree of before. -/
theorem sameTree_afterFreqSet (x f : Word) (s : State) : SameTree s (s.afterFreqSet x f) :=
  (exec_ownTablesOnly (exec_afterFreqSet x f s)).tree (by decide)

theorem SameTree.trans {s t u : State} (h : SameTree s t) (h' : SameTree t u) : SameTree s u := by
  obtain ⟨hnodes, hroot, hused, hvalid⟩ := h
  obtain ⟨hnodes', hroot', hused', hvalid'⟩ := h'
  exact ⟨hnodes'.trans hnodes, hroot'.trans hroot, hused'.trans hused, hvalid'.trans hvalid⟩

theorem SameTree.symm {s t : State} (h : SameTree s t) : SameTree t s := by
  obtain ⟨hnodes, hroot, hused, hvalid⟩ := h
  exact ⟨hnodes.symm, hroot.symm, hused.symm, hvalid.symm⟩

/-- What BUILD_TREE makes of a mapping with symbols present. -/
theorem buildTreeBody_of_some {s : State} (hn : s.freqCount ≠ 0) : buildTreeBody s =
    done ({ s with nodes := (buildArena s.freq).2, root := lastNode (buildArena s.freq).1,
                   nodeUsed := (buildArena s.freq).2.length, treeValid := true,
                   code := [], tableValid := false, queue := [] }.setRes
      (zext32 (lastNode (buildArena s.freq).1)) (zext32 (buildArena s.freq).2.length) (zext32 s.freqCount)) :=
  if_neg hn

theorem buildTreeBody_of_none {s : State} (hn : s.freqCount = 0) : buildTreeBody s = fail .emptyAlphabet 0 s :=
  if_pos hn

/-- From equal mappings over the same tree BUILD_TREE gives the same tree, results and outcome. -/
theorem buildTree_congr {s t s' t' : State} (hs : exec .buildTree s = .next s') (ht : exec .buildTree t = .next t')
    (hfreq : t.freq = s.freq) (htree : SameTree s t) :
    SameTree s' t' ∧ t'.res0 = s'.res0 ∧ t'.res1 = s'.res1 ∧ t'.res2 = s'.res2 ∧ t'.err = s'.err := by
  rw [exec_eq_next] at hs ht
  subst hs ht
  have hcount : t.freqCount = s.freqCount := by rw [State.freqCount, hfreq, State.freqCount]
  by_cases hn : s.freqCount = 0
  · rw [bodyOf, buildTreeBody_of_none (s := prologue s) hn, buildTreeBody_of_none (s := prologue t) (hcount.trans hn)]
    exact ⟨htree, rfl, rfl, rfl, rfl⟩
  · rw [bodyOf, buildTreeBody_of_some (s := prologue s) hn, buildTreeBody_of_some (s := prologue t) (hcount ▸ hn)]
    simp [SameTree, hfreq, hcount]

/-- Two FREQ_SETs of different symbols leave the same mapping and tree in either order. -/
theorem afterFreqSet_comm {s : State} {x y : Word} (f g : Word) (hok : s.freqOk = true) (hne : x ≠ y) :
    ((s.afterFreqSet x f).afterFreqSet y g).freq = ((s.afterFreqSet y g).afterFreqSet x f).freq
    ∧ SameTree ((s.afterFreqSet y g).afterFreqSet x f) ((s.afterFreqSet x f).afterFreqSet y g) := by
  obtain ⟨hrising, -, -⟩ := (freqOk_iff s).1 hok
  have hxy : y.toNat ≠ x.toNat := fun h => hne (BitVec.eq_of_toNat_eq h).symm
  refine ⟨?_, ((sameTree_afterFreqSet y g s).trans (sameTree_afterFreqSet x f _)).symm.trans
    ((sameTree_afterFreqSet x f s).trans (sameTree_afterFreqSet y g _))⟩
  simp only [afterFreqSet_freq, afterFreqSet_cfg]
  exact freqAfterSet_comm hxy _ _ hrising

/-- Settles O32: the two mappings are equal, since writes of different symbols commute, and BUILD_TREE reads
nothing else. -/
theorem theOrderOfFreqSetsDoesNotChangeTheTree : Obligations.TheOrderOfFreqSetsDoesNotChangeTheTree := by
  unfold Obligations.TheOrderOfFreqSetsDoesNotChangeTheTree
  intro s x y f g hok hne set t u
  have ht : exec .buildTree ((s.afterFreqSet x f).afterFreqSet y g) = .next t := exec_eq_nextOr _ s _
  have hu : exec .buildTree ((s.afterFreqSet y g).afterFreqSet x f) = .next u := exec_eq_nextOr _ s _
  obtain ⟨hfreq, htree⟩ := afterFreqSet_comm f g hok hne
  obtain ⟨⟨hnodes, hroot, hused, hvalid⟩, hres0, hres1, hres2, herr⟩ := buildTree_congr hu ht hfreq htree
  exact ⟨hnodes, hroot, hused, hvalid, hres0, hres1, hres2, herr⟩

/-! ### NODE_READ (41_tree_builder.md R91) -/

/-- A node of a tree in the block fits its slot: W bits of weight, and 16 bits for the symbol and each child. -/
structure NodeFits (p : Params) (nd : Node) : Prop where
  weight : nd.weight < 2 ^ p.weightW
  sym : nd.sym < 2 ^ 16
  left : nd.left < 2 ^ 16
  right : nd.right < 2 ^ 16

theorem nodeFits_zeroNode (p : Params) : NodeFits p zeroNode :=
  ⟨Nat.two_pow_pos _, by decide, by decide, by decide⟩

/-- A slot in use: a leaf has a symbol of the alphabet, and an internal node two children made before it. -/
theorem ArenaLaws.nodeFits {s : State} {n : Nat} (h : ArenaLaws s n) (hp : s.cfg.legal = true) (i : Nat) :
    NodeFits s.cfg (s.node i) := by
  obtain ⟨-, hN⟩ := alphabet_bounds hp
  have hn := h.le_alphabet
  by_cases hi : i < 2 * n - 1
  · have hweight : (s.node i).weight < 2 ^ s.cfg.weightW := by
      rw [← h.length] at hi
      rw [State.node, List.getD_eq_getElem _ _ hi]
      exact h.weight _ (List.getElem_mem hi)
    by_cases hleaf : i < n
    · obtain ⟨-, hsym, -, hl, hr⟩ := h.leaf i hleaf
      constructor <;> omega
    · obtain ⟨-, hsym, hl, hr, -⟩ := h.internal i hi (by omega)
      constructor <;> omega
  · rw [node_of_length_le (by rw [h.length]; omega)]
    exact nodeFits_zeroNode _

theorem empty_of_treeOk {s : State} (h : s.treeOk = true) (hv : s.treeValid = false) :
    s.nodes = [] ∧ s.nodeUsed = 0 := by
  simp only [State.treeOk, hv, Bool.false_eq_true, if_false, Bool.and_eq_true, beq_iff_eq] at h
  obtain ⟨⟨hnodes, -⟩, hused⟩ := h
  exact ⟨hnodes, hused⟩

/-- The arena has NODE_USED slots in use: without a tree, none. -/
theorem length_nodes_of_treeOk {s : State} (h : s.treeOk = true) : s.nodes.length = s.nodeUsed := by
  cases hv : s.treeValid with
  | true =>
    have laws := treeOk_of_valid h hv
    rw [laws.length, laws.used]
  | false =>
    obtain ⟨hnodes, hused⟩ := empty_of_treeOk h hv
    rw [hnodes, hused, List.length_nil]

theorem nodeFits_of_treeOk {s : State} (hp : s.cfg.legal = true) (h : s.treeOk = true) (i : Nat) :
    NodeFits s.cfg (s.node i) := by
  cases hv : s.treeValid with
  | true => exact (treeOk_of_valid h hv).nodeFits hp i
  | false =>
    obtain ⟨hnodes, -⟩ := empty_of_treeOk h hv
    rw [node_of_length_le (by simp [hnodes])]
    exact nodeFits_zeroNode _

/-! #### The packed words -/

theorem nodeInfoWord_flags (w : Nat) (isLeaf inUse : Bool) (weight : Nat) :
    (nodeInfoWord w isLeaf inUse weight).getLsbD 31 = isLeaf
    ∧ (nodeInfoWord w isLeaf inUse weight).getLsbD 30 = inUse := by
  constructor <;> simp only [nodeInfoWord, BitVec.getLsbD_append] <;> simp

theorem nodeInfoWord_unused (w : Nat) (isLeaf inUse : Bool) (weight : Nat) {j : Nat} (h : 16 ≤ j) (h' : j < 30) :
    (nodeInfoWord w isLeaf inUse weight).getLsbD j = false := by
  simp only [nodeInfoWord, BitVec.getLsbD_append]
  simp [show ¬ j < 16 by omega, show j - 16 < 14 by omega]

/-- The low half of RES1 is the weight above its low word. -/
theorem nodeInfoWord_low (w : Nat) (isLeaf inUse : Bool) (weight : Nat) :
    (nodeInfoWord w isLeaf inUse weight).toNat % 2 ^ 16 = bitRange weight (w - 1) 32 % 2 ^ 16 := by
  rw [nodeInfoWord, toNat_append_eq_add, Nat.add_mul_mod_self_left, BitVec.toNat_ofNat, Nat.mod_mod]

theorem toNat_childrenWord {nd : Node} (hl : nd.left < 2 ^ 16) (hr : nd.right < 2 ^ 16) :
    (childrenWord nd).toNat = nd.left + 2 ^ 16 * nd.right := by
  simp only [childrenWord, toNat_append_eq_add, BitVec.toNat_ofNat, Nat.mod_eq_of_lt hl, Nat.mod_eq_of_lt hr]

/-- A weight of at most 47 bits in RES0 and the low half of RES1 is returned in full. -/
theorem toNat_nodeWeightWords {p : Params} {w : Nat} (isLeaf inUse : Bool) (hp : p.legal = true)
    (h : w < 2 ^ p.weightW) :
    (zext32 (bitRange w 31 0)).toNat + 2 ^ 32 * ((nodeInfoWord p.weightW isLeaf inUse w).toNat % 2 ^ 16) = w := by
  have hW := weightW_le hp
  have hhigh : bitRange w (p.weightW - 1) 32 < 2 ^ 16 :=
    (bitRange_lt _ _ _).trans_le (Nat.pow_le_pow_right (by decide) (by omega))
  rw [nodeInfoWord_low, Nat.mod_eq_of_lt hhigh, toNat_zext32 (bitRange_lt w 31 0), split32 h]

/-! #### The command -/

/-- RES2 of NODE_READ: a leaf's symbol, or an internal node's children. -/
def nodeLinksWord (nd : Node) : Word := if nd.isLeaf then zext32 nd.sym else childrenWord nd

theorem nodeReadBody_of_bad_index {s : State} (hi : s.cfg.nodeSlots ≤ s.op0.toNat) :
    nodeReadBody s = fail .badArg 0 s :=
  if_pos hi

theorem nodeReadBody_of_index {s : State} (hi : s.op0.toNat < s.cfg.nodeSlots) : nodeReadBody s =
    done (s.setRes (zext32 (bitRange (s.node s.op0.toNat).weight 31 0))
      (nodeInfoWord s.cfg.weightW (s.node s.op0.toNat).isLeaf
        (s.treeValid && decide (s.op0.toNat < s.nodeUsed)) (s.node s.op0.toNat).weight)
      (nodeLinksWord (s.node s.op0.toNat))) :=
  if_neg (Nat.not_le.2 hi)

theorem exec_nodeRead_of_index {s : State} (hi : s.op0.toNat < s.cfg.nodeSlots) :
    ∃ t, exec .nodeRead s = .next t
      ∧ Reports t .ok 0 (zext32 (bitRange (s.node s.op0.toNat).weight 31 0))
        (nodeInfoWord s.cfg.weightW (s.node s.op0.toNat).isLeaf
          (s.treeValid && decide (s.op0.toNat < s.nodeUsed)) (s.node s.op0.toNat).weight)
        (nodeLinksWord (s.node s.op0.toNat)) := by
  refine ⟨_, exec_eq_next.2 rfl, ?_⟩
  rw [bodyOf, nodeReadBody_of_index (s := prologue s) hi]
  exact ⟨rfl, rfl, rfl, rfl, rfl, rfl⟩

/-- A slot that is not in use packs into words of 0. -/
theorem nodeWords_zeroNode (w : Nat) : zext32 (bitRange zeroNode.weight 31 0) = 0
    ∧ nodeInfoWord w zeroNode.isLeaf false zeroNode.weight = 0 ∧ nodeLinksWord zeroNode = 0 := by
  refine ⟨by decide, ?_, by decide⟩
  simp [nodeInfoWord, zeroNode, bitRange]

/-- Settles O39: the result words are packed from one slot, and in a state with the invariant every slot fits them. -/
theorem nodeReadShowsOneSlot : Obligations.NodeReadShowsOneSlot := by
  unfold Obligations.NodeReadShowsOneSlot
  refine ⟨decode_encode .nodeRead, fun s hinv =>
    ⟨fun hi => failsCleanly_of_body (nodeReadBody_of_bad_index hi), fun hi => ?_⟩⟩
  have inv := (inv_iff s).1 hinv
  have fits := nodeFits_of_treeOk inv.legal inv.tree s.op0.toNat
  obtain ⟨t, hexec, hctl, herr, hinfo, hres0, hres1, hres2⟩ := exec_nodeRead_of_index hi
  obtain ⟨hflagLeaf, hflagUse⟩ := nodeInfoWord_flags s.cfg.weightW (s.node s.op0.toNat).isLeaf
    (s.treeValid && decide (s.op0.toNat < s.nodeUsed)) (s.node s.op0.toNat).weight
  refine ⟨t, hexec, hctl, herr, hinfo, ?_, ?_, ?_, fun j h h' => ?_, fun hleaf => ?_, fun hleaf => ?_, fun hout => ?_,
    exec_readback_frame (by decide) hexec⟩
  · rw [hres0, hres1, toNat_nodeWeightWords _ _ inv.legal fits.weight]
  · rw [hres1, hflagLeaf]
  · rw [hres1, hflagUse, Bool.and_eq_true, decide_eq_true_eq]
  · rw [hres1, nodeInfoWord_unused _ _ _ _ h h']
  · rw [hres2, nodeLinksWord, if_pos hleaf, toNat_zext32 (fits.sym.trans (by decide))]
  · rw [hres2, nodeLinksWord, hleaf, if_neg Bool.false_ne_true, toNat_childrenWord fits.left fits.right]
  · have hzero : s.node s.op0.toNat = zeroNode := node_of_length_le (by rwa [length_nodes_of_treeOk inv.tree])
    rw [hres0, hres1, hres2, hzero, decide_eq_false (Nat.not_lt.2 hout), Bool.and_false]
    exact nodeWords_zeroNode _

/-! ### Parents and children in a built tree (41_tree_builder.md R90) -/

theorem mem_childrenFrom {s : State} {n m j : Nat} : j ∈ s.childrenFrom n m ↔
    ∃ k, n ≤ k ∧ k < m ∧ ((s.node k).left = j ∨ (s.node k).right = j) := by
  simp only [State.childrenFrom, List.mem_flatMap, List.mem_range, List.mem_ite_nil_right, List.mem_cons,
    List.not_mem_nil, or_false]
  constructor
  · rintro ⟨k, hk, hn, hj⟩
    exact ⟨k, hn, hk, hj.imp Eq.symm Eq.symm⟩
  · rintro ⟨k, hn, hk, hj⟩
    exact ⟨k, hk, hn, hj.imp Eq.symm Eq.symm⟩

/-- No node is a child twice: the nodes before the root are so once, and the others not at all. -/
theorem ArenaLaws.nodup_children {s : State} {n : Nat} (h : ArenaLaws s n) :
    (s.childrenFrom n (2 * n - 1)).Nodup := by
  refine List.nodup_iff_count_le_one.2 fun j => ?_
  by_cases hj : j < 2 * n - 2
  · exact (h.child_once j hj).le
  · have hnot : j ∉ s.childrenFrom n (2 * n - 1) := fun hmem => by
      obtain ⟨k, hn, hk, hchild⟩ := mem_childrenFrom.1 hmem
      obtain ⟨-, -, hl, hr, -⟩ := h.internal k hk hn
      omega
    rw [List.count_eq_zero_of_not_mem hnot]
    exact Nat.zero_le 1

theorem symm_onFun_disjoint {α β : Type} (f : α → List β) : Std.Symm (Function.onFun List.Disjoint f) :=
  ⟨fun _ _ h => List.Disjoint.symm h⟩

theorem ArenaLaws.left_ne_right {s : State} {n k : Nat} (h : ArenaLaws s n) (hn : n ≤ k) (hk : k < 2 * n - 1) :
    (s.node k).left ≠ (s.node k).right := by
  obtain ⟨hown, -⟩ := List.nodup_flatMap.1 h.nodup_children
  have hpair := hown k (List.mem_range.2 hk)
  rw [if_pos hn] at hpair
  simpa using hpair

/-- Two nodes share no child. -/
theorem ArenaLaws.parent_unique {s : State} {n j k k' : Nat} (h : ArenaLaws s n) (hn : n ≤ k) (hk : k < 2 * n - 1)
    (hn' : n ≤ k') (hk' : k' < 2 * n - 1) (hj : (s.node k).left = j ∨ (s.node k).right = j)
    (hj' : (s.node k').left = j ∨ (s.node k').right = j) : k' = k := by
  obtain ⟨-, hapart⟩ := List.nodup_flatMap.1 h.nodup_children
  have := symm_onFun_disjoint fun k => if n ≤ k then [(s.node k).left, (s.node k).right] else []
  by_contra hne
  have hdisjoint := hapart.forall (List.mem_range.2 hk') (List.mem_range.2 hk) hne
  simp only [Function.onFun, if_pos hn, if_pos hn'] at hdisjoint
  exact hdisjoint (List.mem_pair.2 (hj'.imp Eq.symm Eq.symm)) (List.mem_pair.2 (hj.imp Eq.symm Eq.symm))

theorem ArenaLaws.exists_parent {s : State} {n j : Nat} (h : ArenaLaws s n) (hj : j < 2 * n - 2) :
    ∃ k, n ≤ k ∧ k < 2 * n - 1 ∧ ((s.node k).left = j ∨ (s.node k).right = j) :=
  mem_childrenFrom.1 (List.count_pos_iff.1 (by rw [h.child_once j hj]; exact Nat.one_pos))

/-! ### BUILD_TREE (41_tree_builder.md R89) -/

/-- `t` holds the tree of the mapping of `s`, and reports it. -/
structure BuiltFrom (s t : State) : Prop where
  reports : Reports t .ok 0 (zext32 t.root) (zext32 t.nodeUsed) (zext32 s.freqCount)
  nodes : t.nodes = (buildArena s.freq).2
  root : t.root = lastNode (buildArena s.freq).1
  used : t.nodeUsed = t.nodes.length
  valid : t.treeValid = true
  noTable : t.tableValid = false
  noCode : t.code = []
  noQueue : t.queue = []
  freq : SameFreq s t
  port : SamePort s t
  symbuf : SameSymbuf s t
  bitbuf : SameBitbuf s t

theorem exec_buildTree_of_some {s t : State} (hn : 1 ≤ s.freqCount) (h : exec .buildTree s = .next t) :
    BuiltFrom s t := by
  have own := exec_ownTablesOnly h
  have ht := exec_eq_next.1 h
  rw [bodyOf, buildTreeBody_of_some (s := prologue s) (Nat.one_le_iff_ne_zero.1 hn)] at ht
  subst ht
  exact
    { reports := ⟨rfl, rfl, rfl, rfl, rfl, rfl⟩
      nodes := rfl
      root := rfl
      used := rfl
      valid := rfl
      noTable := rfl
      noCode := rfl
      noQueue := rfl
      freq := own.freq (by decide)
      port := own.port
      symbuf := sameSymbuf_of_eq own.port (own.symbuf (by decide))
      bitbuf := sameBitbuf_of_eq own.port (own.bitbuf (by decide)) }

/-- The built arena meets the laws of a tree. -/
theorem BuiltFrom.arenaLaws {s t : State} (h : BuiltFrom s t) (hok : s.freqOk = true) (hn : 1 ≤ s.freqCount) :
    ArenaLaws t s.freqCount := by
  obtain ⟨hcfg, -⟩ := h.port
  have hfreq : t.freq = s.freq := h.freq
  obtain ⟨e, ints, hq, harena, hm, hlen⟩ := buildArena_merging hn
  have laws := Merging.arenaLaws (s := t) (e := e) (ints := ints) ((freqOk_congr hcfg hfreq).trans hok)
    (by rwa [hfreq]) (by rwa [hfreq]) (by rwa [hfreq]) (by rw [h.nodes, harena, hfreq]) (by rw [h.root, hq, lastNode])
    h.used
  rwa [hfreq] at laws

/-- The leaves stand first, in the order of the mapping's entries. -/
theorem BuiltFrom.leaf {s t : State} (h : BuiltFrom s t) (hn : 1 ≤ s.freqCount) {i : Nat} (hi : i < s.freqCount) :
    s.freq[i]? = some ((t.node i).sym, (t.node i).weight) := by
  obtain ⟨-, ints, -, harena, -, -⟩ := buildArena_merging hn
  have hd : s.freq[i]? = some s.freq[i] := List.getElem?_eq_getElem hi
  have hnode : t.node i = arenaNode (leavesOf s.freq ++ ints) i := by
    rw [← harena, ← h.nodes]
    rfl
  rw [hnode, arenaNode_leaf ints hd, hd]
  rfl

/-- The root weighs what all leaves weigh together. -/
theorem BuiltFrom.root_weight {s t : State} (h : BuiltFrom s t) (hn : 1 ≤ s.freqCount) :
    (t.node t.root).weight = (s.freq.map Prod.snd).sum := by
  obtain ⟨e, ints, hq, harena, hm, -⟩ := buildArena_merging hn
  have hroot : t.root = e.payload := by rw [h.root, hq, lastNode]
  calc (t.node t.root).weight
      _ = (arenaNode (leavesOf s.freq ++ ints) e.payload).weight := by
        rw [hroot, ← harena, ← h.nodes]
        rfl
      _ = e.weight := hm.entry e List.mem_cons_self
      _ = (s.freq.map Prod.snd).sum := by rw [← hm.total, List.map_singleton, List.sum_singleton]

/-- The three numbers BUILD_TREE reports fit their words. -/
theorem BuiltFrom.results {s t : State} (h : BuiltFrom s t) (hp : s.cfg.legal = true) (hok : s.freqOk = true)
    (hn : 1 ≤ s.freqCount) : t.res0.toNat = 2 * s.freqCount - 2 ∧ t.res1.toNat = 2 * s.freqCount - 1
      ∧ t.res2.toNat = s.freqCount := by
  obtain ⟨-, -, -, hres0, hres1, hres2⟩ := h.reports
  have laws := h.arenaLaws hok hn
  have hle := freqCount_le hok
  obtain ⟨-, hN⟩ := alphabet_bounds hp
  rw [hres0, hres1, hres2, laws.root, laws.used]
  exact ⟨toNat_zext32 (by omega), toNat_zext32 (by omega), toNat_zext32 (by omega)⟩

/-- Settles O37: the merge loop's arena meets the laws of a tree, and every node but the root has one parent since the
loop takes each off the queue once. -/
theorem buildTreeBuildsAStrictBinaryTree : Obligations.BuildTreeBuildsAStrictBinaryTree := by
  unfold Obligations.BuildTreeBuildsAStrictBinaryTree
  intro s hp hok
  refine ⟨fun hn => failsCleanly_of_body (buildTreeBody_of_none (s := prologue s) hn), fun hn => ?_⟩
  have hexec := exec_eq_nextOr .buildTree s s
  have built := exec_buildTree_of_some hn hexec
  have laws := built.arenaLaws hok hn
  obtain ⟨hctl, herr, hinfo, -⟩ := built.reports
  obtain ⟨hres0, hres1, hres2⟩ := built.results hp hok hn
  obtain ⟨hcfg, -⟩ := built.port
  refine ⟨_, hexec, hctl, herr, hinfo, hres0, hres1, hres2, laws.root, laws.used, built.valid, built.noTable,
    fun x => ?_, built.noQueue, fun i hi => ?_, fun k hk hk' => ?_, fun j hj => ?_, fun k hk => ?_,
    built.root_weight hn, fun k => ?_, built.port, built.freq, built.symbuf, built.bitbuf⟩
  · rw [State.codeOf, built.noCode, cellGet_nil]
  · obtain ⟨hleaf, -, -, hl, hr⟩ := laws.leaf i hi
    exact ⟨hleaf, built.leaf hn hi, hl, hr⟩
  · obtain ⟨hleaf, hsym, hl, hr, hw⟩ := laws.internal k hk' hk
    exact ⟨hleaf, hsym, hl, hr, laws.left_ne_right hk hk', hw⟩
  · obtain ⟨k, hk, hk', hchild⟩ := laws.exists_parent hj
    exact ⟨k, ⟨hk, hk', hchild⟩, fun _ hn' hk'' hchild' => laws.parent_unique hk hk' hn' hk'' hchild hchild'⟩
  · exact node_of_length_le (by rwa [laws.length])
  · rw [← hcfg]
    exact (laws.nodeFits (by rwa [hcfg]) k).weight

/-! ### The order of the merges (40_priority_queue.md R80; 41_tree_builder.md R89) -/

/-- Entry `d` leaves the queue before `e`, the payloads being the indexes at which nodes were inserted (R80). -/
def QEntry.Before (d e : QEntry) : Prop := d.weight < e.weight ∨ d.weight = e.weight ∧ d.payload < e.payload

/-- The queues and internal nodes BUILD_TREE goes through for a mapping: the leaves inserted, then one merge a turn. -/
inductive Stage (freq : Cells Nat) : List QEntry → List Node → Prop
  | start : Stage freq (enqueueLeaves freq 0 []) []
  | turn {a b : QEntry} {rest : List QEntry} {ints : List Node} (before : Stage freq (a :: b :: rest) ints) :
      Stage freq (queuePlace (a.weight + b.weight) (freq.length + ints.length) rest)
        (ints ++ [internalNode (a.weight + b.weight) a.payload b.payload])

section
variable {freq : Cells Nat} {q : List QEntry} {ints : List Node}

theorem Stage.merging (h : Stage freq q ints) : Merging freq q ints := by
  induction h with
  | start => exact merging_start freq
  | turn _ ih => exact ih.turn

/-- The merge loop goes from stage to stage. -/
theorem Stage.loop (fuel : Nat) (h : Stage freq q ints) :
    ∃ ints', (mergeNodes fuel q (leavesOf freq ++ ints)).2 = leavesOf freq ++ ints'
      ∧ Stage freq (mergeNodes fuel q (leavesOf freq ++ ints)).1 ints' := by
  induction fuel generalizing q ints with
  | zero => exact ⟨ints, rfl, h⟩
  | succ fuel ih =>
    match q with
    | [] => exact ⟨ints, rfl, h⟩
    | [e] => exact ⟨ints, rfl, h⟩
    | a :: b :: rest =>
      have := ih h.turn
      rwa [← List.append_assoc, ← length_leavesOf_append] at this

theorem buildArena_stage (freq : Cells Nat) : ∃ ints, (buildArena freq).2 = leavesOf freq ++ ints
    ∧ Stage freq (buildArena freq).1 ints := by
  simpa [buildArena] using (Stage.start (freq := freq)).loop freq.length

/-- Every internal node was made from the two entries at the front of the queue of its stage. -/
theorem Stage.made_from_front (h : Stage freq q ints) {i : Nat} {nd : Node} (hi : ints[i]? = some nd) :
    ∃ a b rest, Stage freq (a :: b :: rest) (ints.take i)
      ∧ nd = internalNode (a.weight + b.weight) a.payload b.payload := by
  induction h with
  | start => cases hi
  | @turn a b rest ints before ih =>
    rw [List.getElem?_append] at hi
    split at hi
    · next hlt =>
      rw [List.take_append_of_le_length hlt.le]
      exact ih hi
    · obtain ⟨hi0, hnd⟩ : i - ints.length = 0 ∧ internalNode (a.weight + b.weight) a.payload b.payload = nd := by
        simpa [List.getElem?_singleton] using hi
      obtain rfl : i = ints.length := by omega
      rw [List.take_left]
      exact ⟨a, b, rest, before, hnd.symm⟩

/-! #### The queue is in the order of R80 -/

theorem weightsSorted_of_pairwise_before (h : q.Pairwise QEntry.Before) : weightsSorted q = true := by
  refine (weightsSorted_iff q).2 (h.imp fun hbefore => ?_)
  obtain hlt | ⟨heq, -⟩ := hbefore
  · exact hlt.le
  · exact heq.le

/-- A node inserted last stands after the entries of its own weight. -/
theorem pairwise_before_queuePlace (w : Nat) {p : Nat} (h : q.Pairwise QEntry.Before) (hp : ∀ e ∈ q, e.payload < p) :
    (queuePlace w p q).Pairwise QEntry.Before := by
  obtain ⟨front, back, rfl, hplace, hfront, hback⟩ :=
    queuePlace_split w p q (weightsSorted_of_pairwise_before h)
  obtain ⟨hf, hb, hfb⟩ := List.pairwise_append.1 h
  rw [hplace]
  refine List.pairwise_append.2 ⟨hf, List.pairwise_cons.2 ⟨fun e he => .inl (hback e he), hb⟩, fun d hd e he => ?_⟩
  obtain rfl | he := List.mem_cons.1 he
  · exact (hfront d hd).lt_or_eq.imp_right fun heq => ⟨heq, hp d (List.mem_append_left _ hd)⟩
  · exact hfb d hd e he

theorem pairwise_before_enqueueLeaves (freq : Cells Nat) {i : Nat} (h : q.Pairwise QEntry.Before)
    (hp : ∀ e ∈ q, e.payload < i) : (enqueueLeaves freq i q).Pairwise QEntry.Before := by
  induction freq generalizing i q with
  | nil => exact h
  | cons d rest ih =>
    refine ih (pairwise_before_queuePlace d.2 h hp) fun e he => ?_
    obtain rfl | he := mem_queuePlace.1 he
    · exact Nat.lt_succ_self i
    · exact Nat.lt_succ_of_lt (hp e he)

/-! #### The queue holds the nodes that wait -/

/-- The nodes in the queue are those made so far that are no child yet. -/
theorem Merging.mem_payload_iff (h : Merging freq q ints) {j : Nat} :
    j ∈ q.map QEntry.payload ↔ j < freq.length + ints.length ∧ j ∉ childrenOf ints := by
  obtain ⟨-, -, hdisjoint⟩ := List.nodup_append'.1 (h.once.nodup_iff.2 List.nodup_range)
  rw [← List.mem_range, ← h.once.mem_iff, List.mem_append]
  exact ⟨fun hj => ⟨.inl hj, fun hchild => hdisjoint hj hchild⟩, fun ⟨hj, hnot⟩ => hj.resolve_right hnot⟩

theorem Merging.payload_lt (h : Merging freq q ints) {e : QEntry} (he : e ∈ q) :
    e.payload < freq.length + ints.length :=
  (h.mem_payload_iff.1 (List.mem_map_of_mem he)).1

theorem Stage.inOrder (h : Stage freq q ints) : q.Pairwise QEntry.Before := by
  induction h with
  | start => exact pairwise_before_enqueueLeaves freq List.Pairwise.nil (by simp)
  | turn before ih =>
    obtain ⟨-, hrest⟩ := List.pairwise_cons.1 ih
    obtain ⟨-, hrest⟩ := List.pairwise_cons.1 hrest
    refine pairwise_before_queuePlace _ hrest fun e he => ?_
    exact before.merging.payload_lt (by simp [he])

/-! #### The stages as the finished arena shows them -/

section
variable {t : State} {later : List Node}

/-- The nodes made up to a stage stay as they are. -/
theorem node_of_stage (hnodes : t.nodes = leavesOf freq ++ (ints ++ later)) {j : Nat}
    (hj : j < freq.length + ints.length) : t.node j = arenaNode (leavesOf freq ++ ints) j := by
  rw [← arenaNode_append_left later (by rwa [length_leavesOf_append]), List.append_assoc, ← hnodes]
  rfl

theorem childrenFrom_of_stage (hnodes : t.nodes = leavesOf freq ++ (ints ++ later)) :
    t.childrenFrom freq.length (freq.length + ints.length) = childrenOf ints := by
  rw [← childrenFrom_eq (s := { t with nodes := leavesOf freq ++ ints }) rfl]
  refine List.flatMap_congr fun k hk => ?_
  rw [node_of_stage hnodes (List.mem_range.1 hk)]
  rfl

theorem waitsAt_iff (t : State) (n k j : Nat) : waitsAt t n k j ↔ j < k ∧ j ∉ t.childrenFrom n k := by
  simp only [waitsAt, mem_childrenFrom, not_exists, not_and, not_or, ne_eq]

/-- The nodes that wait when the next node is made are those in the queue. -/
theorem Merging.waitsAt_iff_queued (h : Merging freq q ints) (hnodes : t.nodes = leavesOf freq ++ (ints ++ later))
    {j : Nat} : waitsAt t freq.length (freq.length + ints.length) j ↔ ∃ e ∈ q, e.payload = j := by
  rw [waitsAt_iff, childrenFrom_of_stage hnodes, ← h.mem_payload_iff, List.mem_map]

/-- The order of the queue is the order in which its nodes leave. -/
theorem Merging.leavesBefore_of_before (h : Merging freq q ints) (hnodes : t.nodes = leavesOf freq ++ (ints ++ later))
    {d e : QEntry} (hd : d ∈ q) (he : e ∈ q) (hbefore : d.Before e) : leavesBefore t d.payload e.payload := by
  have hweight : ∀ x ∈ q, (t.node x.payload).weight = x.weight := fun x hx => by
    rw [node_of_stage hnodes (h.payload_lt hx), h.entry x hx]
  rwa [leavesBefore, hweight d hd, hweight e he]

end
end

theorem not_leavesBefore_self (t : State) (i : Nat) : ¬ leavesBefore t i i := by simp [leavesBefore]

/-- Node `k` is over the two nodes that leave first of all that wait when it is made, the first on the left. -/
structure TakesTheFirstTwo (t : State) (n k : Nat) : Prop where
  left_waits : waitsAt t n k (t.node k).left
  right_waits : waitsAt t n k (t.node k).right
  differ : (t.node k).left ≠ (t.node k).right
  left_first : ∀ j, waitsAt t n k j → j ≠ (t.node k).left → leavesBefore t (t.node k).left j
  right_second : ∀ j, waitsAt t n k j → j ≠ (t.node k).left → j ≠ (t.node k).right → leavesBefore t (t.node k).right j

/-- A node made from the front of a queue in order takes the two that leave first. -/
theorem Stage.takesTheFirstTwo {freq : Cells Nat} {a b : QEntry} {rest : List QEntry} {ints later : List Node}
    {t : State} {w : Nat} (h : Stage freq (a :: b :: rest) ints)
    (hnodes : t.nodes = leavesOf freq ++ (ints ++ internalNode w a.payload b.payload :: later)) :
    TakesTheFirstTwo t freq.length (freq.length + ints.length) := by
  have hm := h.merging
  obtain ⟨hafter_a, hrest⟩ := List.pairwise_cons.1 h.inOrder
  obtain ⟨hafter_b, -⟩ := List.pairwise_cons.1 hrest
  have hnode : t.node (freq.length + ints.length) = internalNode w a.payload b.payload := by
    rw [State.node, hnodes]
    exact arenaNode_internal (by simp)
  have ha : a ∈ a :: b :: rest := by simp
  have hb : b ∈ a :: b :: rest := by simp
  have hfirst : ∀ e ∈ b :: rest, leavesBefore t a.payload e.payload := fun e he =>
    hm.leavesBefore_of_before hnodes ha (List.mem_cons_of_mem _ he) (hafter_a e he)
  have hsecond : ∀ e ∈ rest, leavesBefore t b.payload e.payload := fun e he =>
    hm.leavesBefore_of_before hnodes hb (by simp [he]) (hafter_b e he)
  constructor <;> rw [hnode]
  case left_waits => exact (hm.waitsAt_iff_queued hnodes).2 ⟨a, ha, rfl⟩
  case right_waits => exact (hm.waitsAt_iff_queued hnodes).2 ⟨b, hb, rfl⟩
  case differ =>
    intro heq
    have hab := hfirst b List.mem_cons_self
    rw [show a.payload = b.payload from heq] at hab
    exact not_leavesBefore_self t _ hab
  case left_first =>
    intro j hj hne
    obtain ⟨e, he, rfl⟩ := (hm.waitsAt_iff_queued hnodes).1 hj
    obtain rfl | he := List.mem_cons.1 he
    · exact absurd rfl hne
    · exact hfirst e he
  case right_second =>
    intro j hj hne hne'
    obtain ⟨e, he, rfl⟩ := (hm.waitsAt_iff_queued hnodes).1 hj
    obtain rfl | he := List.mem_cons.1 he
    · exact absurd rfl hne
    · obtain rfl | he := List.mem_cons.1 he
      · exact absurd rfl hne'
      · exact hsecond e he

theorem BuiltFrom.takesTheFirstTwo {s t : State} (h : BuiltFrom s t) (hn : 1 ≤ s.freqCount) {k : Nat}
    (hk : s.freqCount ≤ k) (hk' : k < 2 * s.freqCount - 1) : TakesTheFirstTwo t s.freqCount k := by
  obtain ⟨ints, harena, hstage⟩ := buildArena_stage s.freq
  obtain ⟨i, rfl⟩ := Nat.exists_eq_add_of_le hk
  have hlen : (leavesOf s.freq ++ ints).length = 2 * s.freq.length - 1 := by
    rw [← harena, (buildArena_lengths s.freq hn).2]
  rw [length_leavesOf_append] at hlen
  have hilt : i < ints.length := by
    unfold State.freqCount at hk'
    omega
  obtain ⟨a, b, rest, hfront, hnd⟩ := hstage.made_from_front (List.getElem?_eq_getElem hilt)
  have hsplit : ints = ints.take i ++ internalNode (a.weight + b.weight) a.payload b.payload :: ints.drop (i + 1) := by
    rw [← hnd, ← List.drop_eq_getElem_cons hilt, List.take_append_drop]
  have htake : (ints.take i).length = i := List.length_take_of_le hilt.le
  have := hfront.takesTheFirstTwo (t := t) (by rw [h.nodes, harena, ← hsplit])
  rwa [htake] at this

/-- Settles O38: each merge takes the front of a queue that is in the order of R80 and holds the nodes that wait. -/
theorem everyMergeTakesTheTwoNodesThatLeaveFirst : Obligations.EveryMergeTakesTheTwoNodesThatLeaveFirst := by
  unfold Obligations.EveryMergeTakesTheTwoNodesThatLeaveFirst
  intro s t _ hn hexec k hk hk'
  obtain ⟨hleft, hright, hdiffer, hfirst, hsecond⟩ := (exec_buildTree_of_some hn hexec).takesTheFirstTwo hn hk hk'
  exact ⟨hleft, hright, hdiffer, hfirst, hsecond⟩

end Sys2Proof.Machine

namespace Sys2Proof.Machine

/-! ### Paths from the root (42_code_table.md R92) -/

/-- The codeword `e` with one more edge at its end. -/
def Codeword.snoc (e : Codeword) (b : Bool) : Codeword :=
  { len := e.len + 1, bits := if b then e.bits ||| 2 ^ e.len else e.bits }

@[simp] theorem snoc_len (e : Codeword) (b : Bool) : (e.snoc b).len = e.len + 1 := rfl

theorem testBit_snoc_of_lt (e : Codeword) (b : Bool) {j : Nat} (h : j < e.len) :
    (e.snoc b).bits.testBit j = e.bits.testBit j := by
  cases b with
  | false => rfl
  | true => simp [Codeword.snoc, show e.len ≠ j by omega]

/-- The bit of the edge added. -/
theorem testBit_snoc_last {e : Codeword} (b : Bool) (h : e.bits < 2 ^ e.len) :
    (e.snoc b).bits.testBit e.len = b := by
  have hlast := Nat.testBit_lt_two_pow h
  cases b with
  | false => exact hlast
  | true => simp [Codeword.snoc]

theorem bits_snoc_lt {e : Codeword} (b : Bool) (h : e.bits < 2 ^ e.len) : (e.snoc b).bits < 2 ^ (e.snoc b).len := by
  have hlt : e.bits < 2 ^ (e.len + 1) := h.trans (Nat.pow_lt_pow_succ (by decide))
  cases b with
  | false => exact hlt
  | true => exact Nat.or_lt_two_pow hlt (Nat.pow_lt_pow_succ (by decide))

theorem startsOf_refl (e : Codeword) : e.startsOf e := ⟨Nat.le_refl _, fun _ _ => rfl⟩

theorem Codeword.startsOf.trans {e f g : Codeword} (h : e.startsOf f) (h' : f.startsOf g) : e.startsOf g := by
  obtain ⟨hlen, hbits⟩ := h
  obtain ⟨hlen', hbits'⟩ := h'
  exact ⟨hlen.trans hlen', fun j hj => (hbits j hj).trans (hbits' j (hj.trans_le hlen))⟩

theorem startsOf_snoc (e : Codeword) (b : Bool) : e.startsOf (e.snoc b) :=
  ⟨Nat.le_succ _, fun _ hj => (testBit_snoc_of_lt e b hj).symm⟩

/-- The child of node `k` that edge `b` leads to: left for 0, right for 1. -/
def State.child (s : State) (k : Nat) (b : Bool) : Nat := if b then (s.node k).right else (s.node k).left

theorem child_eq_iff (s : State) (k j : Nat) :
    (∃ b, s.child k b = j) ↔ (s.node k).left = j ∨ (s.node k).right = j := by
  simp [State.child]

/-- `e` is a path from ROOT through internal nodes that ends at the node. -/
inductive State.Path (s : State) : Codeword → Nat → Prop
  | root : s.Path { len := 0, bits := 0 } s.root
  | step {e : Codeword} {k : Nat} (b : Bool) (above : s.Path e k) (internal : (s.node k).isLeaf = false) :
      s.Path (e.snoc b) (s.child k b)

section
variable {s : State} {e f : Codeword} {i j : Nat}

theorem State.Path.bits_lt (h : s.Path e i) : e.bits < 2 ^ e.len := by
  induction h with
  | root => exact Nat.one_pos
  | step b _ _ ih => exact bits_snoc_lt b ih

theorem nodeAt_succ (s : State) (bits d : Nat) :
    s.nodeAt bits (d + 1) = s.child (s.nodeAt bits d) (bits.testBit d) := rfl

/-- The first `d` edges decide the node at depth `d`. -/
theorem nodeAt_congr (s : State) {bits bits' d : Nat} (h : ∀ j, j < d → bits.testBit j = bits'.testBit j) :
    s.nodeAt bits d = s.nodeAt bits' d := by
  induction d with
  | zero => rfl
  | succ d ih =>
    rw [nodeAt_succ, nodeAt_succ, ih fun j hj => h j (hj.trans (Nat.lt_succ_self d)), h d (Nat.lt_succ_self d)]

theorem nodeAt_snoc_of_le (s : State) (e : Codeword) (b : Bool) {d : Nat} (h : d ≤ e.len) :
    s.nodeAt (e.snoc b).bits d = s.nodeAt e.bits d :=
  nodeAt_congr s fun _ hj => testBit_snoc_of_lt e b (hj.trans_le h)

theorem State.Path.nodeAt_len (h : s.Path e i) : s.nodeAt e.bits e.len = i := by
  induction h with
  | root => rfl
  | @step e k b above _ ih =>
    rw [snoc_len, nodeAt_succ, nodeAt_snoc_of_le s e b le_rfl, ih, testBit_snoc_last b above.bits_lt]

theorem State.Path.internal_before (h : s.Path e i) {d : Nat} (hd : d < e.len) :
    (s.node (s.nodeAt e.bits d)).isLeaf = false := by
  induction h with
  | root => cases hd
  | @step e k b above internal ih =>
    rw [nodeAt_snoc_of_le s e b (Nat.le_of_lt_succ hd)]
    obtain hlt | rfl := (Nat.le_of_lt_succ hd).lt_or_eq
    · exact ih hlt
    · rwa [above.nodeAt_len]

/-- Two paths to leaves, one an initial part of the other, end at the same leaf: a longer one would pass a leaf. -/
theorem State.Path.leaf_eq_of_startsOf (he : s.Path e i) (hf : s.Path f j) (hleaf : (s.node i).isLeaf = true)
    (h : e.startsOf f) : i = j := by
  obtain ⟨hlen, hbits⟩ := h
  have hat : s.nodeAt f.bits e.len = i := (nodeAt_congr s hbits).symm.trans he.nodeAt_len
  obtain hlt | heq := hlen.lt_or_eq
  · have hinner := hf.internal_before hlt
    rw [hat, hleaf] at hinner
    cases hinner
  · rw [← hat, heq, hf.nodeAt_len]

/-! ### Paths in a built tree (41_tree_builder.md R90) -/

variable {n : Nat}

theorem ArenaLaws.isLeaf_iff (h : ArenaLaws s n) {k : Nat} (hk : k < 2 * n - 1) :
    (s.node k).isLeaf = true ↔ k < n := by
  refine ⟨fun hleaf => ?_, fun hlt => (h.leaf k hlt).1⟩
  by_contra hge
  have hinner := (h.internal k hk (Nat.not_lt.1 hge)).1
  rw [hleaf] at hinner
  cases hinner

theorem ArenaLaws.le_of_internal (h : ArenaLaws s n) {k : Nat} (hk : (s.node k).isLeaf = false) : n ≤ k := by
  by_contra hlt
  rw [(h.leaf k (Nat.not_le.1 hlt)).1] at hk
  cases hk

theorem ArenaLaws.child_lt (h : ArenaLaws s n) {k : Nat} (hn : n ≤ k) (hk : k < 2 * n - 1) (b : Bool) :
    s.child k b < k := by
  obtain ⟨-, -, hl, hr, -⟩ := h.internal k hk hn
  cases b
  · exact hl
  · exact hr

theorem ArenaLaws.child_injective (h : ArenaLaws s n) {k : Nat} (hn : n ≤ k) (hk : k < 2 * n - 1) {b c : Bool}
    (hchild : s.child k b = s.child k c) : b = c := by
  have hne := h.left_ne_right hn hk
  cases b with
  | false =>
    cases c with
    | false => rfl
    | true => exact absurd hchild hne
  | true =>
    cases c with
    | false => exact absurd hchild.symm hne
    | true => rfl

/-- Every edge leads to an earlier node. -/
theorem ArenaLaws.add_len_le (h : ArenaLaws s n) (hp : s.Path e i) : i + e.len ≤ 2 * n - 2 := by
  induction hp with
  | root => exact h.root.le
  | @step e k b above internal ih =>
    have := h.child_lt (h.le_of_internal internal) (by have := h.pos; omega) b
    rw [snoc_len]
    omega

theorem ArenaLaws.path_lt (h : ArenaLaws s n) (hp : s.Path e i) : i < 2 * n - 1 := by
  have := h.add_len_le hp
  have := h.pos
  omega

/-- A path passes internal nodes only, and there are `n - 1`. -/
theorem ArenaLaws.len_le (h : ArenaLaws s n) (hp : s.Path e i) : e.len ≤ n - 1 := by
  cases hp with
  | root => exact Nat.zero_le _
  | @step e k b above internal =>
    have := h.add_len_le above
    have := h.le_of_internal internal
    have := h.pos
    rw [snoc_len]
    omega

/-- A path leads to every node: one to its parent, and the edge from there. -/
theorem ArenaLaws.exists_path (h : ArenaLaws s n) {j : Nat} (hj : j < 2 * n - 1) : ∃ e, s.Path e j := by
  induction hd : 2 * n - 2 - j using Nat.strong_induction_on generalizing j with
  | _ d ih =>
    obtain heq | hlt := (show j ≤ 2 * n - 2 by omega).eq_or_lt
    · exact ⟨_, heq ▸ h.root ▸ State.Path.root⟩
    · obtain ⟨k, hn, hk, hchild⟩ := h.exists_parent hlt
      obtain ⟨b, rfl⟩ := (child_eq_iff s k j).2 hchild
      have := h.child_lt hn hk b
      obtain ⟨e, above⟩ := ih (2 * n - 2 - k) (by omega) hk rfl
      exact ⟨_, above.step b (h.internal k hk hn).1⟩

theorem ArenaLaws.child_ne_root (h : ArenaLaws s n) (hp : s.Path e i) (hi : (s.node i).isLeaf = false) (b : Bool) :
    s.child i b ≠ s.root := by
  have := h.child_lt (h.le_of_internal hi) (h.path_lt hp) b
  have := h.path_lt hp
  rw [h.root]
  omega

/-- Only the edge `b` of node `k` leads to its child `b`. -/
theorem ArenaLaws.edge_unique (h : ArenaLaws s n) (he : s.Path e i) (hf : s.Path f j)
    (hi : (s.node i).isLeaf = false) (hj : (s.node j).isLeaf = false) {b c : Bool}
    (hchild : s.child i b = s.child j c) : i = j ∧ b = c := by
  obtain rfl : i = j := h.parent_unique (h.le_of_internal hj) (h.path_lt hf) (h.le_of_internal hi) (h.path_lt he)
    ((child_eq_iff s j _).1 ⟨c, rfl⟩) ((child_eq_iff s i _).1 ⟨b, hchild⟩)
  exact ⟨rfl, h.child_injective (h.le_of_internal hi) (h.path_lt he) hchild⟩

/-- A node has one path. -/
theorem ArenaLaws.path_unique (h : ArenaLaws s n) (he : s.Path e i) (hf : s.Path f i) : e = f := by
  induction he generalizing f with
  | root =>
    generalize hr : s.root = r at hf
    cases hf with
    | root => rfl
    | step b above internal => exact absurd hr.symm (h.child_ne_root above internal b)
  | @step e k b above internal ih =>
    generalize hc : s.child k b = c at hf
    cases hf with
    | root => exact absurd hc (h.child_ne_root above internal b)
    | step b' above' internal' =>
      obtain ⟨rfl, rfl⟩ := h.edge_unique above above' internal internal' hc
      rw [ih above']

/-! ### The visit (42_code_table.md R92) -/

/-- The leaves the visit of node `i` reaches by the path `e`, in its order: each leaf's symbol with its path. -/
def State.leafCodes (s : State) : Nat → Nat → Codeword → Cells Codeword
  | 0, _, _ => []
  | fuel + 1, i, e =>
    if (s.node i).isLeaf then [((s.node i).sym, e)]
    else s.leafCodes fuel (s.child i false) (e.snoc false) ++ s.leafCodes fuel (s.child i true) (e.snoc true)

/-- What the visit reaches from the root. -/
def State.allLeafCodes (s : State) : Cells Codeword := s.leafCodes (s.root + 1) s.root { len := 0, bits := 0 }

theorem leafCodes_of_leaf (fuel : Nat) (e : Codeword) (h : (s.node i).isLeaf = true) :
    s.leafCodes (fuel + 1) i e = [((s.node i).sym, e)] := by
  simp only [State.leafCodes, h, if_true]

theorem leafCodes_of_internal (fuel : Nat) (e : Codeword) (h : (s.node i).isLeaf = false) :
    s.leafCodes (fuel + 1) i e
      = s.leafCodes fuel (s.child i false) (e.snoc false) ++ s.leafCodes fuel (s.child i true) (e.snoc true) := by
  simp only [State.leafCodes, h, Bool.false_eq_true, if_false]

/-- The entries `l` listed one after another in a table. -/
def putAll (l tab : Cells Codeword) : Cells Codeword := l.foldl (fun m x => cellPut x.1 x.2 m) tab

theorem putAll_append (l l' tab : Cells Codeword) : putAll (l ++ l') tab = putAll l' (putAll l tab) :=
  List.foldl_append

/-- The visit lists what it reaches in the table. -/
theorem visit_eq_putAll (s : State) (fuel i : Nat) (e : Codeword) (tab : Cells Codeword) :
    visit s.nodes fuel i e.len e.bits tab = putAll (s.leafCodes fuel i e) tab := by
  induction fuel generalizing i e tab with
  | zero => rfl
  | succ fuel ih =>
    cases hleaf : (s.node i).isLeaf with
    | true =>
      rw [leafCodes_of_leaf fuel e hleaf]
      exact if_pos hleaf
    | false =>
      rw [leafCodes_of_internal fuel e hleaf, putAll_append, ← ih, ← ih]
      exact if_neg (hleaf ▸ Bool.false_ne_true)

/-- A write at an index not listed adds one entry. -/
theorem perm_cellPut {α : Type} {x : Nat} (v : α) {m : Cells α} (h : cellGet x m = none) :
    (cellPut x v m).Perm ((x, v) :: m) := by
  induction m with
  | nil => exact List.Perm.refl _
  | cons d rest ih =>
    obtain ⟨k, w⟩ := d
    have hne : x ≠ k := fun heq => by simp [cellGet, heq] at h
    simp only [cellGet, if_neg hne] at h
    simp only [cellPut, if_neg hne]
    split
    · exact List.Perm.refl _
    · exact ((ih h).cons _).trans (List.Perm.swap ..)

/-- Entries of different symbols, none of them listed before, are all added. -/
theorem perm_putAll {l tab : Cells Codeword} (h : ((l ++ tab).map Prod.fst).Nodup) :
    (putAll l tab).Perm (l ++ tab) := by
  induction l generalizing tab with
  | nil => exact List.Perm.refl _
  | cons d l ih =>
    obtain ⟨hnot, -⟩ := List.nodup_cons.1 h
    have hnew : cellGet d.1 tab = none := by
      rw [← Option.not_isSome_iff_eq_none, cellGet_isSome_iff]
      exact fun hmem => hnot (List.map_append ▸ List.mem_append_right _ hmem)
    have hput : (l ++ cellPut d.1 d.2 tab).Perm (d :: l ++ tab) :=
      ((perm_cellPut d.2 hnew).append_left l).trans List.perm_middle
    exact (ih ((hput.map Prod.fst).nodup_iff.2 h)).trans hput

/-- What a visit reaches are leaves, each by a path that goes on from the one it began with. -/
theorem State.Path.of_mem_leafCodes {fuel x : Nat} (he : s.Path e i) (h : (x, f) ∈ s.leafCodes fuel i e) :
    ∃ j, (s.node j).isLeaf = true ∧ (s.node j).sym = x ∧ s.Path f j ∧ e.startsOf f := by
  induction fuel generalizing i e with
  | zero => cases h
  | succ fuel ih =>
    cases hleaf : (s.node i).isLeaf with
    | true =>
      rw [leafCodes_of_leaf fuel e hleaf, List.mem_singleton] at h
      cases h
      exact ⟨i, hleaf, rfl, he, startsOf_refl _⟩
    | false =>
      have hbelow : ∃ b, (x, f) ∈ s.leafCodes fuel (s.child i b) (e.snoc b) := by
        rw [leafCodes_of_internal fuel e hleaf, List.mem_append] at h
        exact h.elim (fun h => ⟨false, h⟩) fun h => ⟨true, h⟩
      obtain ⟨b, hb⟩ := hbelow
      obtain ⟨j, hj, hx, hf, hstart⟩ := ih (he.step b hleaf) hb
      exact ⟨j, hj, hx, hf, (startsOf_snoc e b).trans hstart⟩

/-- The visit from the root goes through every node a path leads to, with fuel left for the depth below it. -/
theorem ArenaLaws.leafCodes_subset (h : ArenaLaws s n) (hp : s.Path e i) :
    ∃ fuel, i ≤ fuel ∧ s.leafCodes (fuel + 1) i e ⊆ s.allLeafCodes := by
  induction hp with
  | root => exact ⟨s.root, le_rfl, List.Subset.refl _⟩
  | @step e k b above internal ih =>
    obtain ⟨fuel, hfuel, hsub⟩ := ih
    have hlt := h.child_lt (h.le_of_internal internal) (h.path_lt above) b
    obtain ⟨fuel, rfl⟩ := Nat.exists_eq_succ_of_ne_zero (show fuel ≠ 0 by omega)
    refine ⟨fuel, by omega, fun x hx => hsub ?_⟩
    rw [leafCodes_of_internal _ e internal, List.mem_append]
    cases b with
    | false => exact .inl hx
    | true => exact .inr hx

/-- The visit from the root reaches exactly the leaves, each by its path. -/
theorem ArenaLaws.mem_allLeafCodes (h : ArenaLaws s n) {x : Nat} :
    (x, e) ∈ s.allLeafCodes ↔ ∃ i, i < n ∧ (s.node i).sym = x ∧ s.Path e i := by
  constructor
  · intro hmem
    obtain ⟨j, hleaf, hx, hp, -⟩ := State.Path.root.of_mem_leafCodes hmem
    exact ⟨j, (h.isLeaf_iff (h.path_lt hp)).1 hleaf, hx, hp⟩
  · rintro ⟨i, hi, rfl, hp⟩
    obtain ⟨fuel, -, hsub⟩ := h.leafCodes_subset hp
    rw [leafCodes_of_leaf fuel e (h.leaf i hi).1] at hsub
    exact hsub (List.mem_singleton.2 rfl)

theorem ArenaLaws.sym_lt (h : ArenaLaws s n) (hij : i < j) (hj : j < n) : (s.node i).sym < (s.node j).sym := by
  induction j, hij using Nat.le_induction with
  | base => exact h.leaf_order i (by omega)
  | succ j hij ih => exact (ih (by omega)).trans (h.leaf_order j (by omega))

/-- Different leaves have different symbols. -/
theorem ArenaLaws.sym_injective (h : ArenaLaws s n) (hi : i < n) (hj : j < n) (hsym : (s.node i).sym = (s.node j).sym) :
    i = j := by
  obtain hlt | heq | hgt := Nat.lt_trichotomy i j
  · exact absurd hsym (h.sym_lt hlt hj).ne
  · exact heq
  · exact absurd hsym (h.sym_lt hgt hi).ne'

/-- The two sides of a node reach no symbol both: a leaf has one path, and it takes one of the two edges. -/
theorem ArenaLaws.nodup_leafCodes (h : ArenaLaws s n) (fuel : Nat) (hp : s.Path e i) :
    ((s.leafCodes fuel i e).map Prod.fst).Nodup := by
  induction fuel generalizing i e with
  | zero => exact List.nodup_nil
  | succ fuel ih =>
    cases hleaf : (s.node i).isLeaf with
    | true =>
      rw [leafCodes_of_leaf fuel e hleaf]
      exact List.nodup_singleton _
    | false =>
      rw [leafCodes_of_internal fuel e hleaf, List.map_append]
      refine List.nodup_append'.2 ⟨ih (hp.step false hleaf), ih (hp.step true hleaf), fun _ hl hr => ?_⟩
      obtain ⟨⟨x, f⟩, hf, rfl⟩ := List.mem_map.1 hl
      obtain ⟨⟨y, g⟩, hg, rfl⟩ := List.mem_map.1 hr
      obtain ⟨j, hj, hsym, hpf, -, hbit⟩ := (hp.step false hleaf).of_mem_leafCodes hf
      obtain ⟨j', hj', hsym', hpg, -, hbit'⟩ := (hp.step true hleaf).of_mem_leafCodes hg
      obtain rfl : j = j' := h.sym_injective ((h.isLeaf_iff (h.path_lt hpf)).1 hj)
        ((h.isLeaf_iff (h.path_lt hpg)).1 hj') (hsym.trans hsym'.symm)
      obtain rfl := h.path_unique hpf hpg
      have hsame := (hbit e.len (Nat.lt_succ_self _)).trans (hbit' e.len (Nat.lt_succ_self _)).symm
      rw [testBit_snoc_last _ hp.bits_lt, testBit_snoc_last _ hp.bits_lt] at hsame
      cases hsame

/-- The part of the code space a table fills, of 2^m in all: 2^(m - len) for each codeword. -/
def codeSpace (m : Nat) (tab : Cells Codeword) : Nat := (tab.map fun e => 2 ^ (m - e.2.len)).sum

theorem codeSpace_append (m : Nat) (l l' : Cells Codeword) :
    codeSpace m (l ++ l') = codeSpace m l + codeSpace m l' := by
  simp only [codeSpace, List.map_append, List.sum_append]

/-- The leaves below a node fill what its path leaves: each of the two sides half of it. -/
theorem ArenaLaws.codeSpace_leafCodes (h : ArenaLaws s n) {m fuel : Nat} (hm : n - 1 ≤ m) (hp : s.Path e i)
    (hfuel : i < fuel) : codeSpace m (s.leafCodes fuel i e) = 2 ^ (m - e.len) := by
  induction fuel generalizing i e with
  | zero => cases hfuel
  | succ fuel ih =>
    cases hleaf : (s.node i).isLeaf with
    | true =>
      rw [leafCodes_of_leaf fuel e hleaf]
      exact List.sum_singleton
    | false =>
      have hlen : e.len + 1 ≤ n - 1 := h.len_le (hp.step false hleaf)
      have hside : ∀ b, codeSpace m (s.leafCodes fuel (s.child i b) (e.snoc b)) = 2 ^ (m - (e.len + 1)) := fun b => by
        have hlt := h.child_lt (h.le_of_internal hleaf) (h.path_lt hp) b
        exact ih (hp.step b hleaf) (by omega)
      rw [leafCodes_of_internal fuel e hleaf, codeSpace_append, hside, hside, ← Nat.two_mul, ← Nat.pow_succ']
      congr 1
      omega

/-! ### The code table of a built tree (42_code_table.md R92, R93) -/

/-- `e` is the codeword of leaf `i` in a tree of `n` leaves: "0" in a one-leaf tree, its path in any other. -/
def State.IsCode (s : State) (n : Nat) (e : Codeword) (i : Nat) : Prop :=
  if n = 1 then e = { len := 1, bits := 0 } else s.Path e i

theorem codeTableOf_of_leaf (h : (s.node s.root).isLeaf = true) :
    codeTableOf s.nodes s.root = [((s.node s.root).sym, { len := 1, bits := 0 })] :=
  if_pos h

theorem ArenaLaws.codeTableOf_one (h : ArenaLaws s 1) :
    codeTableOf s.nodes s.root = [((s.node 0).sym, { len := 1, bits := 0 })] := by
  have hroot : s.root = 0 := h.root
  rw [codeTableOf_of_leaf (by rw [hroot]; exact (h.leaf 0 Nat.one_pos).1), hroot]

/-- With two leaves or more the table lists what the visit from the root reaches. -/
theorem ArenaLaws.perm_codeTableOf (h : ArenaLaws s n) (hn : 2 ≤ n) :
    (codeTableOf s.nodes s.root).Perm s.allLeafCodes := by
  have hroot := h.root
  have hinner : (s.node s.root).isLeaf = false := (h.internal s.root (by omega) (by omega)).1
  have hvisit : codeTableOf s.nodes s.root = visit s.nodes (s.root + 1) s.root 0 0 [] :=
    if_neg (hinner ▸ Bool.false_ne_true)
  have hperm := perm_putAll (l := s.allLeafCodes) (tab := [])
    (by rw [List.append_nil]; exact h.nodup_leafCodes _ .root)
  rwa [State.allLeafCodes, ← visit_eq_putAll, List.append_nil, ← hvisit] at hperm

/-- The table lists each leaf's symbol with its codeword, and nothing else. -/
theorem ArenaLaws.mem_codeTableOf (h : ArenaLaws s n) {x : Nat} :
    (x, e) ∈ codeTableOf s.nodes s.root ↔ ∃ i, i < n ∧ (s.node i).sym = x ∧ s.IsCode n e i := by
  unfold State.IsCode
  split
  · next hn =>
    subst hn
    rw [h.codeTableOf_one, List.mem_singleton, Prod.mk.injEq]
    exact ⟨fun ⟨hx, he⟩ => ⟨0, Nat.one_pos, hx.symm, he⟩,
      fun ⟨i, hi, hx, he⟩ => ⟨by rw [← hx, Nat.lt_one_iff.1 hi], he⟩⟩
  · next hn =>
    have := h.pos
    rw [(h.perm_codeTableOf (by omega)).mem_iff, h.mem_allLeafCodes]

theorem cellGet_of_mem {α : Type} {x : Nat} {v : α} {m : Cells α} (hm : cellsRising m = true) (h : (x, v) ∈ m) :
    cellGet x m = some v := by
  induction m with
  | nil => cases h
  | cons d rest ih =>
    obtain ⟨k, w⟩ := d
    obtain ⟨hlt, hrest⟩ := cellsRising_cons.1 hm
    obtain heq | hmem := List.mem_cons.1 h
    · cases heq
      simp [cellGet]
    · have hne : x ≠ k := (hlt _ hmem).ne'
      rw [cellGet, if_neg hne, ih hrest hmem]

theorem ArenaLaws.treeCode_eq_some_iff (h : ArenaLaws s n) {x : Nat} :
    s.treeCode x = some e ↔ ∃ i, i < n ∧ (s.node i).sym = x ∧ s.IsCode n e i := by
  rw [← h.mem_codeTableOf]
  exact ⟨mem_of_cellGet, cellGet_of_mem (cellsRising_codeTableOf _ _)⟩

theorem ArenaLaws.exists_isCode (h : ArenaLaws s n) (hi : i < n) : ∃ e, s.IsCode n e i := by
  unfold State.IsCode
  split
  · exact ⟨_, rfl⟩
  · exact h.exists_path (by omega)

theorem isCode_of_two_le (hn : 2 ≤ n) : s.IsCode n e i ↔ s.Path e i := by
  rw [State.IsCode, if_neg (by omega)]

theorem isCode_one : s.IsCode 1 e i ↔ e = { len := 1, bits := 0 } := by
  rw [State.IsCode, if_pos rfl]

/-- The table lists the leaves' symbols, one entry for each. -/
theorem ArenaLaws.treeCode_isSome_iff (h : ArenaLaws s n) {x : Nat} :
    (s.treeCode x).isSome = true ↔ ∃ i, i < n ∧ (s.node i).sym = x := by
  rw [Option.isSome_iff_exists]
  constructor
  · rintro ⟨e, he⟩
    obtain ⟨i, hi, hx, -⟩ := h.treeCode_eq_some_iff.1 he
    exact ⟨i, hi, hx⟩
  · rintro ⟨i, hi, hx⟩
    obtain ⟨e, he⟩ := h.exists_isCode hi
    exact ⟨e, h.treeCode_eq_some_iff.2 ⟨i, hi, hx, he⟩⟩

theorem ArenaLaws.length_codeTableOf (h : ArenaLaws s n) : (codeTableOf s.nodes s.root).length = n := by
  have hsyms : ((List.range n).map fun i => (s.node i).sym).Nodup :=
    List.nodup_range.map_on fun i hi j hj hsym => h.sym_injective (List.mem_range.1 hi) (List.mem_range.1 hj) hsym
  have hperm : ((codeTableOf s.nodes s.root).map Prod.fst).Perm ((List.range n).map fun i => (s.node i).sym) := by
    refine (List.perm_ext_iff_of_nodup (nodup_indexes (cellsRising_codeTableOf _ _)) hsyms).2 fun x => ?_
    rw [← cellGet_isSome_iff, ← State.treeCode, h.treeCode_isSome_iff, List.mem_map]
    simp only [List.mem_range]
  have := hperm.length_eq
  rwa [List.length_map, List.length_map, List.length_range] at this

/-- No codeword is an initial part of another leaf's (42_code_table.md R93). -/
theorem ArenaLaws.leaf_eq_of_startsOf (h : ArenaLaws s n) (hi : i < n) (hj : j < n) (he : s.IsCode n e i)
    (hf : s.IsCode n f j) (hstart : e.startsOf f) : i = j := by
  obtain hlt | hge := Nat.lt_or_ge n 2
  · omega
  · exact ((isCode_of_two_le hge).1 he).leaf_eq_of_startsOf ((isCode_of_two_le hge).1 hf) (h.leaf i hi).1 hstart

/-- A codeword has a bit: with two leaves or more no leaf is the root. -/
theorem ArenaLaws.one_le_len (h : ArenaLaws s n) (hi : i < n) (he : s.IsCode n e i) : 1 ≤ e.len := by
  unfold State.IsCode at he
  split at he
  · rw [he]
  · cases he with
    | root =>
      have := h.root
      omega
    | step => exact Nat.le_add_left 1 _

/-- The table of one leaf fills half of the code space, any other all of it (42_code_table.md R93). -/
theorem ArenaLaws.codeSpace_codeTableOf (h : ArenaLaws s n) {m : Nat} (hn : 2 ≤ n) (hm : n - 1 ≤ m) :
    codeSpace m (codeTableOf s.nodes s.root) = 2 ^ m :=
  (((h.perm_codeTableOf hn).map _).sum_eq).trans (h.codeSpace_leafCodes hm .root (Nat.lt_succ_self _))

theorem ArenaLaws.codeSpace_codeTableOf_one (h : ArenaLaws s 1) {m : Nat} (hm : 1 ≤ m) :
    2 * codeSpace m (codeTableOf s.nodes s.root) = 2 ^ m := by
  have hone : codeSpace m [((s.node 0).sym, { len := 1, bits := 0 })] = 2 ^ (m - 1) := List.sum_singleton
  rw [h.codeTableOf_one, hone, ← pow_succ', Nat.sub_add_cancel hm]

end

/-! ### BUILD_CODE_TABLE (42_code_table.md R92) -/

theorem buildCodeTableBody_of_none {s : State} (hv : s.treeValid = false) : buildCodeTableBody s = fail .noTree 0 s :=
  if_pos hv

theorem buildCodeTableBody_of_tree {s : State} (hv : s.treeValid = true) : buildCodeTableBody s =
    done ({ s with code := codeTableOf s.nodes s.root, tableValid := true }.setRes
      (zext32 (codeTableOf s.nodes s.root).length) 0 0) :=
  if_neg (by simp [hv])

/-- With a tree in the arena the table becomes the tree's, and its length is reported. -/
theorem exec_buildCodeTable_of_tree {s t : State} (hv : s.treeValid = true) (h : exec .buildCodeTable s = .next t) :
    Reports t .ok 0 (zext32 (codeTableOf s.nodes s.root).length) 0 0 ∧ t.tableValid = true
    ∧ ∀ x, t.codeOf x = s.treeCode x := by
  have ht := exec_eq_next.1 h
  rw [bodyOf, buildCodeTableBody_of_tree (s := prologue s) hv] at ht
  subst ht
  exact ⟨⟨rfl, rfl, rfl, rfl, rfl, rfl⟩, rfl, fun _ => rfl⟩

/-- BUILD_CODE_TABLE changes nothing but the code table and the report. -/
theorem exec_buildCodeTable_frame {s t : State} (h : exec .buildCodeTable s = .next t) :
    SamePort s t ∧ SameFreq s t ∧ SameQueue s t ∧ SameTree s t ∧ SameSymbuf s t ∧ SameBitbuf s t := by
  have own := exec_ownTablesOnly h
  exact ⟨own.port, own.freq (by decide), own.queue (by decide), own.tree (by decide),
    sameSymbuf_of_eq own.port (own.symbuf (by decide)), sameBitbuf_of_eq own.port (own.bitbuf (by decide))⟩

/-- Settles O40: the table is the tree's, which lists each leaf's symbol with its one path from the root. -/
theorem buildCodeTableGivesEachLeafItsPath : Obligations.BuildCodeTableGivesEachLeafItsPath := by
  unfold Obligations.BuildCodeTableGivesEachLeafItsPath
  refine ⟨decode_encode .buildCodeTable, fun s hinv =>
    ⟨fun hv => failsCleanly_of_body (buildCodeTableBody_of_none (s := prologue s) hv), fun hv => ?_⟩⟩
  have inv := (inv_iff s).1 hinv
  have laws := treeOk_of_valid inv.tree hv
  have hexec := exec_eq_nextOr .buildCodeTable s s
  obtain ⟨⟨hctl, herr, hinfo, hres0, hres1, hres2⟩, htable, hcode⟩ := exec_buildCodeTable_of_tree hv hexec
  refine ⟨_, hexec, hctl, herr, hinfo, ?_, hres1, hres2, htable, fun x => ?_, fun hone => ?_, fun htwo i hi => ?_,
    exec_buildCodeTable_frame hexec⟩
  · rw [hres0, laws.length_codeTableOf, toNat_zext32_of_le_alphabet inv.legal laws.le_alphabet]
  · rw [hcode, laws.treeCode_isSome_iff]
  · rw [hcode]
    exact laws.treeCode_eq_some_iff.2 ⟨0, laws.pos, rfl, by rw [hone]; exact isCode_one.2 rfl⟩
  · obtain ⟨e, he⟩ := laws.exists_isCode hi
    have hpath := (isCode_of_two_le htwo).1 he
    refine ⟨e, ?_, laws.one_le_len hi he, hpath.bits_lt, hpath.nodeAt_len, fun d hd => hpath.internal_before hd⟩
    rw [hcode]
    exact laws.treeCode_eq_some_iff.2 ⟨i, hi, rfl, he⟩

/-! ### The laws of the code (42_code_table.md R93) -/

/-- A valid table is the one of the tree in the arena. -/
theorem Invariant.table_of_valid {s : State} (inv : Invariant s) (hv : s.tableValid = true) :
    s.treeValid = true ∧ s.code = codeTableOf s.nodes s.root := by
  have htable := inv.table
  rwa [State.tableOk, if_pos hv, Bool.and_eq_true, beq_iff_eq] at htable

/-- A codeword fits its entry: n - 1 is at most CODE_MAX, and so is the 1 of a one-leaf tree. -/
theorem ArenaLaws.code_len_le {s : State} {n i : Nat} {e : Codeword} (h : ArenaLaws s n) (hp : s.cfg.legal = true)
    (he : s.IsCode n e i) : e.len ≤ s.cfg.codeMax ∧ (2 ≤ n → e.len ≤ n - 1) := by
  obtain ⟨hN, -⟩ := alphabet_bounds hp
  have hle := h.le_alphabet
  unfold Params.codeMax
  unfold State.IsCode at he
  split at he
  · next hone =>
    rw [he]
    exact ⟨show 1 ≤ _ by omega, fun _ => by omega⟩
  · have := h.len_le he
    exact ⟨by omega, fun _ => this⟩

/-- Settles O41: codewords are paths to leaves of a strict binary tree. -/
theorem theCodeIsPrefixFreeAndComplete : Obligations.TheCodeIsPrefixFreeAndComplete := by
  unfold Obligations.TheCodeIsPrefixFreeAndComplete
  intro s hinv htable
  have inv := (inv_iff s).1 hinv
  obtain ⟨hv, hcode⟩ := inv.table_of_valid htable
  have laws := treeOk_of_valid inv.tree hv
  obtain ⟨hN, -⟩ := alphabet_bounds inv.legal
  have hmax : s.leafCount - 1 ≤ s.cfg.codeMax := Nat.sub_le_sub_right laws.le_alphabet 1
  have hentry : ∀ x e, s.codeOf x = some e →
      ∃ i, i < s.leafCount ∧ (s.node i).sym = x ∧ s.IsCode s.leafCount e i := fun x e he =>
    laws.treeCode_eq_some_iff.1 (by rwa [State.codeOf, hcode] at he)
  refine ⟨fun x y e f he hf hne hstart => ?_, fun x e he => ?_, fun htwo => ?_, fun hone => ?_⟩
  · obtain ⟨i, hi, rfl, hei⟩ := hentry x e he
    obtain ⟨j, hj, rfl, hfj⟩ := hentry y f hf
    exact hne (congrArg (fun k => (s.node k).sym) (laws.leaf_eq_of_startsOf hi hj hei hfj hstart))
  · obtain ⟨i, hi, -, hei⟩ := hentry x e he
    exact ⟨laws.one_le_len hi hei, laws.code_len_le inv.legal hei⟩
  · rw [hcode]
    exact laws.codeSpace_codeTableOf htwo hmax
  · rw [hcode]
    rw [hone] at laws
    exact laws.codeSpace_codeTableOf_one (Nat.le_sub_of_add_le hN)

/-! ### Frequencies and lengths (42_code_table.md R93) -/

theorem not_leavesBefore_of_leavesBefore {t : State} {i j : Nat} (h : leavesBefore t i j) : ¬ leavesBefore t j i := by
  unfold leavesBefore at *
  omega

section
variable {t : State} {n : Nat}

theorem ArenaLaws.weight_child_le (h : ArenaLaws t n) {k : Nat} (hn : n ≤ k) (hk : k < 2 * n - 1) (b : Bool) :
    (t.node (t.child k b)).weight ≤ (t.node k).weight := by
  obtain ⟨-, -, -, -, hw⟩ := h.internal k hk hn
  rw [hw]
  cases b
  · exact Nat.le_add_right _ _
  · exact Nat.le_add_left _ _

/-- What still waits after merge `k` is its node, or weighs at least what its right child does. -/
theorem TakesTheFirstTwo.weight_le_of_waitsAt {k c : Nat} (h : TakesTheFirstTwo t n k) (hn : n ≤ k)
    (hc : waitsAt t n (k + 1) c) : c = k ∨ (t.node (t.node k).right).weight ≤ (t.node c).weight := by
  obtain ⟨hlt, hnot⟩ := hc
  obtain hlt | rfl := (Nat.le_of_lt_succ hlt).lt_or_eq
  · obtain ⟨hl, hr⟩ := hnot k hn (Nat.lt_succ_self k)
    have hwaits : waitsAt t n k c := ⟨hlt, fun m hm hmk => hnot m hm (hmk.trans (Nat.lt_succ_self k))⟩
    have hafter := h.right_second c hwaits hl.symm hr.symm
    unfold leavesBefore at hafter
    omega
  · exact .inl rfl

theorem TakesTheFirstTwo.weight_left_le {k : Nat} (h : TakesTheFirstTwo t n k) :
    (t.node (t.node k).left).weight ≤ (t.node (t.node k).right).weight := by
  have hafter := h.left_first _ h.right_waits h.differ.symm
  unfold leavesBefore at hafter
  omega

/-- Every merge takes the two that leave first, as BUILD_TREE does. -/
def MergesInOrder (t : State) (n : Nat) : Prop := ∀ k, n ≤ k → k < 2 * n - 1 → TakesTheFirstTwo t n k

/-- The merges weigh no less one after another: the later one has the earlier as a child, or two children that each
weigh at least what the earlier's do. -/
theorem ArenaLaws.weight_le_succ (h : ArenaLaws t n) (hord : MergesInOrder t n) {k : Nat} (hn : n ≤ k)
    (hk : k + 1 < 2 * n - 1) : (t.node k).weight ≤ (t.node (k + 1)).weight := by
  have hthis := hord k hn (by omega)
  have hnext := hord (k + 1) (by omega) hk
  obtain ⟨-, -, -, -, hw⟩ := h.internal k (by omega) hn
  obtain ⟨-, -, -, -, hw'⟩ := h.internal (k + 1) hk (by omega)
  have hsides := hthis.weight_left_le
  obtain hl | hl := hthis.weight_le_of_waitsAt hn hnext.left_waits
  · rw [hw', hl]
    exact Nat.le_add_right _ _
  · obtain hr | hr := hthis.weight_le_of_waitsAt hn hnext.right_waits
    · rw [hw', hr]
      exact Nat.le_add_left _ _
    · omega

theorem ArenaLaws.weight_mono (h : ArenaLaws t n) (hord : MergesInOrder t n) {k k' : Nat} (hn : n ≤ k)
    (hle : k ≤ k') (hk' : k' < 2 * n - 1) : (t.node k).weight ≤ (t.node k').weight := by
  induction k', hle using Nat.le_induction with
  | base => exact le_rfl
  | succ k' hle ih => exact (ih (by omega)).trans (h.weight_le_succ hord (by omega) hk')

/-- A node that leaves the queue before a child of `k` is a child too, of `k` or of an earlier node. -/
theorem ArenaLaws.parent_le (h : ArenaLaws t n) (hord : MergesInOrder t n) {i k : Nat} {b : Bool}
    (hi : i < 2 * n - 1) (hn : n ≤ k) (hk : k < 2 * n - 1) (hbefore : leavesBefore t i (t.child k b)) :
    ∃ k' c, n ≤ k' ∧ k' ≤ k ∧ t.child k' c = i := by
  obtain hge | hlt := le_or_gt k i
  · have hchild := h.weight_child_le hn hk b
    have hmono := h.weight_mono hord hn hge hi
    have hearlier := h.child_lt hn hk b
    unfold leavesBefore at hbefore
    omega
  · by_cases hw : waitsAt t n k i
    · by_cases hl : i = (t.node k).left
      · exact ⟨k, false, hn, le_rfl, hl.symm⟩
      · by_cases hr : i = (t.node k).right
        · exact ⟨k, true, hn, le_rfl, hr.symm⟩
        · have hlater : leavesBefore t (t.child k b) i := by
            cases b
            · exact (hord k hn hk).left_first i hw hl
            · exact (hord k hn hk).right_second i hw hl hr
          exact absurd hlater (not_leavesBefore_of_leavesBefore hbefore)
    · rw [waitsAt_iff, not_and_not_right, mem_childrenFrom] at hw
      obtain ⟨m, hm, hmk, hchild⟩ := hw hlt
      obtain ⟨c, hc⟩ := (child_eq_iff t m i).2 hchild
      exact ⟨m, c, hm, hmk.le, hc⟩

/-- A node that leaves the queue before another stands at least as deep: the same holds of their parents. -/
theorem ArenaLaws.len_le_of_leavesBefore (h : ArenaLaws t n) (hord : MergesInOrder t n) {e f : Codeword} {i j : Nat}
    (he : t.Path e i) (hf : t.Path f j) (hbefore : leavesBefore t i j) : f.len ≤ e.len := by
  induction he generalizing f j with
  | root =>
    cases hf with
    | root => exact le_rfl
    | step b above internal =>
      obtain ⟨k, c, hn, hk, hc⟩ := h.parent_le hord (h.path_lt .root) (h.le_of_internal internal) (h.path_lt above)
        hbefore
      obtain ⟨g, hg⟩ := h.exists_path (hk.trans_lt (h.path_lt above))
      exact absurd hc (h.child_ne_root hg (h.internal k (h.path_lt hg) hn).1 c)
  | @step e k b above internal ih =>
    cases hf with
    | root => exact Nat.zero_le _
    | @step f k' b' above' internal' =>
      obtain ⟨m, c, hn, hm, hc⟩ := h.parent_le hord (h.path_lt (above.step b internal)) (h.le_of_internal internal')
        (h.path_lt above') hbefore
      obtain ⟨g, hg⟩ := h.exists_path (hm.trans_lt (h.path_lt above'))
      obtain ⟨rfl, -⟩ := h.edge_unique hg above (h.internal m (h.path_lt hg) hn).1 internal hc
      refine Nat.succ_le_succ ?_
      obtain hlt | rfl := hm.lt_or_eq
      · have hmono := h.weight_mono hord hn hm (h.path_lt above')
        exact ih above' (by unfold leavesBefore; omega)
      · exact (congrArg Codeword.len (h.path_unique above' above)).le

end

/-- A leaf weighs its symbol's frequency. -/
theorem BuiltFrom.freqOf_leaf {s t : State} (h : BuiltFrom s t) (hok : s.freqOk = true) (hn : 1 ≤ s.freqCount)
    {i : Nat} (hi : i < s.freqCount) : s.freqOf (t.node i).sym = (t.node i).weight := by
  obtain ⟨hrising, -, -⟩ := (freqOk_iff s).1 hok
  rw [State.freqOf, cellGet_of_mem hrising (List.mem_of_getElem? (h.leaf hn hi)), Option.getD_some]

/-- Settles O42: the leaf of lower weight leaves the queue first, and so does each node above it until the two paths
meet. -/
theorem rarerSymbolsNeverGetShorterCodewords : Obligations.RarerSymbolsNeverGetShorterCodewords := by
  unfold Obligations.RarerSymbolsNeverGetShorterCodewords
  intro s t u _ hok hn ht hu x y e f he hf hlt
  have built := exec_buildTree_of_some hn ht
  have laws := built.arenaLaws hok hn
  obtain ⟨-, -, hcode⟩ := exec_buildCodeTable_of_tree built.valid hu
  rw [hcode] at he hf
  obtain ⟨i, hi, rfl, hei⟩ := laws.treeCode_eq_some_iff.1 he
  obtain ⟨j, hj, rfl, hfj⟩ := laws.treeCode_eq_some_iff.1 hf
  rw [built.freqOf_leaf hok hn hi, built.freqOf_leaf hok hn hj] at hlt
  have htwo : 2 ≤ s.freqCount := by
    by_contra hone
    obtain rfl : i = j := by omega
    exact lt_irrefl _ hlt
  exact laws.len_le_of_leavesBefore (fun k hk hk' => built.takesTheFirstTwo hn hk hk') ((isCode_of_two_le htwo).1 hei)
    ((isCode_of_two_le htwo).1 hfj) (.inl hlt)

/-! ### CODE_READ (42_code_table.md R94) -/

/-- A word cut from a value holds the value's bits from `lo` on. -/
theorem getLsbD_zext32_bitRange (v lo : Nat) {j : Nat} (h : j < 32) :
    (zext32 (bitRange v (lo + 31) lo)).getLsbD j = v.testBit (lo + j) := by
  have hwidth : lo + 31 + 1 - lo = 32 := by omega
  rw [zext32, BitVec.getLsbD_ofNat, bitRange, hwidth, Nat.testBit_mod_two_pow, Nat.testBit_shiftRight]
  simp only [h, decide_true, Bool.true_and]

theorem codeInfoWord_present (present : Bool) (len : Nat) : (codeInfoWord present len).getLsbD 31 = present := by
  simp only [codeInfoWord, BitVec.getLsbD_append]
  simp

theorem codeInfoWord_unused (present : Bool) (len : Nat) {j : Nat} (h : 16 ≤ j) (h' : j < 31) :
    (codeInfoWord present len).getLsbD j = false := by
  simp only [codeInfoWord, BitVec.getLsbD_append]
  simp [show ¬ j < 16 by omega, show j - 16 < 15 by omega]

theorem codeInfoWord_len (present : Bool) (len : Nat) {j : Nat} (h : j < 16) :
    (codeInfoWord present len).getLsbD j = len.testBit j := by
  simp only [codeInfoWord, BitVec.getLsbD_append, BitVec.getLsbD_ofNat, h, decide_true, if_true, Bool.true_and]

/-- An absent entry packs into words of 0. -/
theorem codeWords_absent (w : Nat) : zext32 (bitRange 0 (32 * w + 31) (32 * w)) = 0 ∧ codeInfoWord false 0 = 0 :=
  ⟨by simp [bitRange, zext32], by decide⟩

theorem codeReadBody_of_bad_symbol {s : State} (hx : s.cfg.alphabet ≤ s.op0.toNat) :
    codeReadBody s = fail .badArg 0 s :=
  if_pos hx

theorem codeReadBody_of_bad_word {s : State} (hx : s.op0.toNat < s.cfg.alphabet)
    (hw : s.cfg.codeWords ≤ s.op1.toNat) : codeReadBody s = fail .badArg 1 s :=
  (if_neg (Nat.not_le.2 hx)).trans (if_pos hw)

/-- The entry CODE_READ shows: an absent symbol's is empty (10_state.md R35). -/
def State.codeEntry (s : State) (x : Nat) : Codeword := (s.codeOf x).getD { len := 0, bits := 0 }

theorem codeReadBody_of_word {s : State} (hx : s.op0.toNat < s.cfg.alphabet) (hw : s.op1.toNat < s.cfg.codeWords) :
    codeReadBody s = done (s.setRes
      (zext32 (bitRange (s.codeEntry s.op0.toNat).bits (32 * s.op1.toNat + 31) (32 * s.op1.toNat)))
      (codeInfoWord (s.codeOf s.op0.toNat).isSome (s.codeEntry s.op0.toNat).len) 0) :=
  (if_neg (Nat.not_le.2 hx)).trans (if_neg (Nat.not_le.2 hw))

theorem exec_codeRead_of_word {s : State} (hx : s.op0.toNat < s.cfg.alphabet) (hw : s.op1.toNat < s.cfg.codeWords) :
    ∃ t, exec .codeRead s = .next t
      ∧ Reports t .ok 0 (zext32 (bitRange (s.codeEntry s.op0.toNat).bits (32 * s.op1.toNat + 31) (32 * s.op1.toNat)))
        (codeInfoWord (s.codeOf s.op0.toNat).isSome (s.codeEntry s.op0.toNat).len) 0 := by
  refine ⟨_, exec_eq_next.2 rfl, ?_⟩
  rw [bodyOf, codeReadBody_of_word (s := prologue s) hx hw]
  exact ⟨rfl, rfl, rfl, rfl, rfl, rfl⟩

/-- Settles O43: each check by its branch, and the result words bit by bit. -/
theorem codeReadShowsOneWordOfACodeword : Obligations.CodeReadShowsOneWordOfACodeword := by
  unfold Obligations.CodeReadShowsOneWordOfACodeword
  refine ⟨decode_encode .codeRead, fun s =>
    ⟨fun hx => failsCleanly_of_body (codeReadBody_of_bad_symbol hx),
     fun hx hw => failsCleanly_of_body (codeReadBody_of_bad_word hx hw), fun hx hw => ?_⟩⟩
  obtain ⟨t, hexec, hctl, herr, hinfo, hres0, hres1, hres2⟩ := exec_codeRead_of_word hx hw
  refine ⟨t, hexec, hctl, herr, hinfo, hres2, fun habsent => ?_, fun e he => ?_,
    exec_readback_frame (by decide) hexec⟩
  · rw [hres0, hres1, State.codeEntry, habsent]
    exact codeWords_absent _
  · rw [hres0, hres1, State.codeEntry, he]
    exact ⟨fun j hj => getLsbD_zext32_bitRange _ _ hj, codeInfoWord_present _ _,
      fun j h h' => codeInfoWord_unused _ _ h h', fun j hj => codeInfoWord_len _ _ hj⟩

end Sys2Proof.Machine

namespace Sys2Proof.Machine

/-! ### The codewords ENCODE writes (43_encoder.md R95) -/

/-- The bits after the codewords of SYMBUF[0 .. m-1] are written into `out`, each from its start on. -/
def State.putCodes (s : State) : Nat → Cells Bool → Cells Bool
  | 0, out => out
  | m + 1, out =>
    match s.codeOf (s.symRead m) with
    | none => s.putCodes m out
    | some e => putBits (s.codeStart m) (fun j => e.bits.testBit j) e.len (s.putCodes m out)

section
variable {s : State}

theorem codeStart_succ_of_some {m : Nat} {e : Codeword} (he : s.codeOf (s.symRead m) = some e) :
    s.codeStart (m + 1) = s.codeStart m + e.len := by
  rw [State.codeStart, he, Option.map_some, Option.getD_some]

theorem codeStart_mono (s : State) : Monotone s.codeStart := monotone_nat_of_le_succ fun _ => Nat.le_add_right _ _

/-- A codeword ends where the next one starts, so before every later start. -/
theorem codeStart_add_len_le {i m : Nat} {e : Codeword} (he : s.codeOf (s.symRead i) = some e) (hi : i < m) :
    s.codeStart i + e.len ≤ s.codeStart m := by
  rw [← codeStart_succ_of_some he]
  exact codeStart_mono s hi

theorem putCodes_succ_of_none {m : Nat} (he : s.codeOf (s.symRead m) = none) (out : Cells Bool) :
    s.putCodes (m + 1) out = s.putCodes m out := by
  simp only [State.putCodes, he]

theorem putCodes_succ_of_some {m : Nat} {e : Codeword} (he : s.codeOf (s.symRead m) = some e) (out : Cells Bool) :
    s.putCodes (m + 1) out = putBits (s.codeStart m) (fun j => e.bits.testBit j) e.len (s.putCodes m out) := by
  simp only [State.putCodes, he]

/-- Nothing is written past the last codeword. -/
theorem cellGet_putCodes_of_le {m k : Nat} (hk : s.codeStart m ≤ k) (out : Cells Bool) :
    cellGet k (s.putCodes m out) = cellGet k out := by
  induction m with
  | zero => rfl
  | succ m ih =>
    have hbefore := ih ((codeStart_mono s m.le_succ).trans hk)
    cases he : s.codeOf (s.symRead m) with
    | none => rw [putCodes_succ_of_none he, hbefore]
    | some e =>
      rw [codeStart_succ_of_some he] at hk
      rw [putCodes_succ_of_some he, cellGet_putBits, if_neg (by omega), hbefore]

/-- Each codeword stands at its start: the later ones are written past its end. -/
theorem cellGet_putCodes {i m j : Nat} {e : Codeword} (hi : i < m) (he : s.codeOf (s.symRead i) = some e)
    (hj : j < e.len) (out : Cells Bool) :
    cellGet (s.codeStart i + j) (s.putCodes m out) = some (e.bits.testBit j) := by
  induction m with
  | zero => cases hi
  | succ m ih =>
    obtain hlt | rfl := (Nat.le_of_lt_succ hi).lt_or_eq
    · have hend := codeStart_add_len_le he hlt
      cases hm : s.codeOf (s.symRead m) with
      | none => rw [putCodes_succ_of_none hm, ih hlt]
      | some f => rw [putCodes_succ_of_some hm, cellGet_putBits, if_neg (by omega), ih hlt]
    · rw [putCodes_succ_of_some he, cellGet_putBits, if_pos (by omega), Nat.add_sub_cancel_left]

/-! ### ENCODE's loop (43_encoder.md R95) -/

theorem encodeLoop_of_none {i : Nat} (he : s.codeOf (s.symRead i) = none) (rem pos : Nat) (out : Cells Bool) :
    encodeLoop s (rem + 1) i pos out = { out := out, count := pos, stop := some (.unknownSymbol, i) } := by
  simp only [encodeLoop, he]

theorem encodeLoop_of_overflow {i pos : Nat} {e : Codeword} (he : s.codeOf (s.symRead i) = some e)
    (hover : s.cfg.bitDepth < pos + e.len) (rem : Nat) (out : Cells Bool) :
    encodeLoop s (rem + 1) i pos out = { out := out, count := pos, stop := some (.bufferOverflow, i) } := by
  simp only [encodeLoop, he, if_pos hover]

theorem encodeLoop_of_fits {i pos : Nat} {e : Codeword} (he : s.codeOf (s.symRead i) = some e)
    (hfit : pos + e.len ≤ s.cfg.bitDepth) (rem : Nat) (out : Cells Bool) :
    encodeLoop s (rem + 1) i pos out
      = encodeLoop s rem (i + 1) (pos + e.len) (putBits pos (fun j => e.bits.testBit j) e.len out) := by
  simp only [encodeLoop, he, if_neg (Nat.not_lt.2 hfit)]

/-- The loop gets past the first `m` symbols when each has a codeword and all of them fit. -/
theorem encodeLoop_add {m : Nat} (hsome : ∀ j, j < m → (s.codeOf (s.symRead j)).isSome = true)
    (hfit : s.codeStart m ≤ s.cfg.bitDepth) (rem : Nat) (out : Cells Bool) :
    encodeLoop s (m + rem) 0 0 out = encodeLoop s rem m (s.codeStart m) (s.putCodes m out) := by
  induction m generalizing rem with
  | zero => rw [Nat.zero_add, State.codeStart, State.putCodes]
  | succ m ih =>
    obtain ⟨e, he⟩ := Option.isSome_iff_exists.1 (hsome m m.lt_succ_self)
    have hbefore := ih (fun j hj => hsome j (hj.trans m.lt_succ_self)) ((codeStart_mono s m.le_succ).trans hfit)
    rw [codeStart_succ_of_some he] at hfit ⊢
    rw [Nat.add_right_comm, Nat.add_assoc, hbefore, encodeLoop_of_fits he hfit, putCodes_succ_of_some he]

theorem encodeLoop_prologue (rem i pos : Nat) (out : Cells Bool) :
    encodeLoop (prologue s) rem i pos out = encodeLoop s rem i pos out := by
  induction rem generalizing i pos out with
  | zero => rfl
  | succ rem ih =>
    simp only [encodeLoop, ih]
    rfl

/-! ### ENCODE (43_encoder.md R95) -/

/-- The loop ENCODE runs. -/
def encodeRun (s : State) : LoopEnd Bool := encodeLoop s s.op0.toNat 0 0 s.bitbuf

theorem encodeRun_prologue : encodeRun (prologue s) = encodeRun s := encodeLoop_prologue ..

/-- The error a loop's stop reports, OK when nothing stopped it early. -/
def stopErr (stop : Option (ErrCode × Nat)) : ErrCode := (stop.map Prod.fst).getD .ok

/-- The locator of that error. -/
def stopInfo (stop : Option (ErrCode × Nat)) : Word := (stop.map fun x => zext32 x.2).getD 0

theorem encodeBody_of_long (hm : s.cfg.symDepth < s.op0.toNat) : encodeBody s = fail .badArg 0 s := if_pos hm

theorem encodeBody_of_length (hm : s.op0.toNat ≤ s.cfg.symDepth) : encodeBody s =
    { st := { s with bitbuf := (encodeRun s).out }.setRes (zext32 (encodeRun s).count) 0 0,
      err := stopErr (encodeRun s).stop, info := stopInfo (encodeRun s).stop } := by
  rw [encodeBody, if_neg (Nat.not_lt.2 hm), encodeRun]
  dsimp only
  cases (encodeLoop s s.op0.toNat 0 0 s.bitbuf).stop <;> rfl

/-- ENCODE of too many symbols fails before any effect. -/
theorem encode_failsCleanly_of_long (hm : s.cfg.symDepth < s.op0.toNat) : FailsCleanly .encode s .badArg 0 :=
  failsCleanly_of_body (encodeBody_of_long (s := prologue s) hm)

/-- ENCODE reports how its loop ended, and BITBUF is what the loop left. -/
theorem exec_encode_of_length {t : State} (hm : s.op0.toNat ≤ s.cfg.symDepth) (h : exec .encode s = .next t) :
    Reports t (stopErr (encodeRun s).stop) (stopInfo (encodeRun s).stop) (zext32 (encodeRun s).count) 0 0
    ∧ t.bitbuf = (encodeRun s).out := by
  have ht := exec_eq_next.1 h
  rw [bodyOf, encodeBody_of_length (s := prologue s) hm, encodeRun_prologue] at ht
  subst ht
  exact ⟨⟨rfl, rfl, rfl, rfl, rfl, rfl⟩, rfl⟩

/-- ENCODE changes nothing but BITBUF and the report. -/
theorem exec_encode_frame {t : State} (h : exec .encode s = .next t) :
    SamePort s t ∧ SameFreq s t ∧ SameQueue s t ∧ SameTree s t ∧ SameTable s t ∧ SameSymbuf s t := by
  have own := exec_ownTablesOnly h
  exact ⟨own.port, own.freq (by decide), own.queue (by decide), own.tree (by decide), own.table (by decide),
    sameSymbuf_of_eq own.port (own.symbuf (by decide))⟩

theorem encodedUpTo_of_putCodes {t : State} {m : Nat} (hport : SamePort s t)
    (hbits : t.bitbuf = s.putCodes m s.bitbuf) : EncodedUpTo s t m := by
  obtain ⟨-, -, -, -, -, -, -, -, hepoch, -⟩ := hport
  refine ⟨fun i hi e he j hj => ?_, fun k hk => ?_⟩
  · rw [State.bitRead, hbits, cellGet_putCodes hi he hj, Option.getD_some]
  · rw [State.bitRead, hbits, cellGet_putCodes_of_le hk, hepoch, State.bitRead]

/-- ENCODE whose loop ends past the codewords of the first `m` symbols. -/
theorem exec_encode_of_run {m : Nat} {stop : Option (ErrCode × Nat)} (hm : s.op0.toNat ≤ s.cfg.symDepth)
    (hrun : encodeRun s = { out := s.putCodes m s.bitbuf, count := s.codeStart m, stop := stop }) :
    ∃ t, exec .encode s = .next t
      ∧ Reports t (stopErr stop) (stopInfo stop) (zext32 (s.codeStart m)) 0 0 ∧ EncodedUpTo s t m
      ∧ SamePort s t ∧ SameFreq s t ∧ SameQueue s t ∧ SameTree s t ∧ SameTable s t ∧ SameSymbuf s t := by
  have hexec := exec_eq_nextOr .encode s s
  obtain ⟨hreports, hbits⟩ := exec_encode_of_length hm hexec
  obtain ⟨hport, htables⟩ := exec_encode_frame hexec
  rw [hrun] at hreports hbits
  exact ⟨_, hexec, hreports, encodedUpTo_of_putCodes hport hbits, hport, htables⟩

end

/-- Settles O45: the loop passes the symbols before its end, and there it is through, finds no codeword or finds no
room. -/
theorem encodeConcatenatesTheCodewords : Obligations.EncodeConcatenatesTheCodewords := by
  unfold Obligations.EncodeConcatenatesTheCodewords
  refine ⟨decode_encode .encode, fun s hp => ⟨encode_failsCleanly_of_long, fun hm hsome hfit => ?_,
    fun i hm hi hsome hfit => ?_⟩⟩
  · have hrun : encodeRun s = ⟨s.putCodes s.op0.toNat s.bitbuf, s.codeStart s.op0.toNat, none⟩ :=
      encodeLoop_add hsome hfit 0 s.bitbuf
    obtain ⟨t, hexec, ⟨hctl, herr, hinfo, hres0, hres1, hres2⟩, hencoded, frame⟩ := exec_encode_of_run hm hrun
    obtain ⟨-, -, -, -, -, -, -, -, hB, -⟩ := legal_bounds hp
    exact ⟨t, hexec, hctl, herr, hinfo, by rw [hres0, toNat_zext32 (by omega)], hres1, hres2, hencoded, frame⟩
  · obtain ⟨rem, hrem⟩ : ∃ rem, s.op0.toNat = i + (rem + 1) := ⟨s.op0.toNat - i - 1, by omega⟩
    have hpassed : encodeRun s = encodeLoop s (rem + 1) i (s.codeStart i) (s.putCodes i s.bitbuf) := by
      rw [encodeRun, hrem, encodeLoop_add hsome hfit]
    exact ⟨fun he => exec_encode_of_run hm (hpassed.trans (encodeLoop_of_none he ..)),
      fun e he hover => exec_encode_of_run hm (hpassed.trans (encodeLoop_of_overflow he hover ..))⟩

/-! ### What ENCODE depends on (43_encoder.md R96) -/

/-- Both buffers list every bit below `n`, with the same value. -/
def AgreeBelow (n : Nat) (out out' : Cells Bool) : Prop :=
  ∀ k, k < n → ∃ b, cellGet k out = some b ∧ cellGet k out' = some b

theorem AgreeBelow.putBits {pos : Nat} {out out' : Cells Bool} (h : AgreeBelow pos out out') (f : Nat → Bool) (n : Nat) :
    AgreeBelow (pos + n) (putBits pos f n out) (putBits pos f n out') := by
  intro k hk
  rw [cellGet_putBits, cellGet_putBits]
  by_cases hin : pos ≤ k ∧ k < pos + n
  · rw [if_pos hin, if_pos hin]
    exact ⟨_, rfl, rfl⟩
  · rw [if_neg hin, if_neg hin]
    exact h k (by omega)

/-- Loops over equal symbols and equal tables stop at one place with one count, and agree on the bits they count. -/
theorem encodeLoop_congr {s s' : State} {rem i pos : Nat} {out out' : Cells Bool} (hcfg : s.cfg = s'.cfg)
    (hcode : s.code = s'.code) (hsym : ∀ j, j < i + rem → s.symRead j = s'.symRead j) (h : AgreeBelow pos out out') :
    (encodeLoop s rem i pos out).stop = (encodeLoop s' rem i pos out').stop
    ∧ (encodeLoop s rem i pos out).count = (encodeLoop s' rem i pos out').count
    ∧ AgreeBelow (encodeLoop s rem i pos out).count (encodeLoop s rem i pos out).out
        (encodeLoop s' rem i pos out').out := by
  induction rem generalizing i pos out out' with
  | zero => exact ⟨rfl, rfl, h⟩
  | succ rem ih =>
    have hentry : s'.codeOf (s'.symRead i) = s.codeOf (s.symRead i) := by
      rw [State.codeOf, State.codeOf, hcode, hsym i (by omega)]
    cases he : s.codeOf (s.symRead i) with
    | none =>
      rw [encodeLoop_of_none he, encodeLoop_of_none (hentry.trans he)]
      exact ⟨rfl, rfl, h⟩
    | some e =>
      obtain hover | hfit := Nat.lt_or_ge s.cfg.bitDepth (pos + e.len)
      · rw [encodeLoop_of_overflow he hover, encodeLoop_of_overflow (hentry.trans he) (hcfg ▸ hover)]
        exact ⟨rfl, rfl, h⟩
      · rw [encodeLoop_of_fits he hfit, encodeLoop_of_fits (hentry.trans he) (hcfg ▸ hfit)]
        exact ih (fun j hj => hsym j (by omega)) (h.putBits _ _)

theorem toNat_zext32_le (v : Nat) : (zext32 v).toNat ≤ v := (BitVec.toNat_ofNat v 32).trans_le (Nat.mod_le v _)

/-- Settles O46: both commands fail alike on their length, or run loops that end alike. -/
theorem encodeDependsOnlyOnItsSymbolsAndTable : Obligations.EncodeDependsOnlyOnItsSymbolsAndTable := by
  unfold Obligations.EncodeDependsOnlyOnItsSymbolsAndTable
  intro s s' t t' hcfg _ hop hcode hsym ht ht'
  obtain hlong | hm := Nat.lt_or_ge s.cfg.symDepth s.op0.toNat
  · obtain ⟨u, hu, ⟨-, herr, hinfo, hres0, -⟩, -⟩ := encode_failsCleanly_of_long hlong
    obtain ⟨u', hu', ⟨-, herr', hinfo', hres0', -⟩, -⟩ := encode_failsCleanly_of_long (s := s') (hcfg ▸ hop ▸ hlong)
    obtain rfl : u = t := Host.Outcome.next.inj (hu.symm.trans ht)
    obtain rfl : u' = t' := Host.Outcome.next.inj (hu'.symm.trans ht')
    rw [herr, herr', hinfo, hinfo', hres0, hres0']
    exact ⟨rfl, rfl, rfl, fun k hk => absurd hk (Nat.not_lt_zero k)⟩
  · obtain ⟨⟨-, herr, hinfo, hres0, -⟩, hbits⟩ := exec_encode_of_length hm ht
    obtain ⟨⟨-, herr', hinfo', hres0', -⟩, hbits'⟩ := exec_encode_of_length (hcfg ▸ hop ▸ hm) ht'
    have hnone : AgreeBelow 0 s.bitbuf s'.bitbuf := fun k hk => absurd hk (Nat.not_lt_zero k)
    obtain ⟨hstop, hcount, hagree⟩ :=
      encodeLoop_congr hcfg hcode (fun j hj => hsym j (by rwa [Nat.zero_add] at hj)) hnone
    have hrun : encodeRun s' = encodeLoop s' s.op0.toNat 0 0 s'.bitbuf := by rw [encodeRun, hop]
    rw [herr, herr', hinfo, hinfo', hres0, hres0', hrun, ← hstop, ← hcount]
    refine ⟨rfl, rfl, rfl, fun k hk => ?_⟩
    obtain ⟨b, hb, hb'⟩ := hagree k (hk.trans_le (toNat_zext32_le _))
    rw [State.bitRead, State.bitRead, hbits, hbits', hrun, hb', encodeRun, hb, Option.getD_some, Option.getD_some]

end Sys2Proof.Machine

namespace Sys2Proof.Machine

/-! ### DECODE (44_decoder.md R97) -/

section
variable {s : State}

theorem decodeLoop_prologue (rem k cur start cnt : Nat) (out : Cells Nat) :
    decodeLoop (prologue s) rem k cur start cnt out = decodeLoop s rem k cur start cnt out := by
  induction rem generalizing k cur start cnt out with
  | zero => rfl
  | succ rem ih =>
    simp only [decodeLoop, ih]
    rfl

theorem decodeRun_prologue : decodeRun (prologue s) = decodeRun s := by
  unfold decodeRun
  rw [decodeLoop_prologue]
  rfl

theorem decodeBody_of_long (hk : s.cfg.bitDepth < s.op0.toNat) : decodeBody s = fail .badArg 0 s := if_pos hk

theorem decodeBody_of_no_tree (hk : s.op0.toNat ≤ s.cfg.bitDepth) (hv : s.treeValid = false) :
    decodeBody s = fail .noTree 0 s := by
  rw [decodeBody, if_neg (Nat.not_lt.2 hk), if_pos hv]

theorem decodeBody_of_tree (hk : s.op0.toNat ≤ s.cfg.bitDepth) (hv : s.treeValid = true) : decodeBody s =
    { st := { s with symbuf := (decodeRun s).out }.setRes (zext32 (decodeRun s).count) 0 0,
      err := stopErr (decodeRun s).stop, info := stopInfo (decodeRun s).stop } := by
  rw [decodeBody, if_neg (Nat.not_lt.2 hk), if_neg (by simp [hv]), ← decodeRun]
  dsimp only
  cases (decodeRun s).stop <;> rfl

theorem decode_failsCleanly_of_long (hk : s.cfg.bitDepth < s.op0.toNat) : FailsCleanly .decode s .badArg 0 :=
  failsCleanly_of_body (decodeBody_of_long (s := prologue s) hk)

theorem decode_failsCleanly_of_no_tree (hk : s.op0.toNat ≤ s.cfg.bitDepth) (hv : s.treeValid = false) :
    FailsCleanly .decode s .noTree 0 :=
  failsCleanly_of_body (decodeBody_of_no_tree (s := prologue s) hk hv)

/-- DECODE over a tree reports how its loop ended, and SYMBUF is what the loop left. -/
theorem exec_decode_of_tree {t : State} (hk : s.op0.toNat ≤ s.cfg.bitDepth) (hv : s.treeValid = true)
    (h : exec .decode s = .next t) :
    Reports t (stopErr (decodeRun s).stop) (stopInfo (decodeRun s).stop) (zext32 (decodeRun s).count) 0 0
    ∧ t.symbuf = (decodeRun s).out := by
  have ht := exec_eq_next.1 h
  rw [bodyOf, decodeBody_of_tree (s := prologue s) hk hv, decodeRun_prologue] at ht
  subst ht
  exact ⟨⟨rfl, rfl, rfl, rfl, rfl, rfl⟩, rfl⟩

/-- DECODE changes nothing but SYMBUF and the report. -/
theorem exec_decode_frame {t : State} (h : exec .decode s = .next t) :
    SamePort s t ∧ SameFreq s t ∧ SameQueue s t ∧ SameTree s t ∧ SameTable s t ∧ SameBitbuf s t := by
  have own := exec_ownTablesOnly h
  exact ⟨own.port, own.freq (by decide), own.queue (by decide), own.tree (by decide), own.table (by decide),
    sameBitbuf_of_eq own.port (own.bitbuf (by decide))⟩

/-- Whichever loop runs, it counts at most L symbols and leaves the entries it does not count. -/
theorem decodeRun_frame (s : State) : (decodeRun s).count ≤ s.cfg.symDepth
    ∧ ∀ j, (decodeRun s).count ≤ j → cellGet j (decodeRun s).out = cellGet j s.symbuf := by
  unfold decodeRun
  split
  · obtain ⟨-, hle, hframe⟩ := decodeLeafLoop_frame s.cfg.symDepth (s.node s.root).sym s.op0.toNat 0 0 s.symbuf
      (Nat.zero_le _)
    exact ⟨hle, fun j hj => hframe j (.inr hj)⟩
  · obtain ⟨-, hle, hframe⟩ := decodeLoop_frame s s.op0.toNat 0 s.root 0 0 s.symbuf (Nat.zero_le _)
    exact ⟨hle, fun j hj => hframe j (.inr hj)⟩

/-- Equal SYMBUF entries read alike under one port. -/
theorem symRead_congr {t : State} {i : Nat} (hport : SamePort s t) (h : cellGet i t.symbuf = cellGet i s.symbuf) :
    t.symRead i = s.symRead i := by
  obtain ⟨hcfg, -, -, -, -, -, -, -, hepoch, -⟩ := hport
  rw [State.symRead, State.symRead, h, hcfg, hepoch]

end

/-- Settles O47: the two checks come first, in this order. -/
theorem decodeChecksItsLengthThenTheTree : Obligations.DecodeChecksItsLengthThenTheTree := by
  unfold Obligations.DecodeChecksItsLengthThenTheTree
  exact fun _ => ⟨decode_failsCleanly_of_long, decode_failsCleanly_of_no_tree⟩

/-- From `s` to `t` RES0 counts at most L symbols, and the SYMBUF entries past them are as before. -/
structure WritesOnlyCounted (s t : State) : Prop where
  count_le : t.res0.toNat ≤ s.cfg.symDepth
  res1 : t.res1 = 0
  res2 : t.res2 = 0
  rest : ∀ i, t.res0.toNat ≤ i → t.symRead i = s.symRead i

theorem FailsCleanly.writesOnlyCounted {i : Instr} {s t : State} {e : ErrCode} {info : Word} (h : FailsCleanly i s e info)
    (hexec : exec i s = .next t) : WritesOnlyCounted s t := by
  obtain ⟨u, hu, ⟨-, -, -, hres0, hres1, hres2⟩, -, -, -, -, -, hsym, -⟩ := h
  obtain rfl : u = t := Host.Outcome.next.inj (hu.symm.trans hexec)
  exact ⟨hres0 ▸ Nat.zero_le _, hres1, hres2, fun i _ => hsym i⟩

/-- DECODE over a tree reports what its loop counts. -/
theorem exec_decode_of_tree_writesOnlyCounted {s t : State} (hp : s.cfg.legal = true) (hk : s.op0.toNat ≤ s.cfg.bitDepth)
    (hv : s.treeValid = true) (hexec : exec .decode s = .next t) : WritesOnlyCounted s t := by
  obtain ⟨⟨-, -, -, hres0, hres1, hres2⟩, hout⟩ := exec_decode_of_tree hk hv hexec
  obtain ⟨hle, hframe⟩ := decodeRun_frame s
  obtain ⟨-, -, -, -, -, hL, -⟩ := legal_bounds hp
  have hcount : t.res0.toNat = (decodeRun s).count := by rw [hres0, toNat_zext32 (by omega)]
  exact ⟨hcount.trans_le hle, hres1, hres2, fun i hi =>
    symRead_congr (exec_decode_frame hexec).1 (by rw [hout, hframe i (hcount.symm.trans_le hi)])⟩

/-- Settles O50: a check that fails writes nothing, and either loop writes only what it counts. -/
theorem decodeWritesOnlyTheSymbolsItCounts : Obligations.DecodeWritesOnlyTheSymbolsItCounts := by
  unfold Obligations.DecodeWritesOnlyTheSymbolsItCounts
  intro s hp
  have hexec := exec_eq_nextOr .decode s s
  suffices h : WritesOnlyCounted s (nextOr s (exec .decode s)) from
    ⟨_, hexec, h.count_le, h.res1, h.res2, h.rest, exec_decode_frame hexec⟩
  obtain hlong | hk := Nat.lt_or_ge s.cfg.bitDepth s.op0.toNat
  · exact (decode_failsCleanly_of_long hlong).writesOnlyCounted hexec
  · cases hv : s.treeValid with
    | false => exact (decode_failsCleanly_of_no_tree hk hv).writesOnlyCounted hexec
    | true => exact exec_decode_of_tree_writesOnlyCounted hp hk hv hexec

/-! ### The symbols DECODE writes (44_decoder.md R97) -/

/-- `out` after the symbols are written one after another from entry `pos` on. -/
def putSyms (pos : Nat) : List Nat → Cells Nat → Cells Nat
  | [], out => out
  | x :: xs, out => putSyms (pos + 1) xs (cellPut pos x out)

theorem cellGet_putSyms (pos j : Nat) (xs : List Nat) (out : Cells Nat) :
    cellGet j (putSyms pos xs out) = if pos ≤ j ∧ j < pos + xs.length then xs[j - pos]? else cellGet j out := by
  induction xs generalizing pos out with
  | nil => rw [putSyms, if_neg (by rw [List.length_nil]; omega)]
  | cons x xs ih =>
    rw [putSyms, ih, cellGet_cellPut, List.length_cons]
    obtain rfl | hne := eq_or_ne j pos
    · simp
    · by_cases hin : pos + 1 ≤ j ∧ j < pos + 1 + xs.length
      · obtain ⟨d, rfl⟩ := Nat.exists_eq_add_of_le hin.1
        rw [if_pos hin, if_pos (by omega), show pos + 1 + d - (pos + 1) = d by omega,
          show pos + 1 + d - pos = d + 1 by omega, List.getElem?_cons_succ]
      · rw [if_neg hin, if_neg hne, if_neg (by omega)]

section
variable {s : State}

/-- DECODE whose loop ends after writing the symbols `xs`. -/
theorem exec_decode_of_run {xs : List Nat} {stop : Option (ErrCode × Nat)} (hk : s.op0.toNat ≤ s.cfg.bitDepth)
    (hv : s.treeValid = true) (hrun : decodeRun s = { out := putSyms 0 xs s.symbuf, count := xs.length, stop := stop }) :
    ∃ t, exec .decode s = .next t ∧ Reports t (stopErr stop) (stopInfo stop) (zext32 xs.length) 0 0
      ∧ (∀ i, i < xs.length → xs[i]? = some (t.symRead i)) ∧ (∀ i, xs.length ≤ i → t.symRead i = s.symRead i)
      ∧ SamePort s t ∧ SameFreq s t ∧ SameQueue s t ∧ SameTree s t ∧ SameTable s t ∧ SameBitbuf s t := by
  have hexec := exec_eq_nextOr .decode s s
  obtain ⟨hreports, hout⟩ := exec_decode_of_tree hk hv hexec
  have frame := exec_decode_frame hexec
  rw [hrun] at hreports hout
  refine ⟨_, hexec, hreports, fun i hi => ?_, fun i hi => symRead_congr frame.1 ?_, frame⟩
  · rw [State.symRead, hout, cellGet_putSyms, if_pos (by omega), Nat.sub_zero, List.getElem?_eq_getElem hi,
      Option.getD_some]
  · rw [hout, cellGet_putSyms, if_neg (by omega)]

end

/-! ### DECODE of a one-leaf tree (44_decoder.md R97) -/

/-- The loop emits the sole symbol for each of the first `n` bits when there is room for them. -/
theorem decodeLeafLoop_add {depth n cnt : Nat} (hroom : cnt + n ≤ depth) (x rem k : Nat) (out : Cells Nat) :
    decodeLeafLoop depth x (n + rem) k cnt out
      = decodeLeafLoop depth x rem (k + n) (cnt + n) (putSyms cnt (List.replicate n x) out) := by
  induction n generalizing k cnt out with
  | zero => rw [Nat.zero_add]; rfl
  | succ n ih =>
    rw [Nat.add_right_comm, decodeLeafLoop, if_neg (by omega), ih (by omega), List.replicate_succ, putSyms,
      Nat.add_right_comm k, Nat.add_right_comm cnt]
    rfl

section
variable {s : State}

theorem decodeRun_of_leaf (hleaf : (s.node s.root).isLeaf = true) : decodeRun s =
    decodeLeafLoop s.cfg.symDepth (s.node s.root).sym s.op0.toNat 0 0 s.symbuf := if_pos hleaf

theorem decodeRun_of_leaf_fits (hleaf : (s.node s.root).isLeaf = true) (hk : s.op0.toNat ≤ s.cfg.symDepth) :
    decodeRun s = ⟨putSyms 0 (List.replicate s.op0.toNat (s.node s.root).sym) s.symbuf, s.op0.toNat, none⟩ := by
  have hloop := decodeLeafLoop_add ((Nat.zero_add _).trans_le hk) (s.node s.root).sym 0 0 s.symbuf
  rw [Nat.add_zero, Nat.zero_add, decodeLeafLoop] at hloop
  exact (decodeRun_of_leaf hleaf).trans hloop

theorem decodeRun_of_leaf_overflow (hleaf : (s.node s.root).isLeaf = true) (hk : s.cfg.symDepth < s.op0.toNat) :
    decodeRun s = ⟨putSyms 0 (List.replicate s.cfg.symDepth (s.node s.root).sym) s.symbuf, s.cfg.symDepth,
      some (.bufferOverflow, s.cfg.symDepth)⟩ := by
  obtain ⟨rem, hrem⟩ := Nat.exists_eq_add_of_lt hk
  rw [decodeRun_of_leaf hleaf, hrem, Nat.add_assoc, decodeLeafLoop_add (by omega), decodeLeafLoop, Nat.zero_add, if_pos rfl]

/-- DECODE whose loop ends after writing the sole symbol `n` times. -/
theorem exec_decode_of_leaf_run {n : Nat} {stop : Option (ErrCode × Nat)} (hk : s.op0.toNat ≤ s.cfg.bitDepth)
    (hv : s.treeValid = true)
    (hrun : decodeRun s = ⟨putSyms 0 (List.replicate n (s.node s.root).sym) s.symbuf, n, stop⟩) :
    ∃ t, exec .decode s = .next t ∧ Reports t (stopErr stop) (stopInfo stop) (zext32 n) 0 0
      ∧ (∀ i, i < n → t.symRead i = (s.node s.root).sym) ∧ (∀ i, n ≤ i → t.symRead i = s.symRead i)
      ∧ SamePort s t ∧ SameFreq s t ∧ SameQueue s t ∧ SameTree s t ∧ SameTable s t ∧ SameBitbuf s t := by
  obtain ⟨t, hexec, hreports, hsyms, hrest, frame⟩ :=
    exec_decode_of_run hk hv (hrun.trans (by rw [List.length_replicate]))
  rw [List.length_replicate] at hreports hsyms hrest
  refine ⟨t, hexec, hreports, fun i hi => ?_, hrest, frame⟩
  exact Option.some.inj ((hsyms i hi).symm.trans (List.getElem?_replicate_of_lt hi))

end

theorem zext32_toNat (w : Word) : zext32 w.toNat = w := BitVec.eq_of_toNat_eq (toNat_zext32 w.isLt)

/-- Settles O48: the loop writes the sole symbol for each bit, or until SYMBUF is full. -/
theorem decodeOfAOneLeafTreeEmitsOneSymbolPerBit : Obligations.DecodeOfAOneLeafTreeEmitsOneSymbolPerBit := by
  unfold Obligations.DecodeOfAOneLeafTreeEmitsOneSymbolPerBit
  intro s _ hv hleaf hk
  refine ⟨fun hfit => ?_, fun hover => exec_decode_of_leaf_run hk hv (decodeRun_of_leaf_overflow hleaf hover)⟩
  have h := exec_decode_of_leaf_run hk hv (decodeRun_of_leaf_fits hleaf hfit)
  rwa [zext32_toNat] at h

/-! ### The walk of DECODE (44_decoder.md R97) -/

section
variable {s : State} {n k cur start cnt : Nat} {e : Codeword}

/-- One bit of the walk, from node `cur` along the edge bit `k` names: on to an internal node, back to the root after a leaf's
symbol, or to its stop. -/
theorem decodeLoop_of_internal (hnext : (s.node (s.child cur (s.bitRead k))).isLeaf = false) (rem : Nat) (out : Cells Nat) :
    decodeLoop s (rem + 1) k cur start cnt out
      = decodeLoop s rem (k + 1) (s.child cur (s.bitRead k)) (if cur = s.root then k else start) cnt out :=
  if_neg (by simpa [State.child] using hnext)

theorem decodeLoop_of_leaf (hnext : (s.node (s.child cur (s.bitRead k))).isLeaf = true) (hroom : cnt ≠ s.cfg.symDepth)
    (rem : Nat) (out : Cells Nat) :
    decodeLoop s (rem + 1) k cur start cnt out
      = decodeLoop s rem (k + 1) s.root (if cur = s.root then k else start) (cnt + 1)
          (cellPut cnt (s.node (s.child cur (s.bitRead k))).sym out) :=
  (if_pos hnext).trans (if_neg hroom)

theorem decodeLoop_of_full (hnext : (s.node (s.child cur (s.bitRead k))).isLeaf = true) (hfull : cnt = s.cfg.symDepth)
    (rem : Nat) (out : Cells Nat) :
    decodeLoop s (rem + 1) k cur start cnt out = { out := out, count := cnt, stop := some (.bufferOverflow, k) } :=
  (if_pos hnext).trans (if_pos hfull)

/-- A walk at the root begins a codeword there, whatever codeword it was in before. -/
theorem decodeLoop_root (s : State) (rem k start cnt : Nat) (out : Cells Nat) :
    decodeLoop s rem k s.root start cnt out = decodeLoop s rem k s.root k cnt out := by
  cases rem <;> simp [decodeLoop]

/-- The first edges of a path through internal nodes are a path. -/
theorem exists_path_nodeAt {path d : Nat} (hinner : ∀ j, j < d → (s.node (s.nodeAt path j)).isLeaf = false) :
    ∃ e, s.Path e (s.nodeAt path d) := by
  induction d with
  | zero => exact ⟨_, .root⟩
  | succ d ih =>
    obtain ⟨e, above⟩ := ih fun j hj => hinner j (hj.trans d.lt_succ_self)
    exact ⟨_, above.step (path.testBit d) (hinner d d.lt_succ_self)⟩

theorem ArenaLaws.nodeAt_ne_root (h : ArenaLaws s n) {path d : Nat} (hd : d ≠ 0)
    (hinner : ∀ j, j < d → (s.node (s.nodeAt path j)).isLeaf = false) : s.nodeAt path d ≠ s.root := by
  obtain ⟨d, rfl⟩ := Nat.exists_eq_succ_of_ne_zero hd
  obtain ⟨e, above⟩ := exists_path_nodeAt fun j hj => hinner j (hj.trans d.lt_succ_self)
  exact h.child_ne_root above (hinner d d.lt_succ_self) _

/-- Bits that lead through internal nodes only move the walk, and it stays in the codeword it began at the root. -/
theorem ArenaLaws.decodeLoop_inside (h : ArenaLaws s n) {path d : Nat}
    (hbits : ∀ j, j < d → s.bitRead (k + j) = path.testBit j)
    (hinner : ∀ j, j ≤ d → (s.node (s.nodeAt path j)).isLeaf = false) (rem : Nat) (out : Cells Nat) :
    decodeLoop s (d + rem) k s.root k cnt out = decodeLoop s rem (k + d) (s.nodeAt path d) k cnt out := by
  induction d generalizing rem with
  | zero => rw [Nat.zero_add]; rfl
  | succ d ih =>
    have hnext : s.child (s.nodeAt path d) (s.bitRead (k + d)) = s.nodeAt path (d + 1) := by
      rw [hbits d d.lt_succ_self, nodeAt_succ]
    have hstart : (if s.nodeAt path d = s.root then k + d else k) = k := by
      obtain rfl | hd := eq_or_ne d 0
      · exact ite_self k
      · exact if_neg (h.nodeAt_ne_root hd fun j hj => hinner j (by omega))
    rw [Nat.add_right_comm, Nat.add_assoc, ih (fun j hj => hbits j (by omega)) (fun j hj => hinner j (by omega)),
      decodeLoop_of_internal (by rw [hnext]; exact hinner _ le_rfl), hnext, hstart, Nat.add_assoc]

/-- The walk along the codeword of `x` up to its last bit, which leads to the leaf of `x`. -/
theorem ArenaLaws.decodeLoop_to_last_bit (h : ArenaLaws s n) (hn : 2 ≤ n) {x : Nat} (he : s.treeCode x = some e)
    (hcode : s.holdsCode k e) (rem : Nat) (out : Cells Nat) : ∃ d cur, e.len = d + 1
      ∧ (s.node (s.child cur (s.bitRead (k + d)))).isLeaf = true ∧ (s.node (s.child cur (s.bitRead (k + d)))).sym = x
      ∧ decodeLoop s (e.len + rem) k s.root k cnt out = decodeLoop s (rem + 1) (k + d) cur k cnt out := by
  obtain ⟨i, hi, hsym, hisCode⟩ := h.treeCode_eq_some_iff.1 he
  have hp := (isCode_of_two_le hn).1 hisCode
  obtain ⟨d, hlen⟩ := Nat.exists_eq_add_of_le' (h.one_le_len hi hisCode)
  have hlast : s.child (s.nodeAt e.bits d) (s.bitRead (k + d)) = i := by
    rw [hcode d (by omega), ← nodeAt_succ, ← hlen, hp.nodeAt_len]
  refine ⟨d, s.nodeAt e.bits d, hlen, by rw [hlast, (h.leaf i hi).1], by rw [hlast, hsym], ?_⟩
  rw [hlen, Nat.add_right_comm, Nat.add_assoc]
  exact h.decodeLoop_inside (fun j hj => hcode j (by omega)) (fun j hj => hp.internal_before (by omega)) _ _

/-- A codeword with room for its symbol is read as that symbol. -/
theorem ArenaLaws.decodeLoop_codeword (h : ArenaLaws s n) (hn : 2 ≤ n) {x : Nat} (he : s.treeCode x = some e)
    (hcode : s.holdsCode k e) (hroom : cnt ≠ s.cfg.symDepth) (rem : Nat) (out : Cells Nat) :
    decodeLoop s (e.len + rem) k s.root k cnt out
      = decodeLoop s rem (k + e.len) s.root (k + e.len) (cnt + 1) (cellPut cnt x out) := by
  obtain ⟨d, cur, hlen, hleaf, hsym, hwalk⟩ := h.decodeLoop_to_last_bit hn he hcode rem out
  rw [hwalk, decodeLoop_of_leaf hleaf hroom, hsym, decodeLoop_root, hlen, Nat.add_assoc]

/-- A codeword with no room for its symbol stops the walk at its last bit. -/
theorem ArenaLaws.decodeLoop_codeword_overflow (h : ArenaLaws s n) (hn : 2 ≤ n) {x : Nat} (he : s.treeCode x = some e)
    (hcode : s.holdsCode k e) (hfull : cnt = s.cfg.symDepth) (rem : Nat) (out : Cells Nat) :
    decodeLoop s (e.len + rem) k s.root k cnt out
      = { out := out, count := cnt, stop := some (.bufferOverflow, k + e.len - 1) } := by
  obtain ⟨d, cur, hlen, hleaf, -, hwalk⟩ := h.decodeLoop_to_last_bit hn he hcode rem out
  rw [hwalk, decodeLoop_of_full hleaf hfull, hlen, ← Nat.add_assoc, Nat.add_sub_cancel]

/-! ### Streams of codewords (44_decoder.md R97, R98) -/

theorem streamLen_cons (x : Nat × Codeword) (xs : List (Nat × Codeword)) :
    streamLen (x :: xs) = x.2.len + streamLen xs := List.sum_cons

theorem streamLen_append_singleton (xs : List (Nat × Codeword)) (x : Nat × Codeword) :
    streamLen (xs ++ [x]) = streamLen xs + x.2.len := by
  rw [streamLen, List.map_append, List.sum_append, List.map_singleton, List.sum_singleton, streamLen]

theorem holdsStream_append_singleton {xs : List (Nat × Codeword)} {x : Nat} : s.holdsStream k (xs ++ [(x, e)])
    ↔ s.holdsStream k xs ∧ s.treeCode x = some e ∧ s.holdsCode (k + streamLen xs) e := by
  induction xs generalizing k with
  | nil => simp [State.holdsStream, streamLen]
  | cons d xs ih =>
    rw [List.cons_append, State.holdsStream, State.holdsStream, ih, streamLen_cons, Nat.add_assoc, and_assoc, and_assoc]

/-- The walk reads a stream with room for all its symbols as those symbols. -/
theorem ArenaLaws.decodeLoop_stream (h : ArenaLaws s n) (hn : 2 ≤ n) {xs : List (Nat × Codeword)}
    (hstream : s.holdsStream k xs) (hroom : cnt + xs.length ≤ s.cfg.symDepth) (rem : Nat) (out : Cells Nat) :
    decodeLoop s (streamLen xs + rem) k s.root k cnt out
      = decodeLoop s rem (k + streamLen xs) s.root (k + streamLen xs) (cnt + xs.length)
          (putSyms cnt (xs.map Prod.fst) out) := by
  induction xs generalizing k cnt out with
  | nil => simp [streamLen, putSyms]
  | cons d xs ih =>
    obtain ⟨he, hcode, hrest⟩ := hstream
    rw [List.length_cons] at hroom ⊢
    rw [streamLen_cons, Nat.add_assoc, h.decodeLoop_codeword hn he hcode (by omega), ih hrest (by omega), List.map_cons,
      putSyms, Nat.add_assoc k, Nat.add_assoc cnt, Nat.add_comm 1]

theorem ArenaLaws.root_isLeaf_iff (h : ArenaLaws s n) : (s.node s.root).isLeaf = true ↔ n = 1 := by
  have := h.pos
  have := h.root
  rw [h.isLeaf_iff (by omega)]
  omega

/-- With two leaves or more DECODE walks from the root, first through the codewords of a stream that fits. -/
theorem ArenaLaws.decodeRun_stream (h : ArenaLaws s n) (hn : 2 ≤ n) {xs : List (Nat × Codeword)} {rem : Nat}
    (hstream : s.holdsStream 0 xs) (hroom : xs.length ≤ s.cfg.symDepth) (hbits : s.op0.toNat = streamLen xs + rem) :
    decodeRun s = decodeLoop s rem (streamLen xs) s.root (streamLen xs) xs.length
      (putSyms 0 (xs.map Prod.fst) s.symbuf) := by
  have hinner : ¬ (s.node s.root).isLeaf = true := fun hleaf => by
    have := h.root_isLeaf_iff.1 hleaf
    omega
  rw [decodeRun, if_neg hinner, hbits, h.decodeLoop_stream hn hstream (by omega), Nat.zero_add, Nat.zero_add]

/-- A stream that ends with a codeword. -/
theorem ArenaLaws.decodeRun_complete (h : ArenaLaws s n) (hn : 2 ≤ n) {xs : List (Nat × Codeword)}
    (hstream : s.holdsStream 0 xs) (hroom : xs.length ≤ s.cfg.symDepth) (hbits : s.op0.toNat = streamLen xs) :
    decodeRun s = ⟨putSyms 0 (xs.map Prod.fst) s.symbuf, (xs.map Prod.fst).length, none⟩ := by
  rw [h.decodeRun_stream hn hstream hroom (rem := 0) hbits, decodeLoop, if_pos rfl, List.length_map]

/-- A stream that ends inside a codeword. -/
theorem ArenaLaws.decodeRun_truncated (h : ArenaLaws s n) (hn : 2 ≤ n) {xs : List (Nat × Codeword)} {path r : Nat}
    (hstream : s.holdsStream 0 xs) (hroom : xs.length ≤ s.cfg.symDepth) (hr : 1 ≤ r)
    (hbits : s.op0.toNat = streamLen xs + r) (hpath : ∀ j, j < r → s.bitRead (streamLen xs + j) = path.testBit j)
    (hinner : ∀ d, d ≤ r → (s.node (s.nodeAt path d)).isLeaf = false) :
    decodeRun s = ⟨putSyms 0 (xs.map Prod.fst) s.symbuf, (xs.map Prod.fst).length,
      some (.truncatedStream, streamLen xs)⟩ := by
  have hne := h.nodeAt_ne_root (Nat.one_le_iff_ne_zero.1 hr) fun j hj => hinner j hj.le
  rw [h.decodeRun_stream hn hstream hroom hbits, ← Nat.add_zero r, h.decodeLoop_inside hpath hinner, decodeLoop, if_neg hne,
    List.length_map]

/-- A stream of L codewords and one more. -/
theorem ArenaLaws.decodeRun_overflow (h : ArenaLaws s n) (hn : 2 ≤ n) {xs : List (Nat × Codeword)} {x : Nat}
    (hstream : s.holdsStream 0 (xs ++ [(x, e)])) (hfull : xs.length = s.cfg.symDepth)
    (hbits : streamLen (xs ++ [(x, e)]) ≤ s.op0.toNat) :
    decodeRun s = ⟨putSyms 0 (xs.map Prod.fst) s.symbuf, (xs.map Prod.fst).length,
      some (.bufferOverflow, streamLen (xs ++ [(x, e)]) - 1)⟩ := by
  obtain ⟨hstream, he, hcode⟩ := holdsStream_append_singleton.1 hstream
  rw [Nat.zero_add] at hcode
  rw [streamLen_append_singleton] at hbits ⊢
  obtain ⟨rem, hrem⟩ := Nat.exists_eq_add_of_le hbits
  rw [h.decodeRun_stream hn hstream hfull.le (hrem.trans (Nat.add_assoc ..)),
    h.decodeLoop_codeword_overflow hn he hcode hfull, List.length_map]

end

/-- Settles O49: the walk reads the codewords that fit, and what follows them ends it. -/
theorem decodeReadsEachCodewordAsItsSymbol : Obligations.DecodeReadsEachCodewordAsItsSymbol := by
  unfold Obligations.DecodeReadsEachCodewordAsItsSymbol
  intro s xs hinv hv hn hstream hk
  have laws := treeOk_of_valid ((inv_iff s).1 hinv).tree hv
  refine ⟨fun hroom hbits => ?_, fun path r hroom hr hbits hpath hinner => ?_, fun hlen hbits => ?_⟩
  · have h := exec_decode_of_run hk hv (laws.decodeRun_complete hn hstream hroom hbits)
    rwa [List.length_map] at h
  · have h := exec_decode_of_run hk hv (laws.decodeRun_truncated hn hstream hroom hr hbits hpath hinner)
    rwa [List.length_map] at h
  · obtain rfl | ⟨ys, ⟨x, e⟩, rfl⟩ := xs.eq_nil_or_concat'
    · cases hlen
    · rw [List.length_append, List.length_singleton, Nat.add_right_cancel_iff] at hlen
      obtain ⟨t, hexec, hreports, hsyms, hrest⟩ := exec_decode_of_run hk hv (laws.decodeRun_overflow hn hstream hlen hbits)
      rw [List.length_map, hlen] at hreports hsyms hrest
      refine ⟨t, hexec, hreports, fun i hi => ?_, hrest⟩
      rw [List.map_append, List.getElem?_append_left (by rw [List.length_map]; omega), hsyms i hi]

/-! ### ENCODE, then DECODE (44_decoder.md R98) -/

section
variable {s : State}

/-- ENCODE's loop that nothing stopped early found a codeword and room for every symbol. -/
theorem encodeRun_fits (hstop : (encodeRun s).stop = none) {i : Nat} (hi : i ≤ s.op0.toNat) :
    (∀ j, j < i → (s.codeOf (s.symRead j)).isSome = true) ∧ s.codeStart i ≤ s.cfg.bitDepth := by
  induction i with
  | zero => exact ⟨fun j hj => absurd hj j.not_lt_zero, Nat.zero_le _⟩
  | succ i ih =>
    obtain ⟨hsome, hfit⟩ := ih (Nat.le_of_succ_le hi)
    obtain ⟨rem, hrem⟩ := Nat.exists_eq_add_of_lt hi
    rw [encodeRun, hrem, Nat.add_assoc, encodeLoop_add hsome hfit] at hstop
    cases he : s.codeOf (s.symRead i) with
    | none =>
      rw [encodeLoop_of_none he] at hstop
      cases hstop
    | some e =>
      obtain hover | hroom := Nat.lt_or_ge s.cfg.bitDepth (s.codeStart i + e.len)
      · rw [encodeLoop_of_overflow he hover] at hstop
        cases hstop
      · refine ⟨fun j hj => ?_, (codeStart_succ_of_some he).trans_le hroom⟩
        obtain hlt | rfl := (Nat.le_of_lt_succ hj).lt_or_eq
        · exact hsome j hlt
        · rw [he, Option.isSome_some]

theorem stop_eq_none_of_ok (h : stopErr (encodeRun s).stop = .ok) : (encodeRun s).stop = none := by
  cases hstop : (encodeRun s).stop with
  | none => rfl
  | some stop =>
    rw [hstop] at h
    obtain hcode | hcode := encodeLoop_stop s _ _ _ _ hstop <;> cases hcode.symm.trans h

/-- An ENCODE that succeeds had symbols with codewords only, and all of them fit. -/
theorem encode_ok_fits {t : State} (hexec : exec .encode s = .next t) (hok : t.err = .ok) :
    s.op0.toNat ≤ s.cfg.symDepth ∧ (∀ j, j < s.op0.toNat → (s.codeOf (s.symRead j)).isSome = true)
    ∧ s.codeStart s.op0.toNat ≤ s.cfg.bitDepth := by
  obtain hlong | hm := Nat.lt_or_ge s.cfg.symDepth s.op0.toNat
  · obtain ⟨u, hu, ⟨-, herr, -⟩, -⟩ := encode_failsCleanly_of_long hlong
    obtain rfl : u = t := Host.Outcome.next.inj (hu.symm.trans hexec)
    cases herr.symm.trans hok
  · obtain ⟨⟨-, herr, -⟩, -⟩ := exec_encode_of_length hm hexec
    exact ⟨hm, encodeRun_fits (stop_eq_none_of_ok (herr.symm.trans hok)) le_rfl⟩

/-- The symbols SYMBUF[0 .. m-1] with their codewords. -/
def State.symStream (s : State) : Nat → List (Nat × Codeword)
  | 0 => []
  | m + 1 => s.symStream m ++ [(s.symRead m, s.codeEntry (s.symRead m))]

theorem length_symStream (s : State) (m : Nat) : (s.symStream m).length = m := by
  induction m with
  | zero => rfl
  | succ m ih => rw [State.symStream, List.length_append, ih, List.length_singleton]

theorem symStream_getElem? (s : State) {m i : Nat} (hi : i < m) :
    ((s.symStream m).map Prod.fst)[i]? = some (s.symRead i) := by
  induction m with
  | zero => cases hi
  | succ m ih =>
    have hlen : ((s.symStream m).map Prod.fst).length = m := by rw [List.length_map, length_symStream]
    rw [State.symStream, List.map_append]
    obtain hlt | rfl := (Nat.le_of_lt_succ hi).lt_or_eq
    · rw [List.getElem?_append_left (hlen.symm ▸ hlt), ih hlt]
    · rw [List.getElem?_append_right hlen.le, hlen, Nat.sub_self]
      rfl

/-- The stream takes the bits up to the start of the codeword after it. -/
theorem streamLen_symStream (s : State) (m : Nat) : streamLen (s.symStream m) = s.codeStart m := by
  induction m with
  | zero => rfl
  | succ m ih =>
    rw [State.symStream, streamLen_append_singleton, ih, State.codeStart, State.codeEntry]
    cases s.codeOf (s.symRead m) <;> rfl

/-- What ENCODE wrote is the stream of its symbols, for a tree whose codewords are those of the table. -/
theorem EncodedUpTo.holdsStream {v : State} {m : Nat} (h : EncodedUpTo s v m) (htree : ∀ x, v.treeCode x = s.codeOf x)
    (hsome : ∀ j, j < m → (s.codeOf (s.symRead j)).isSome = true) {j : Nat} (hj : j ≤ m) :
    v.holdsStream 0 (s.symStream j) := by
  obtain ⟨hwritten, -⟩ := h
  induction j with
  | zero => trivial
  | succ j ih =>
    obtain ⟨e, he⟩ := Option.isSome_iff_exists.1 (hsome j hj)
    have hentry : s.codeEntry (s.symRead j) = e := by rw [State.codeEntry, he, Option.getD_some]
    rw [State.symStream, hentry, holdsStream_append_singleton, streamLen_symStream, Nat.zero_add, htree]
    exact ⟨ih (Nat.le_of_succ_le hj), he, hwritten j hj e he⟩

theorem codeStart_of_len_one {m : Nat} (h : ∀ j, j < m → ∃ e, s.codeOf (s.symRead j) = some e ∧ e.len = 1) :
    s.codeStart m = m := by
  induction m with
  | zero => rfl
  | succ m ih =>
    obtain ⟨e, he, hlen⟩ := h m m.lt_succ_self
    rw [codeStart_succ_of_some he, ih fun j hj => h j (hj.trans m.lt_succ_self), hlen]

end

theorem Invariant.exec {i : Instr} {s t : State} (inv : Invariant s) (h : exec i s = .next t) : Invariant t := by
  obtain ⟨hfreq, hqueue, htree, htable⟩ := UnitsOk.exec ⟨inv.freq, inv.queue, inv.tree, inv.table⟩ h
  obtain ⟨hcfg, -⟩ := (exec_ownTablesOnly h).port
  refine ⟨by rw [hcfg, inv.legal], hfreq, hqueue, htree, htable, exec_memory_wf inv.tree inv.memory h, ctlOk_of_idle ?_⟩
  rw [exec_eq_next.1 h, epilogue_ctl]

theorem Invariant.withArg0 {s : State} (inv : Invariant s) (hidle : s.ctl = .idle) (w : Word) :
    Invariant { s with arg0 := w } :=
  { inv with ctl := ctlOk_of_idle hidle }

/-- `v` is ready for DECODE of what an ENCODE from `s` that succeeded wrote. -/
structure EncodedFrom (s v : State) : Prop where
  inv : Invariant v
  valid : v.treeValid = true
  treeCode : ∀ x, v.treeCode x = s.codeOf x
  sym : SameSymbuf s v
  short : s.op0.toNat ≤ v.cfg.symDepth
  present : ∀ j, j < s.op0.toNat → (s.codeOf (s.symRead j)).isSome = true
  bits : v.op0.toNat = s.codeStart s.op0.toNat
  fits : v.op0.toNat ≤ v.cfg.bitDepth
  encoded : EncodedUpTo s v s.op0.toNat

theorem encodedFrom_of_encode_ok {s t : State} (inv : Invariant s) (htable : s.tableValid = true)
    (hexec : exec .encode s = .next t) (hok : t.err = .ok) : EncodedFrom s { t with arg0 := t.res0 } := by
  obtain ⟨hm, hsome, hfit⟩ := encode_ok_fits hexec hok
  obtain ⟨-, hencode⟩ := encodeConcatenatesTheCodewords
  obtain ⟨-, hencodeOk, -⟩ := hencode s inv.legal
  obtain ⟨u, hu, hctl, -, -, hres0, -, -, hencoded, ⟨hcfg, -⟩, -, -, ⟨hnodes, hroot, -, hvalid⟩, -, hsym⟩ :=
    hencodeOk hm hsome hfit
  obtain rfl : u = t := Host.Outcome.next.inj (hu.symm.trans hexec)
  obtain ⟨hv, hcode⟩ := inv.table_of_valid htable
  have hbits : ({ u with arg0 := u.res0 } : State).op0.toNat = s.codeStart s.op0.toNat := by rw [State.op0, hctl, hres0]
  exact
    { inv := (inv.exec hexec).withArg0 hctl u.res0
      valid := hvalid.trans hv
      treeCode := fun x => by rw [State.treeCode, hnodes, hroot, ← hcode, State.codeOf]
      sym := hsym
      short := hcfg ▸ hm
      present := hsome
      bits := hbits
      fits := hbits.trans_le (hcfg ▸ hfit)
      encoded := hencoded }

/-- With two leaves or more DECODE reads the stream of the symbols encoded. -/
theorem EncodedFrom.decode_stream {s v : State} (h : EncodedFrom s v) (hn : 2 ≤ v.leafCount) :
    ∃ u, exec .decode v = .next u ∧ Reports u .ok 0 s.op0 0 0 ∧ ∀ i, u.symRead i = s.symRead i := by
  have hstream := h.encoded.holdsStream h.treeCode h.present le_rfl
  have hlen := length_symStream s s.op0.toNat
  obtain ⟨u, hu, hreports, hsyms, hrest, -⟩ :=
    (decodeReadsEachCodewordAsItsSymbol v _ ((inv_iff v).2 h.inv) h.valid hn hstream h.fits).1
      (hlen.trans_le h.short) (h.bits.trans (streamLen_symStream s _).symm)
  rw [hlen, zext32_toNat] at hreports
  rw [hlen] at hsyms hrest
  refine ⟨u, hu, hreports, fun i => ?_⟩
  obtain hi | hi := Nat.lt_or_ge i s.op0.toNat
  · exact Option.some.inj ((hsyms i hi).symm.trans (symStream_getElem? s hi))
  · exact (hrest i hi).trans (h.sym i)

/-- With one leaf every symbol encoded is the sole symbol, and took one bit. -/
theorem EncodedFrom.decode_one_leaf {s v : State} (h : EncodedFrom s v) (hone : v.leafCount = 1) :
    ∃ u, exec .decode v = .next u ∧ Reports u .ok 0 s.op0 0 0 ∧ ∀ i, u.symRead i = s.symRead i := by
  have laws := treeOk_of_valid h.inv.tree h.valid
  have hleaf := laws.root_isLeaf_iff.2 hone
  rw [hone] at laws
  have hroot : v.root = 0 := laws.root
  have hentry : ∀ j, j < s.op0.toNat → (v.node v.root).sym = s.symRead j
      ∧ ∃ e, s.codeOf (s.symRead j) = some e ∧ e.len = 1 := fun j hj => by
    obtain ⟨e, he⟩ := Option.isSome_iff_exists.1 (h.present j hj)
    obtain ⟨i, hi, hsym, hcode⟩ := laws.treeCode_eq_some_iff.1 ((h.treeCode _).trans he)
    rw [isCode_one] at hcode
    exact ⟨by rw [hroot, ← hsym, Nat.lt_one_iff.1 hi], e, he, by rw [hcode]⟩
  have hbits : v.op0.toNat = s.op0.toNat := h.bits.trans (codeStart_of_len_one fun j hj => (hentry j hj).2)
  obtain ⟨u, hu, hreports, hsyms, hrest, -⟩ :=
    (decodeOfAOneLeafTreeEmitsOneSymbolPerBit v h.inv.legal h.valid hleaf h.fits).1 (hbits.trans_le h.short)
  rw [BitVec.eq_of_toNat_eq hbits] at hreports
  rw [hbits] at hsyms hrest
  refine ⟨u, hu, hreports, fun i => ?_⟩
  obtain hi | hi := Nat.lt_or_ge i s.op0.toNat
  · exact (hsyms i hi).trans (hentry i hi).1
  · exact (hrest i hi).trans (h.sym i)

/-- Settles O51: BITBUF holds the stream of the symbols encoded, one bit for each when the tree has one leaf. -/
theorem decodeOfEncodeGivesTheSymbolsBack : Obligations.DecodeOfEncodeGivesTheSymbolsBack := by
  unfold Obligations.DecodeOfEncodeGivesTheSymbolsBack
  intro s t hinv htable hexec hok
  have h := encodedFrom_of_encode_ok ((inv_iff s).1 hinv) htable hexec hok
  obtain hone | hn := (treeOk_of_valid h.inv.tree h.valid).pos.eq_or_lt
  · exact h.decode_one_leaf hone.symm
  · exact h.decode_stream hn

end Sys2Proof.Machine

namespace Sys2Proof.Machine

/-! ### The control commands (45_control.md R99, R100) -/

/-- NOP changes nothing but the report. -/
theorem exec_nop_frame {s t : State} (h : exec .nop s = .next t) : SameTables s t := by
  have own := exec_ownTablesOnly h
  exact ⟨own.port, own.freq (by decide), own.queue (by decide), own.tree (by decide), own.table (by decide),
    sameSymbuf_of_eq own.port (own.symbuf (by decide)), sameBitbuf_of_eq own.port (own.bitbuf (by decide))⟩

/-- Settles O26: its pseudocode is `done`, so only prologue and epilogue write, and what they write is the report. -/
theorem nopOnlyClearsTheReport : Obligations.NopOnlyClearsTheReport := by
  unfold Obligations.NopOnlyClearsTheReport
  refine ⟨decode_encode .nop, fun s => ?_⟩
  have hexec : exec .nop s = .next (epilogue (done (prologue s))) := exec_eq_next.2 rfl
  exact ⟨_, hexec, ⟨rfl, rfl, rfl, rfl, rfl, rfl⟩, exec_nop_frame hexec⟩

/-- CLEAR leaves the port and both buffers. -/
theorem exec_clear_frame {s t : State} (h : exec .clear s = .next t) :
    SamePort s t ∧ SameSymbuf s t ∧ SameBitbuf s t := by
  have own := exec_ownTablesOnly h
  exact ⟨own.port, sameSymbuf_of_eq own.port (own.symbuf (by decide)), sameBitbuf_of_eq own.port (own.bitbuf (by decide))⟩

theorem buildTree_failsCleanly_of_none {s : State} (hn : s.freqCount = 0) : FailsCleanly .buildTree s .emptyAlphabet 0 :=
  failsCleanly_of_body (buildTreeBody_of_none (s := prologue s) hn)

theorem buildCodeTable_failsCleanly_of_no_tree {s : State} (hv : s.treeValid = false) :
    FailsCleanly .buildCodeTable s .noTree 0 :=
  failsCleanly_of_body (buildCodeTableBody_of_none (s := prologue s) hv)

/-- Settles O27: its pseudocode empties the units and writes nothing else, and the three later commands fail at the check
of FREQ_COUNT or of TREE_VALID. -/
theorem clearEmptiesTheUnitsAndKeepsTheBuffers : Obligations.ClearEmptiesTheUnitsAndKeepsTheBuffers := by
  unfold Obligations.ClearEmptiesTheUnitsAndKeepsTheBuffers
  refine ⟨decode_encode .clear, fun s => ?_⟩
  have hexec : exec .clear s = .next (epilogue (clearBody (prologue s))) := exec_eq_next.2 rfl
  obtain ⟨hport, hsym, hbit⟩ := exec_clear_frame hexec
  exact ⟨_, hexec, ⟨rfl, rfl, rfl, rfl, rfl, rfl⟩,
    fun _ => ⟨rfl, rfl⟩, rfl, rfl, fun _ => rfl, rfl, rfl, rfl, fun _ => rfl, rfl,
    hport, hsym, hbit,
    buildTree_failsCleanly_of_none rfl, buildCodeTable_failsCleanly_of_no_tree rfl,
    fun hk => decode_failsCleanly_of_no_tree hk rfl⟩

end Sys2Proof.Machine

namespace Sys2Proof.Machine

/-! ### What a failed command leaves (60_exceptions.md R104, R105) -/

/-- The errors R105 lets a command end with after part of its effect. -/
def partialErrors : Instr → List ErrCode
  | .encode => [.unknownSymbol, .bufferOverflow]
  | .decode => [.bufferOverflow, .truncatedStream]
  | _ => []

theorem eq_encode_or_decode_of_mem_partialErrors {i : Instr} {e : ErrCode} (h : e ∈ partialErrors i) :
    (i = .encode ∧ e ∈ [ErrCode.unknownSymbol, .bufferOverflow])
    ∨ (i = .decode ∧ e ∈ [ErrCode.bufferOverflow, .truncatedStream]) := by
  cases i with
  | encode => exact .inl ⟨rfl, h⟩
  | decode => exact .inr ⟨rfl, h⟩
  | _ => cases h

/-- Pseudocode run from `s` that ends with a code outside `codes` is a `fail` on `s` itself: a check before any effect. -/
def CmdEnd.FailsAtOnceUnless (codes : List ErrCode) (s : State) (r : CmdEnd) : Prop :=
  r.err ∉ codes → r = fail r.err r.info s

section
variable {codes : List ErrCode} {s : State} {r : CmdEnd}

theorem failsAtOnceUnless_of_mem (h : r.err ∈ codes) : r.FailsAtOnceUnless codes s := fun hn => absurd h hn

/-- A check before the rest of the pseudocode. -/
theorem failsAtOnceUnless_check {e : ErrCode} {info : Word} {p : Prop} [Decidable p] (h : r.FailsAtOnceUnless codes s) :
    (if p then fail e info s else r).FailsAtOnceUnless codes s := by
  split
  · exact fun _ => rfl
  · exact h

theorem failsAtOnceUnless_done {s' : State} (errors : List ErrCode) : (done s').FailsAtOnceUnless (.ok :: errors) s :=
  failsAtOnceUnless_of_mem List.mem_cons_self

end

/-- A loop ends with OK or with the error that stopped it. -/
theorem stopErr_mem {errors : List ErrCode} {stop : Option (ErrCode × Nat)}
    (h : ∀ e j, stop = some (e, j) → e ∈ errors) : stopErr stop ∈ .ok :: errors := by
  cases stop with
  | none => exact List.mem_cons_self
  | some x => exact List.mem_cons_of_mem _ (h x.1 x.2 rfl)

theorem encodeRun_stop_mem (s : State) : stopErr (encodeRun s).stop ∈ .ok :: partialErrors .encode := by
  refine stopErr_mem fun e j hstop => ?_
  obtain rfl | rfl := encodeLoop_stop _ _ _ _ _ hstop <;> decide

/-- Whichever loop DECODE runs, its early stop is one of the two data errors. -/
theorem decodeRun_stop_mem (s : State) : stopErr (decodeRun s).stop ∈ .ok :: partialErrors .decode := by
  refine stopErr_mem fun e j hstop => ?_
  unfold decodeRun at hstop
  split at hstop
  · obtain rfl := decodeLeafLoop_stop _ _ _ _ _ _ hstop
    decide
  · obtain rfl | rfl := decodeLoop_stop _ _ _ _ _ _ _ hstop <;> decide

theorem encodeBody_failsAtOnce (s : State) : (encodeBody s).FailsAtOnceUnless (.ok :: partialErrors .encode) s := by
  obtain hlong | hm := Nat.lt_or_ge s.cfg.symDepth s.op0.toNat
  · rw [encodeBody_of_long hlong]
    exact fun _ => rfl
  · rw [encodeBody_of_length hm]
    exact failsAtOnceUnless_of_mem (encodeRun_stop_mem s)

theorem decodeBody_failsAtOnce (s : State) : (decodeBody s).FailsAtOnceUnless (.ok :: partialErrors .decode) s := by
  obtain hlong | hk := Nat.lt_or_ge s.cfg.bitDepth s.op0.toNat
  · rw [decodeBody_of_long hlong]
    exact fun _ => rfl
  · cases hv : s.treeValid with
    | false =>
      rw [decodeBody_of_no_tree hk hv]
      exact fun _ => rfl
    | true =>
      rw [decodeBody_of_tree hk hv]
      exact failsAtOnceUnless_of_mem (decodeRun_stop_mem s)

/-- Every command makes all its checks before any effect, but for the partial effects of R105. -/
theorem bodyOf_failsAtOnce (i : Instr) (s : State) : (bodyOf i s).FailsAtOnceUnless (.ok :: partialErrors i) s := by
  cases i with
  | nop | clear | freqClear | pqClear => exact failsAtOnceUnless_done _
  | freqUnset | freqGet | buildTree | nodeRead | buildCodeTable =>
    exact failsAtOnceUnless_check (failsAtOnceUnless_done _)
  | freqSet | codeRead => exact failsAtOnceUnless_check (failsAtOnceUnless_check (failsAtOnceUnless_done _))
  | pqInsert =>
    exact failsAtOnceUnless_check (failsAtOnceUnless_check (failsAtOnceUnless_check (failsAtOnceUnless_done _)))
  | pqExtractMin =>
    rw [bodyOf, pqExtractMinBody]
    split
    · exact fun _ => rfl
    · exact failsAtOnceUnless_done _
  | encode => exact encodeBody_failsAtOnce s
  | decode => exact decodeBody_failsAtOnce s

section
variable {i : Instr} {s t : State}

theorem FailsCleanly.sameTables {e : ErrCode} {info : Word} (h : FailsCleanly i s e info)
    (hexec : exec i s = .next t) : SameTables s t := by
  obtain ⟨u, hu, -, hsame⟩ := h
  obtain rfl : u = t := Host.Outcome.next.inj (hu.symm.trans hexec)
  exact hsame

theorem exec_ctl (hexec : exec i s = .next t) : t.ctl = .idle := by
  rw [exec_eq_next.1 hexec, epilogue_ctl]

/-- A failed command changed nothing, or is ENCODE or DECODE ending with an error that R105 names. -/
theorem exec_error_cases (hexec : exec i s = .next t) (herr : t.err ≠ .ok) :
    SameTables s t ∨ (i = .encode ∧ t.err ∈ [ErrCode.unknownSymbol, .bufferOverflow])
    ∨ (i = .decode ∧ t.err ∈ [ErrCode.bufferOverflow, .truncatedStream]) := by
  have hend : (bodyOf i (prologue s)).err = t.err := by rw [exec_eq_next.1 hexec, epilogue_err]
  by_cases hmem : t.err ∈ partialErrors i
  · exact .inr (eq_encode_or_decode_of_mem_partialErrors hmem)
  · have hnot : (bodyOf i (prologue s)).err ∉ .ok :: partialErrors i := by
      rw [hend, List.mem_cons, not_or]
      exact ⟨herr, hmem⟩
    exact .inl ((failsCleanly_of_body (bodyOf_failsAtOnce i (prologue s) hnot)).sameTables hexec)

/-- ENCODE leaves the bits it does not count, on an error as on success (R95). -/
theorem exec_encode_bitRead_of_le (hp : s.cfg.legal = true) (hexec : exec .encode s = .next t) {k : Nat}
    (hk : t.res0.toNat ≤ k) : t.bitRead k = s.bitRead k := by
  obtain hlong | hm := Nat.lt_or_ge s.cfg.symDepth s.op0.toNat
  · obtain ⟨-, -, -, -, -, -, hbits⟩ := (encode_failsCleanly_of_long hlong).sameTables hexec
    exact hbits k
  · obtain ⟨⟨-, -, -, hres0, -⟩, hout⟩ := exec_encode_of_length hm hexec
    obtain ⟨⟨-, -, -, -, -, -, -, -, hepoch, -⟩, -⟩ := exec_encode_frame hexec
    obtain ⟨-, -, -, -, -, -, -, -, hB, -⟩ := legal_bounds hp
    have hcount : (encodeRun s).count ≤ s.cfg.bitDepth := (encodeLoop_count s _ 0 0 s.bitbuf (Nat.zero_le _)).2
    rw [hres0, toNat_zext32 (by omega)] at hk
    have hbit : cellGet k (encodeRun s).out = cellGet k s.bitbuf :=
      encodeLoop_frame s _ 0 0 k s.bitbuf (Nat.zero_le _) (.inr hk)
    rw [State.bitRead, State.bitRead, hout, hbit, hepoch]

/-- DECODE leaves the entries it does not count, on an error as on success (R97). -/
theorem exec_decode_symRead_of_le (hp : s.cfg.legal = true) (hexec : exec .decode s = .next t) {k : Nat}
    (hk : t.res0.toNat ≤ k) : t.symRead k = s.symRead k := by
  obtain ⟨u, hu, -, -, -, hrest, -⟩ := decodeWritesOnlyTheSymbolsItCounts s hp
  obtain rfl : u = t := Host.Outcome.next.inj (hu.symm.trans hexec)
  exact hrest k hk

end

/-- Settles O22: a check that fails has changed nothing, and the partial effects of ENCODE and DECODE stay in their own
buffer below RES0. -/
theorem errorsAreDetectedBeforeAnyOtherChange : Obligations.ErrorsAreDetectedBeforeAnyOtherChange := by
  unfold Obligations.ErrorsAreDetectedBeforeAnyOtherChange
  intro i s t hp hexec herr
  refine ⟨exec_ctl hexec, ?_⟩
  obtain hsame | ⟨rfl, hmem⟩ | ⟨rfl, hmem⟩ := exec_error_cases hexec herr
  · obtain ⟨hport, hfreq, hqueue, htree, htable, hsym, hbit⟩ := hsame
    exact ⟨hport, hfreq, hqueue, htree, htable, fun _ => hbit, fun _ => hsym, fun k _ => hbit k, fun k _ => hsym k⟩
  · obtain ⟨hport, hfreq, hqueue, htree, htable, hsym⟩ := exec_encode_frame hexec
    exact ⟨hport, hfreq, hqueue, htree, htable, fun h => absurd ⟨rfl, hmem⟩ h, fun _ => hsym,
      fun _ => exec_encode_bitRead_of_le hp hexec, fun k _ => hsym k⟩
  · obtain ⟨hport, hfreq, hqueue, htree, htable, hbit⟩ := exec_decode_frame hexec
    exact ⟨hport, hfreq, hqueue, htree, htable, fun _ => hbit, fun h => absurd ⟨rfl, hmem⟩ h,
      fun k _ => hbit k, fun _ => exec_decode_symRead_of_le hp hexec⟩

end Sys2Proof.Machine

namespace Sys2Proof.Machine

/-! ### A rebuilt tree has no code table (70_reset_and_hazards.md R123) -/

/-- ENCODE whose first symbol has no codeword fails before it has written a bit (43_encoder.md R95). -/
theorem encode_failsCleanly_of_first_none {s : State} (hpos : 1 ≤ s.op0.toNat) (hm : s.op0.toNat ≤ s.cfg.symDepth)
    (hnone : s.codeOf (s.symRead 0) = none) : FailsCleanly .encode s .unknownSymbol 0 := by
  obtain ⟨rem, hrem⟩ : ∃ rem, s.op0.toNat = rem + 1 := Nat.exists_eq_add_of_le' hpos
  have hrun : encodeRun s = ⟨s.putCodes 0 s.bitbuf, s.codeStart 0, some (.unknownSymbol, 0)⟩ := by
    rw [encodeRun, hrem, encodeLoop_of_none hnone, State.putCodes, State.codeStart]
  obtain ⟨t, hexec, hreports, ⟨-, hbits⟩, hport, hfreq, hqueue, htree, htable, hsym⟩ := exec_encode_of_run hm hrun
  exact ⟨t, hexec, hreports, hport, hfreq, hqueue, htree, htable, hsym, fun k => hbits k (Nat.zero_le k)⟩

/-- Settles O44: the build empties the code table, so the first symbol ENCODE reads has no codeword. -/
theorem aRebuiltTreeHasNoCodeTable : Obligations.ARebuiltTreeHasNoCodeTable := by
  unfold Obligations.ARebuiltTreeHasNoCodeTable
  intro s hn
  have hexec := exec_eq_nextOr .buildTree s s
  have built := exec_buildTree_of_some hn hexec
  obtain ⟨hctl, herr, -⟩ := built.reports
  refine ⟨_, hexec, herr, built.noTable, fun m hpos hm => ?_⟩
  generalize nextOr s (exec .buildTree s) = t at *
  have hop : State.op0 { t with arg0 := m } = m := by simp only [State.op0, hctl]
  refine encode_failsCleanly_of_first_none (by rwa [hop]) (by rwa [hop]) ?_
  simp only [State.codeOf, built.noCode, cellGet_nil]

/-! ### Hardware reset (70_reset_and_hazards.md R118) -/

theorem step_of_resetAssert {s : State} {es : List Event} (he : s.events = .resetAssert :: es) :
    step s = .next (hardwareReset { s with events := es }) := by
  simp only [step, he, runEvent]

/-- The port supports no access while reset is held. -/
theorem step_access_of_resetHeld {s : State} {a : Access} {es : List Event} (he : s.events = .access a :: es)
    (hheld : s.resetHeld = true) : step s = .fault .accessInReset := by
  simp only [step, he, runEvent, hostAccess, if_pos hheld]

/-! What the reset's empty tables read as (10_state.md R45). -/

theorem present_hardwareReset (s : State) (x : Nat) : (hardwareReset s).present x = false := by
  rw [State.present, hardwareReset_freq, cellGet_nil, Option.isSome_none]

theorem freqOf_hardwareReset (s : State) (x : Nat) : (hardwareReset s).freqOf x = 0 := by
  rw [State.freqOf, hardwareReset_freq, cellGet_nil, Option.getD_none]

theorem node_hardwareReset (s : State) (i : Nat) : (hardwareReset s).node i = zeroNode := by
  rw [State.node, hardwareReset_nodes, List.getD_nil]

theorem codeOf_hardwareReset (s : State) (x : Nat) : (hardwareReset s).codeOf x = none := by
  rw [State.codeOf, hardwareReset_code, cellGet_nil]

/-- An entry not written since the reset holds the draw the reset numbers (20_memory.md R70). -/
theorem symRead_hardwareReset (s : State) (i : Nat) :
    (hardwareReset s).symRead i = Config.symbufDraw (s.epoch + 1) i % s.cfg.alphabet := by
  rw [State.symRead, hardwareReset_symbuf, cellGet_nil, Option.getD_none, hardwareReset_epoch, hardwareReset_cfg]

theorem bitRead_hardwareReset (s : State) (k : Nat) :
    (hardwareReset s).bitRead k = Config.bitbufDraw (s.epoch + 1) k := by
  rw [State.bitRead, hardwareReset_bitbuf, cellGet_nil, Option.getD_none, hardwareReset_epoch]

/-- Settles O1: the step is `hardwareReset`, whose rows are the reset values whatever the control state was. -/
theorem hardwareResetPutsEveryRowToItsResetValue : Obligations.HardwareResetPutsEveryRowToItsResetValue := by
  unfold Obligations.HardwareResetPutsEveryRowToItsResetValue
  intro s es he
  exact ⟨_, step_of_resetAssert he, hardwareReset_ctl _, hardwareReset_arg0 _, hardwareReset_arg1 _,
    hardwareReset_arg2 _, hardwareReset_res0 _, hardwareReset_res1 _, hardwareReset_res2 _, hardwareReset_treeValid _,
    hardwareReset_tableValid _, hardwareReset_overrun _, hardwareReset_err _, hardwareReset_errInfo _,
    fun x => ⟨present_hardwareReset _ x, freqOf_hardwareReset _ x⟩, hardwareReset_queue _, node_hardwareReset _,
    hardwareReset_root _, hardwareReset_nodeUsed _, codeOf_hardwareReset _, symRead_hardwareReset _,
    bitRead_hardwareReset _, hardwareReset_cfg _, hardwareReset_events _,
    fun _ _ => step_access_of_resetHeld rfl (hardwareReset_resetHeld s)⟩

end Sys2Proof.Machine
